-- ==== Sys2Proof/Word.lean ====
section
/-! DEFINITION. The words of the keypad scanner and their plainest arithmetic (00_scope.md R13 to R18). -/

namespace Sys2Proof

/-- A byte of the register port (R91): bit `i` belongs to expander line `i`, bit 0 least significant (R13). -/
abbrev Byte := BitVec 8

/-- A symbol of the keypad: opaque, `SYM_W` = 8 bits (R15, D5). -/
abbrev Symbol := BitVec 8

/-- A 32-bit millisecond count: a clock sample, an interval or a timeout (R214, R83). -/
abbrev Millis := BitVec 32

/-- `sub32(a, b)`: elapsed time from `b` to `a`, modulo 2^32 (R18 (a)). -/
def sub32 (a b : Millis) : Millis := a - b

/-- A word of the machine: a 35-bit command of the host (R81) or a 17-bit register transaction of the
block (R91). -/
inductive Word where
  /-- `CMD35`: `op` in bits 34 to 32, `arg` in bits 31 to 0. -/
  | command (w : BitVec 35)
  /-- `REG17`: `rw` in bit 16, `a` in bits 15 to 8, `v` in bits 7 to 0. -/
  | transaction (w : BitVec 17)
  deriving DecidableEq, Repr

end Sys2Proof
end

