-- ==== Sys2Proof/Config.lean ====
section
/-! DEFINITION. The keypad configuration (00_scope.md R9) and the free values. -/

namespace Sys2Proof

/-- The Keypad Configuration of R9: parameters fixed when the block is built.
`ROWS` and `COLS` are the lengths of the two line lists (notes/assumptions/21.md). -/
structure Keypad where
  /-- `ROW_LINE[r]`: the expander line of matrix row `r`. -/
  rowLine : List Nat
  /-- `COL_LINE[c]`: the expander line of matrix column `c`. -/
  colLine : List Nat
  /-- `TABLE[r * COLS + c]`: the symbol of position `(r, c)`, row-major. -/
  table : List Symbol
  /-- `DEBOUNCE_MS`: the debounce interval, unsigned 32 bits, 0 allowed (D17). -/
  debounceMs : Millis
  /-- `BUS_ADDR`: the expander's bus address, an opaque label that no rule reads. -/
  busAddr : Nat
  /-- `CAPACITY`: the number of slots of the key buffer, at least 2 (R12, D6). -/
  capacity : Nat
  /-- `SETTLE_US`: the settle delay in microseconds, positive; no rule depends on it (D25). -/
  settleUs : Nat
  deriving DecidableEq, Repr

/-- `ROWS` (R9). -/
def Keypad.rows (k : Keypad) : Nat := k.rowLine.length

/-- `COLS` (R9). -/
def Keypad.cols (k : Keypad) : Nat := k.colLine.length

/-- Configuration K44 of 95_test_vectors.md section 0 (the source's own scenario), with the
`CAPACITY` of 4 that the vectors use. -/
def Keypad.k44 : Keypad where
  rowLine := [0, 1, 2, 3]
  colLine := [4, 5, 6, 7]
  table := [0x31, 0x32, 0x33, 0x41, 0x34, 0x35, 0x36, 0x42,
            0x37, 0x38, 0x39, 0x43, 0x2A, 0x30, 0x23, 0x44]
  debounceMs := 50
  busAddr := 0
  capacity := 4
  settleUs := 1

/-- Free value: the byte a read transaction returns when the environment's answers are used up
(R54: any of the 256 values; notes/assumptions/6.md). -/
opaque Config.freeRead : Nat → Byte

/-- Free value: whether a write transaction is performed when the environment's answers are used up
(R54, U4; notes/assumptions/7.md). -/
opaque Config.freeWrite : Nat → Bool

/-- Free value: the milliseconds by which true time moves on before a clock sample when the
environment's answers are used up (R215; notes/assumptions/8.md). -/
opaque Config.freeAdvance : Nat → Nat

/-- Free value: the data of `COUNT` for a count that does not fit 32 bits (R9, R12 and R167 leave it
open; notes/assumptions/29.md). -/
opaque Config.wideCount : Nat → BitVec 32

end Sys2Proof
end

