-- ==== Sys2Proof/Machine/State.lean ====
section
/-! DEFINITION. The state of the machine: the block's seven registers (10_state.md R20), the command
in progress, the port environment, the clock, and the machine's inputs and event history. -/

namespace Sys2Proof.Machine

/-- The scanner state (R21). -/
inductive ScanState where
  | awaitingPress
  | awaitingDebounce
  | awaitingRelease
  deriving DecidableEq, Repr

/-- The result of one scan (R16, R120). -/
inductive KeyResult where
  | noKey
  | key (x : Symbol)
  | conflict
  deriving DecidableEq, Repr

/-- The status of a response (R86). -/
inductive Status where
  /-- The command completed and `data` is its result. -/
  | ok
  /-- The buffer held no unread entry. -/
  | empty
  /-- The timeout elapsed with no entry. -/
  | timedOut
  /-- Reserved operation code. -/
  | invalid
  deriving DecidableEq, Repr

/-- A response word as its two fields (R85). -/
structure Response where
  status : Status
  data : BitVec 32
  deriving DecidableEq, Repr

/-- The events of an execution (00_scope.md R8), with their payloads. -/
inductive Event where
  /-- A command word was accepted from the host. -/
  | accepted (w : BitVec 35)
  /-- `now()` returned `t`. -/
  | clock (t : Millis)
  /-- `R[a]` returned `v`. -/
  | read (a v : Byte)
  /-- `W[a] <- v` was issued. -/
  | write (a v : Byte)
  /-- `settle()` was waited out (R125). -/
  | settle
  /-- `yield()` was emitted (R178). -/
  | yield
  /-- A response word was sent to the host. -/
  | response (r : Response)
  deriving DecidableEq, Repr

/-- A register file or memory as a list of (address, byte) cells: addresses strictly rising, no cell
equal to what an unlisted address reads as (`Memory.wf`). -/
abbrev Memory := List Host.Cell

/-- What the port environment does with one coming read transaction. -/
inductive ReadAnswer where
  /-- A draw (R54): this byte comes back, from a failed transaction or from any environment at all. -/
  | drawn (b : Byte)
  /-- The reference environment answers (20_memory.md R65 to R70) with these switches closed;
  `floats` is the draw for the nets that float. -/
  | healthy (closed : List (Nat × Nat)) (floats : Byte)
  deriving DecidableEq, Repr

/-- The port environment and the clock: everything the block reaches through the register port and
`now()`. -/
structure Env where
  /-- The expander's registers, addresses 0x00 to 0x0A (R36). -/
  expander : Memory
  /-- True elapsed time in milliseconds, from an arbitrary origin (R215). -/
  time : Nat
  /-- The model's own: the answers to the coming reads, first first. -/
  reads : List ReadAnswer
  /-- The model's own: whether each coming write is performed (R53, R54). -/
  writes : List Bool
  /-- The model's own: by how much time moves before each coming clock sample (R215). -/
  advances : List Nat
  /-- The model's own: counts the answers taken; the free values are applied to it. -/
  draws : Nat
  deriving DecidableEq, Repr

/-- The block raises no exception and has no fault state (60_exceptions.md R200): there is no fault. -/
inductive Fault where
  deriving DecidableEq, Repr

/-- Why the model gives no next state. -/
inductive Refusal where
  /-- Raised by an arm of `exec` for an instruction without a meaning; no arm is one. Safe. -/
  | notModelled (mnemonic : String)
  /-- Raised by the port environment for an access above 0x0A (20_memory.md R51, U19). Safe: the spec
  gives no effect and no rule of the block issues one. -/
  | noSuchRegister (a : Byte)
  /-- Raised by the port environment for a write to a read-only register (10_state.md R42, U19).
  Safe: the spec gives no effect and no rule of the block issues one. -/
  | readOnlyRegister (a : Byte)
  /-- Raised when a machine is constructed from an ill-formed configuration (00_scope.md R10, U20).
  Safe: the spec says that a model refuses it. -/
  | illFormedConfiguration
  deriving DecidableEq, Repr

/-- The machine. Only the fields marked so are the model's own. -/
structure State where
  /-- The parameters of the machine (R9, R32): no step writes them. -/
  cfg : Keypad
  /-- The scanner state (R21). -/
  state : ScanState
  /-- The candidate symbol (R22). -/
  cand : Symbol
  /-- The clock value of the previous effective tick (R23). -/
  lastTick : Millis
  /-- The slots of the key buffer (R25). -/
  buf : List Symbol
  /-- The next free write slot (R26). -/
  head : Nat
  /-- The next unread slot (R26). -/
  tail : Nat
  /-- The clock value at entry to a blocking read (R29). -/
  waitStart : Millis
  /-- The command in progress between steps: the timeout of the `POPBLOCKING` that is running (R30). -/
  waiting : Option Millis
  /-- The port environment and the clock. -/
  env : Env
  /-- The model's own: the command words the host has offered, oldest first (R80, R96). -/
  inbox : List (BitVec 35)
  /-- The model's own: a register-port transaction (R91) to be run alone. The host has no access to
  it (R221; notes/assumptions/13.md). -/
  portWord : Option (BitVec 17)
  /-- The model's own: the reset input (R230); `some n` asserts it after `n` more events. -/
  resetIn : Option Nat
  /-- The model's own: the events so far, oldest first (R8). -/
  trace : List Event
  deriving DecidableEq, Repr

/-- The port environment and the clock with nothing read, written or scripted: no expander cell is
listed, so each reads as its power-on value (notes/assumptions/5.md). -/
def Env.initial : Env where
  expander := []
  time := 0
  reads := []
  writes := []
  advances := []
  draws := 0

/-- The block right after reset (R47, R230) with configuration `k` and environment `e`; `cand`, `buf`
and `waitStart` hold named values (notes/assumptions/2.md, 3.md, 4.md). -/
def State.resetWith (k : Keypad) (e : Env) : State where
  cfg := k
  state := .awaitingPress
  cand := 0
  lastTick := 0
  buf := List.replicate k.capacity 0
  head := 0
  tail := 0
  waitStart := 0
  waiting := none
  env := e
  inbox := []
  portWord := none
  resetIn := none
  trace := []

/-- The machine right after reset (R47), built with configuration K44 (notes/assumptions/1.md). -/
def State.reset : State := State.resetWith Keypad.k44 Env.initial

end Sys2Proof.Machine
end

