-- ==== Sys2Proof/Syntax.lean ====
section
/-! DEFINITION. The instructions: one constructor per row of spec/opcode_table.json. -/

namespace Sys2Proof

/-- The eight command words of R82 and R84 and the two register transactions of R91.
The argument of every command but `POPBLOCKING` is kept although no rule reads it (R84), so that an
instruction says every bit of its word. -/
inductive Instr where
  /-- `BEGIN`, op 0 (R190). -/
  | begin (arg : BitVec 32)
  /-- `TICK`, op 1 (R149). -/
  | tick (arg : BitVec 32)
  /-- `COUNT`, op 2 (R167). -/
  | count (arg : BitVec 32)
  /-- `PEEK`, op 3 (R166). -/
  | peek (arg : BitVec 32)
  /-- `POP`, op 4 (R165). -/
  | pop (arg : BitVec 32)
  /-- `FLUSH`, op 5 (R168). -/
  | flush (arg : BitVec 32)
  /-- `POPBLOCKING timeout`, op 6 (R169, R83). -/
  | popBlocking (timeout : Millis)
  /-- The reserved operation code 7, answered `INVALID` (R84, R206). -/
  | reserved7 (arg : BitVec 32)
  /-- `readRegister(a)`, rw 0 (R110); `v` is 0 and ignored (R91). -/
  | readRegister (a v : Byte)
  /-- `writeRegister(a, v)`, rw 1 (R111). -/
  | writeRegister (a v : Byte)
  deriving DecidableEq, Repr

end Sys2Proof
end

