-- ==== Sys2Proof/WellFormed.lean ====
section
/-! DEFINITION. Which instructions and which configurations are well formed. -/

namespace Sys2Proof

/-- An address of the expander's register map, 0x00 to 0x0A (10_state.md R36). -/
def mappedAddress (a : Byte) : Bool := decide (a.toNat ≤ 0x0A)

/-- A register the expander lets a transaction write: mapped and not one of the two read-only
registers 0x07 and 0x08 (R36, R42). -/
def writableAddress (a : Byte) : Bool := mappedAddress a && a != 0x07 && a != 0x08

/-- A command is well formed whatever its argument (R84); a read transaction names a mapped register
and carries 0 in its unused field (R91); a write transaction names a register that may be written
(R93). -/
def Instr.wf : Instr → Bool
  | .begin _ => true
  | .tick _ => true
  | .count _ => true
  | .peek _ => true
  | .pop _ => true
  | .flush _ => true
  | .popBlocking _ => true
  | .reserved7 _ => true
  | .readRegister a v => mappedAddress a && v == 0
  | .writeRegister a _ => writableAddress a

/-- The well-formed configuration of R10, with the legal values of R9 and R12 for `CAPACITY` and
`SETTLE_US`. -/
def Keypad.wf (k : Keypad) : Bool :=
  decide (1 ≤ k.rows) && decide (1 ≤ k.cols)
    && (k.rowLine ++ k.colLine).all (fun l => decide (l < 8))
    && decide (k.rowLine ++ k.colLine).Nodup
    && decide (k.table.length = k.rows * k.cols)
    && decide (2 ≤ k.capacity) && decide (0 < k.settleUs)

end Sys2Proof
end

