-- ==== Sys2Proof/Machine/Operands.lean ====
section
/-! DEFINITION. Operands: masks, line bits, table lookup, bit operands, and the response word. -/

namespace Sys2Proof.Machine

/-- `1 << l` as a port byte: the byte with only bit `l` set (R14). -/
def lineBit (l : Nat) : Byte := 1#8 <<< l

/-- The byte with the bits of the listed lines set. -/
def maskOf : List Nat → Byte
  | [] => 0
  | l :: ls => lineBit l ||| maskOf ls

/-- `INPUT_MASK`: one bit set per row line (R11). -/
def inputMask (k : Keypad) : Byte := maskOf k.rowLine

/-- `COL_MASK`: one bit set per column line (R11). -/
def colMask (k : Keypad) : Byte := maskOf k.colLine

/-- The least `w ≥ start` with `capacity ≤ 2 ^ w`, looking at `fuel` candidates. -/
def leastWidth (capacity : Nat) : Nat → Nat → Nat
  | 0, start => start
  | fuel + 1, start => if capacity ≤ 2 ^ start then start else leastWidth capacity fuel (start + 1)

/-- `IDX_W`: the least integer with `2 ^ IDX_W ≥ CAPACITY` (R11), the width of `head` and `tail`. -/
def idxW (k : Keypad) : Nat := leastWidth k.capacity k.capacity 0

/-- The direction byte of a sweep step: line `l` the only output (R122). -/
def columnDrive (l : Nat) : Byte := 0xFF &&& ~~~(lineBit l)

/-- `TABLE[r * COLS + c]` (R126). -/
def symbolAt (k : Keypad) (r c : Nat) : Symbol := k.table.getD (r * k.cols + c) 0

/-- The fast-path test: every row bit of `g` reads high (R121). -/
def allRowsHigh (k : Keypad) (g : Byte) : Bool := ((g &&& inputMask k) ^^^ inputMask k) == 0

/-- `v` with bit `i` set to `b` (R113). -/
def withBit (v : Byte) (i : Nat) (b : Bool) : Byte :=
  if b then v ||| lineBit i else v &&& ~~~(lineBit i)

/-- `zext_32` of a symbol (R87). -/
def symbolData (x : Symbol) : BitVec 32 := x.setWidth 32

/-- `zext_32` of a count (R17, R167). `CAPACITY` has no upper bound (R9, R12), and the spec states no
data for a count of 2^32 or more: there the data is a free value (DESIGN CHOICE,
notes/assumptions/29.md). -/
def countData (n : Nat) : BitVec 32 :=
  if n < 2 ^ 32 then BitVec.ofNat 32 n else Config.wideCount n

/-- The status codes of R86. -/
def statusCode : Status → BitVec 2
  | .ok => 0
  | .empty => 1
  | .timedOut => 2
  | .invalid => 3

/-- The response word: `status` in bits 33 to 32, `data` in bits 31 to 0 (R85). -/
def responseWord (r : Response) : BitVec 34 := statusCode r.status ++ r.data

/-- The codes of the scanner state (R89). -/
def scanStateCode : ScanState → BitVec 2
  | .awaitingPress => 0
  | .awaitingDebounce => 1
  | .awaitingRelease => 2

/-- The tags of a scan result (R88). -/
def keyResultTag : KeyResult → BitVec 2
  | .noKey => 0
  | .key _ => 1
  | .conflict => 2

end Sys2Proof.Machine
end

