-- ==== Sys2Proof/Machine/Environment.lean ====
section
/-! DEFINITION. The expander's register file as a memory, the reference port environment
(20_memory.md R65 to R70), and what one transaction or clock sample does to the environment. -/

namespace Sys2Proof.Machine

/-- What an unlisted cell of the expander reads as: the family's power-on value, `IODIR` 0xFF and
every other register 0x00 (10_state.md R48, G8; PRESUMED, notes/assumptions/5.md). -/
def Memory.unlisted (a : Nat) : Byte := if a = 0 then 0xFF else 0x00

/-- One byte of a memory. -/
def Memory.read : Memory → Nat → Byte
  | [], a => Memory.unlisted a
  | (b, v) :: m, a => if a = b then v else Memory.read m a

/-- `m` without a cell at `a`. -/
def Memory.erase (m : Memory) (a : Nat) : Memory := m.filter (fun c => c.1 != a)

/-- `m` with the cell `(a, v)`, keeping the addresses rising. -/
def Memory.insert : Memory → Nat → Byte → Memory
  | [], a, v => [(a, v)]
  | (b, w) :: m, a, v =>
    if a < b then (a, v) :: (b, w) :: m
    else if a = b then (a, v) :: m
    else (b, w) :: Memory.insert m a v

/-- Write one byte, keeping the canonical form: the value an unlisted cell has removes the cell. -/
def Memory.write (m : Memory) (a : Nat) (v : Byte) : Memory :=
  if v = Memory.unlisted a then Memory.erase m a else Memory.insert m a v

/-- The canonical form: addresses strictly rising, no cell equal to what an unlisted one reads as. -/
def Memory.wf (m : Memory) : Bool :=
  decide (m.Pairwise (fun c d => c.1 < d.1)) && m.all (fun c => c.2 != Memory.unlisted c.1)

/-- Every listed cell is a register of the map 0x00 to 0x0A (R36, R50). -/
def Memory.mapped (m : Memory) : Bool := m.all (fun c => decide (c.1 ≤ 0x0A))

/-- The pairs of lines that the closed switches join (R66); a position outside the matrix joins
nothing. -/
def wiring (k : Keypad) (closed : List (Nat × Nat)) : List (Nat × Nat) :=
  closed.filterMap fun p =>
    match k.rowLine[p.1]?, k.colLine[p.2]? with
    | some a, some b => some (a, b)
    | _, _ => none

/-- The set of lines `net` together with the line joined to it by the wire `w`. -/
def joinWire (net : Byte) (w : Nat × Nat) : Byte :=
  if net.getLsbD w.1 || net.getLsbD w.2 then net ||| lineBit w.1 ||| lineBit w.2 else net

/-- `n` passes over all the wires. -/
def growNet (wires : List (Nat × Nat)) : Nat → Byte → Byte
  | 0, net => net
  | n + 1, net => growNet wires n (wires.foldl joinWire net)

/-- The net of line `l`: all lines joined to it directly or through a chain of closed switches
(R66). Eight lines are joined after at most seven passes. -/
def netOf (wires : List (Nat × Nat)) (l : Nat) : Byte := growNet wires 8 (lineBit l)

/-- The lowest-numbered line of a net. -/
def lowestLine (net : Byte) : Nat := ((List.range 8).find? (fun i => net.getLsbD i)).getD 0

/-- The level of a net (R67): low if an output in it drives 0, else high if an output drives 1 or an
input has its pull-up, else a draw, the bit of `floats` at the net's lowest line. -/
def netLevel (regs : Memory) (floats net : Byte) : Bool :=
  let iodir := Memory.read regs 0x00
  let gppu := Memory.read regs 0x06
  let olat := Memory.read regs 0x0A
  if net &&& ~~~iodir &&& ~~~olat ≠ 0 then false
  else if net &&& ((~~~iodir &&& olat) ||| (iodir &&& gppu)) ≠ 0 then true
  else floats.getLsbD (lowestLine net)

/-- The byte whose bit `i` is `f i`, for the bits below `n`. -/
def packBits (f : Nat → Bool) : Nat → Byte
  | 0 => 0
  | n + 1 => if f n then packBits f n ||| lineBit n else packBits f n

/-- A `GPIO` read of the reference environment: each line's level exclusive-or its `IPOL` bit (R67). -/
def gpioLevels (k : Keypad) (regs : Memory) (closed : List (Nat × Nat)) (floats : Byte) : Byte :=
  packBits (fun i => netLevel regs floats (netOf (wiring k closed) i)) 8 ^^^ Memory.read regs 0x01

/-- A read of the reference environment: `GPIO` gives the levels, any other register its content
(R36, R43). -/
def healthyRead (k : Keypad) (regs : Memory) (closed : List (Nat × Nat)) (floats a : Byte) : Byte :=
  if a = 0x09 then gpioLevels k regs closed floats else Memory.read regs a.toNat

/-- What a performed read does to the expander: reading `GPIO` or `INTCAP` clears a pending interrupt
condition (R58, G10; notes/assumptions/10.md). -/
def clearPending (a : Byte) (regs : Memory) : Memory :=
  if a = 0x09 ∨ a = 0x08 then Memory.write regs 0x07 0 else regs

/-- What a performed write does to the expander: a write to `GPIO` writes `OLAT` (R43, G7), bits 7,
6 and 0 of `IOCON` stay 0 (R40, G5), the read-only registers and the addresses above the map hold
nothing (notes/assumptions/10.md). A write to `GPINTEN`, of 0x00 too, leaves a flag that `INTF` holds:
R58 says that none is pending while `GPINTEN` is 0x00, not what becomes of one that was (DESIGN CHOICE,
notes/assumptions/30.md). -/
def storeRegister (a v : Byte) (regs : Memory) : Memory :=
  if a = 0x09 then Memory.write regs 0x0A v
  else if a = 0x05 then Memory.write regs 0x05 (v &&& 0x3E)
  else if writableAddress a then Memory.write regs a.toNat v
  else regs

/-- The byte the environment returns to the next read of `a` (R52, R54). -/
def Env.answer (e : Env) (k : Keypad) (a : Byte) : Byte :=
  match e.reads with
  | [] => Config.freeRead e.draws
  | .drawn b :: _ => b
  | .healthy closed floats :: _ => healthyRead k e.expander closed floats a

/-- The environment after a read of `a`: one answer taken. -/
def Env.afterRead (e : Env) (a : Byte) : Env :=
  { e with
    expander :=
      match e.reads with
      | .healthy _ _ :: _ => clearPending a e.expander
      | _ => e.expander
    reads := e.reads.tail
    draws := e.draws + 1 }

/-- Whether the environment performs the next write (R53, R54: a failed write is one it did not). -/
def Env.performs (e : Env) : Bool :=
  match e.writes with
  | [] => Config.freeWrite e.draws
  | b :: _ => b

/-- The environment after a write `W[a] <- v`. -/
def Env.afterWrite (e : Env) (a v : Byte) : Env :=
  { e with
    expander := if e.performs then storeRegister a v e.expander else e.expander
    writes := e.writes.tail
    draws := e.draws + 1 }

/-- By how much true time moves before the next clock sample (R215). -/
def Env.advance (e : Env) : Nat :=
  match e.advances with
  | [] => Config.freeAdvance e.draws
  | d :: _ => d

/-- The next clock sample: true milliseconds reduced mod 2^32 (R215). -/
def Env.sample (e : Env) : Millis := BitVec.ofNat 32 (e.time + e.advance)

/-- The environment after a clock sample. -/
def Env.afterSample (e : Env) : Env :=
  { e with
    time := e.time + e.advance
    advances := e.advances.tail
    draws := e.draws + 1 }

/-- The environment after one event of the block: only clock samples and transactions reach it. -/
def Env.afterEvent (e : Env) : Event → Env
  | .clock _ => e.afterSample
  | .read a _ => e.afterRead a
  | .write a v => e.afterWrite a v
  | .accepted _ => e
  | .settle => e
  | .yield => e
  | .response _ => e

/-- The environment after a run of events. -/
def Env.replay (e : Env) (events : List Event) : Env := events.foldl Env.afterEvent e

end Sys2Proof.Machine
end

