-- ==== Sys2Proof/Machine/Flags.lean ====
section
/-! DEFINITION. The conditions computed from `head` and `tail`: the block stores no flag (10_state.md R31). -/

namespace Sys2Proof.Machine

/-- `(i + 1) mod CAPACITY` (R18 (b)). -/
def nextIndex (k : Keypad) (i : Nat) : Nat := (i + 1) % k.capacity

/-- The buffer holds no unread entry: `head == tail` (R162). -/
def bufferEmpty (s : State) : Bool := s.head == s.tail

/-- The number of unread entries: `(CAPACITY + head - tail) mod CAPACITY` (R161). -/
def unreadCount (s : State) : Nat := (s.cfg.capacity + s.head - s.tail) % s.cfg.capacity

/-- The oldest unread symbol, `buf[tail]` (R166). -/
def oldest (s : State) : Symbol := s.buf.getD s.tail 0

end Sys2Proof.Machine
end

