-- ==== Sys2Proof/Machine/Ops.lean ====
section
/-! DEFINITION. The named operations over the machine's state: the primitives of 00_scope.md R17, the
Register Port's transactions, and the key buffer's `push` and removal. The block takes no exception
(60_exceptions.md R200, R210, R211), so there is no operation that takes one or returns from one. -/

namespace Sys2Proof.Machine

/-- Add one event to the history. -/
def emit (e : Event) (s : State) : State := { s with trace := s.trace ++ [e] }

/-- The value of the next `now()` (R214). -/
def clockNow (s : State) : Millis := s.env.sample

/-- The state after one `now()`. -/
def readClock (s : State) : State :=
  emit (.clock s.env.sample) { s with env := s.env.afterSample }

/-- The byte that the next read transaction `R[a]` returns (R52). -/
def portByte (a : Byte) (s : State) : Byte := s.env.answer s.cfg a

/-- The state after the read transaction `R[a]` (R52). -/
def portRead (a : Byte) (s : State) : State :=
  emit (.read a (s.env.answer s.cfg a)) { s with env := s.env.afterRead a }

/-- The state after the write transaction `W[a] <- v` (R53). -/
def portWrite (a v : Byte) (s : State) : State :=
  emit (.write a v) { s with env := s.env.afterWrite a v }

/-- `settle()`: an event and nothing else (R125). -/
def settle (s : State) : State := emit .settle s

/-- `yield()`: an event and nothing else (R178). -/
def yieldNow (s : State) : State := emit .yield s

/-- `respond(status, data)`: send the response word and end the command in progress (R17, R85). -/
def respond (status : Status) (data : BitVec 32) (s : State) : State :=
  emit (.response { status := status, data := data }) { s with waiting := none }

/-- `push(s)`: store at `head`, advance it, and on overflow drop the oldest entry (R163, R164). -/
def push (x : Symbol) (s : State) : State :=
  { s with
    buf := s.buf.set s.head x
    head := nextIndex s.cfg s.head
    tail := if nextIndex s.cfg s.head = s.tail then nextIndex s.cfg s.tail else s.tail }

/-- Remove the tail entry: advance `tail` (R165). -/
def dropOldest (s : State) : State := { s with tail := nextIndex s.cfg s.tail }

end Sys2Proof.Machine
end

