-- ==== Sys2Proof/Machine/Initialisation.lean ====
section
/-! DEFINITION. `BEGIN` (44_initialisation.md) and the reserved operation code (30_encoding.md R84). -/

namespace Sys2Proof.Machine

/-- The eight writes of `BEGIN`, in order (R191). -/
def beginWrites (k : Keypad) : List (Byte × Byte) :=
  [(0x05, 0x24), (0x01, 0x00), (0x02, 0x00), (0x03, 0x00), (0x04, 0x00),
   (0x06, inputMask k), (0x0A, 0x00), (0x00, inputMask k)]

/-- Issue write transactions in order. -/
def portWrites (ws : List (Byte × Byte)) (s : State) : State :=
  ws.foldl (fun t w => portWrite w.1 w.2 t) s

/-- `lastTick <- now(); state <- AwaitingPress` (R192). -/
def captureStart (s : State) : State :=
  { readClock s with lastTick := clockNow s, state := .awaitingPress }

/-- `BEGIN` (R195). -/
def execBegin (_arg : BitVec 32) (s : State) : Host.Outcome State Fault Refusal :=
  .next (respond .ok 0 (captureStart (portWrites (beginWrites s.cfg) s)))

/-- The reserved operation code 7 (R84, R206): no tick, no transaction, no clock read, no state
change; the response is `INVALID`. -/
def execReserved7 (_arg : BitVec 32) (s : State) : Host.Outcome State Fault Refusal :=
  .next (respond .invalid 0 s)

end Sys2Proof.Machine
end

