-- ==== Sys2Proof/Machine/Scanner.lean ====
section
/-! DEFINITION. The Matrix Scanner operation `scanOnce` (41_matrix_scanner.md). -/

namespace Sys2Proof.Machine

/-- The row tests of one column (R124, R126): the row lines still to test, their first index `r`, and
the candidate found so far. `none` is the conflict exit, `some found` the candidate afterwards. -/
def testRows (k : Keypad) (g : Byte) (c : Nat) :
    List Nat → Nat → Option Symbol → Option (Option Symbol)
  | [], _, found => some found
  | l :: ls, r, found =>
    if g.getLsbD l then testRows k g c ls (r + 1) found
    else
      match found with
      | some _ => none
      | none => testRows k g c ls (r + 1) (some (symbolAt k r c))

/-- The result of a sweep that met no conflict (R127). -/
def resultOf : Option Symbol → KeyResult
  | some x => .key x
  | none => .noKey

/-- The port after a column has been driven and has settled (R122, R125). -/
def driveColumn (l : Nat) (s : State) : State := settle (portWrite 0x00 (columnDrive l) s)

/-- The restore that ends every sweep (R127). -/
def restorePort (s : State) : State := portWrite 0x00 (inputMask s.cfg) s

/-- The columns still to sweep, their first index `c`, and the candidate found so far (R122 to R127):
the scan's result and the state after it. -/
def sweep : List Nat → Nat → Option Symbol → State → KeyResult × State
  | [], _, found, s => (resultOf found, restorePort s)
  | l :: ls, c, found, s =>
    let driven := driveColumn l s
    let after := portRead 0x09 driven
    match testRows s.cfg (portByte 0x09 driven) c s.cfg.rowLine 0 found with
    | none => (.conflict, restorePort after)
    | some found' => sweep ls (c + 1) found' after

/-- `scanOnce()` (R128): the fast path, or the sweep of every column. -/
def scanOnce (s : State) : KeyResult × State :=
  let after := portRead 0x09 s
  if allRowsHigh s.cfg (portByte 0x09 s) then (.noKey, after)
  else sweep s.cfg.colLine 0 none after

end Sys2Proof.Machine
end

