-- ==== Sys2Proof/Machine/Debounce.lean ====
section
/-! DEFINITION. The Debounce State Machine's `tick` and the command `TICK` (42_debounce_fsm.md). -/

namespace Sys2Proof.Machine

/-- The time gate is closed at clock value `t`: less than the debounce interval has passed since the
previous effective tick (R141). -/
def gateClosed (t : Millis) (s : State) : Bool := decide (sub32 t s.lastTick < s.cfg.debounceMs)

/-- The transition table of R147 for one scan result. -/
def transition (k : KeyResult) (s : State) : State :=
  match s.state, k with
  | .awaitingPress, .noKey => s
  | .awaitingPress, .key x => { s with cand := x, state := .awaitingDebounce }
  | .awaitingPress, .conflict => { s with state := .awaitingRelease }
  | .awaitingDebounce, .noKey => { s with state := .awaitingPress }
  | .awaitingDebounce, .key x =>
    { (if x = s.cand then push x s else s) with state := .awaitingRelease }
  | .awaitingDebounce, .conflict => { s with state := .awaitingRelease }
  | .awaitingRelease, .noKey => { s with state := .awaitingPress }
  | .awaitingRelease, .key _ => s
  | .awaitingRelease, .conflict => s

/-- An effective tick at clock value `t` (R141, R142): store the time, scan once, apply the
transition. -/
def effectiveTick (t : Millis) (s : State) : State :=
  let scanned := scanOnce { s with lastTick := t }
  transition scanned.1 scanned.2

/-- `tick()` (R148): one clock read, then the gate. -/
def tick (s : State) : State :=
  if gateClosed (clockNow s) s then readClock s else effectiveTick (clockNow s) (readClock s)

/-- `TICK` (R149): tick and respond `OK`, whether the tick was effective or not. -/
def execTick (_arg : BitVec 32) (s : State) : Host.Outcome State Fault Refusal :=
  .next (respond .ok 0 (tick s))

end Sys2Proof.Machine
end

