-- ==== Sys2Proof/Machine/KeyBuffer.lean ====
section
/-! DEFINITION. The Key Buffer commands (43_key_buffer.md). Each ticks first (R160). -/

namespace Sys2Proof.Machine

/-- The buffer action of `POP` (R165). -/
def popOrEmpty (s : State) : State :=
  if bufferEmpty s then respond .empty 0 s
  else respond .ok (symbolData (oldest s)) (dropOldest s)

/-- The buffer action of `PEEK` (R166). -/
def peekOrEmpty (s : State) : State :=
  if bufferEmpty s then respond .empty 0 s else respond .ok (symbolData (oldest s)) s

/-- `COUNT` (R167). -/
def execCount (_arg : BitVec 32) (s : State) : Host.Outcome State Fault Refusal :=
  .next (respond .ok (countData (unreadCount (tick s))) (tick s))

/-- `PEEK` (R166). -/
def execPeek (_arg : BitVec 32) (s : State) : Host.Outcome State Fault Refusal :=
  .next (peekOrEmpty (tick s))

/-- `POP` (R165). -/
def execPop (_arg : BitVec 32) (s : State) : Host.Outcome State Fault Refusal :=
  .next (popOrEmpty (tick s))

/-- `FLUSH` (R168): the tick first, so a symbol its own tick confirms is discarded too. -/
def execFlush (_arg : BitVec 32) (s : State) : Host.Outcome State Fault Refusal :=
  .next (respond .ok 0 { tick s with tail := (tick s).head })

/-- The timeout test that ends an iteration with an empty buffer (R172, R173): with `timeout` 0 no
clock is read. -/
def timeoutTest (timeout : Millis) (s : State) : State :=
  if timeout = 0 then s
  else if timeout ≤ sub32 (clockNow s) s.waitStart then respond .timedOut 0 (readClock s)
  else readClock s

/-- One iteration of the blocking read (R171, R174): yield, tick, buffer, timeout test. -/
def waitIteration (timeout : Millis) (s : State) : State :=
  let ticked := tick (yieldNow s)
  if bufferEmpty ticked then timeoutTest timeout ticked
  else respond .ok (symbolData (oldest ticked)) (dropOldest ticked)

/-- Entry to the blocking read (R170): the clock value is kept, the command is in progress. -/
def enterWait (timeout : Millis) (s : State) : State :=
  { readClock s with waitStart := clockNow s, waiting := some timeout }

/-- `POPBLOCKING timeout` (R174): entry and the first iteration. A command that its first iteration
does not end stays in progress, and each later step runs one more iteration. -/
def execPopBlocking (timeout : Millis) (s : State) : Host.Outcome State Fault Refusal :=
  .next (waitIteration timeout (enterWait timeout s))

end Sys2Proof.Machine
end

