-- ==== Sys2Proof/Machine/RegisterPort.lean ====
section
/-! DEFINITION. The Register Port operations (40_register_port.md). -/

namespace Sys2Proof.Machine

/-- Whether the environment takes a read of `a`; it refuses an address above 0x0A (R51, U19). -/
def readRefusal (a : Byte) : Option Refusal :=
  if mappedAddress a then none else some (.noSuchRegister a)

/-- Whether the environment takes a write to `a`; it refuses an address above 0x0A and the read-only
registers (R42, R51, U19). -/
def writeRefusal (a : Byte) : Option Refusal :=
  if writableAddress a then none
  else if mappedAddress a then some (.readOnlyRegister a)
  else some (.noSuchRegister a)

/-- `readRegister(a)` (R110): one read transaction; the byte comes back with the next state. -/
def readRegister (a : Byte) (s : State) : Host.Outcome (Byte × State) Fault Refusal :=
  match readRefusal a with
  | none => .next (portByte a s, portRead a s)
  | some r => .refused r

/-- `writeRegister(a, v)` (R111): one write transaction. -/
def writeRegister (a v : Byte) (s : State) : Host.Outcome State Fault Refusal :=
  match writeRefusal a with
  | none => .next (portWrite a v s)
  | some r => .refused r

/-- `readBit(a, i)` (R112): an index above 7 issues no transaction and returns 0 (R205). -/
def readBit (a : Byte) (i : Nat) (s : State) : Host.Outcome (Bool × State) Fault Refusal :=
  if 7 < i then .next (false, s)
  else
    match readRegister a s with
    | .next (v, t) => .next (v.getLsbD i, t)
    | .fault f => .fault f
    | .refused r => .refused r

/-- `writeBit(a, i, b)` (R113): read, modify, write; an index above 7 does nothing (R205). -/
def writeBit (a : Byte) (i : Nat) (b : Bool) (s : State) : Host.Outcome State Fault Refusal :=
  if 7 < i then .next s
  else
    match readRegister a s with
    | .next (v, t) => writeRegister a (withBit v i b) t
    | .fault f => .fault f
    | .refused r => .refused r

/-- The register-port transaction `readRegister` (R110); the value field of its word is ignored (R91).
The byte that comes back stands in the event. -/
def execReadRegister (a _v : Byte) (s : State) : Host.Outcome State Fault Refusal :=
  match readRegister a s with
  | .next (_, t) => .next t
  | .fault f => .fault f
  | .refused r => .refused r

/-- The register-port transaction `writeRegister` (R111). -/
def execWriteRegister (a v : Byte) (s : State) : Host.Outcome State Fault Refusal :=
  writeRegister a v s

end Sys2Proof.Machine
end

