-- ==== Sys2Proof/Machine/Dispatch.lean ====
section
/-! DEFINITION. Which meaning each instruction has. -/

namespace Sys2Proof.Machine

def exec (i : Instr) (s : State) : Host.Outcome State Fault Refusal :=
  match i with
  | .begin arg => Sys2Proof.Machine.execBegin arg s
  | .tick arg => Sys2Proof.Machine.execTick arg s
  | .count arg => Sys2Proof.Machine.execCount arg s
  | .peek arg => Sys2Proof.Machine.execPeek arg s
  | .pop arg => Sys2Proof.Machine.execPop arg s
  | .flush arg => Sys2Proof.Machine.execFlush arg s
  | .popBlocking timeout => Sys2Proof.Machine.execPopBlocking timeout s
  | .reserved7 arg => Sys2Proof.Machine.execReserved7 arg s
  | .readRegister a v => Sys2Proof.Machine.execReadRegister a v s
  | .writeRegister a v => Sys2Proof.Machine.execWriteRegister a v s

end Sys2Proof.Machine
end

