-- ==== Sys2Proof/Decode.lean ====
section
/-! DEFINITION. Reading a word as an instruction, and writing an instruction as its word
(30_encoding.md R81, R82, R91). -/

namespace Sys2Proof

/-- Why a number cannot be read as a word of the machine (R94: every command is 35 bits, every
register transaction 17 bits). -/
inductive DecodeRefusal where
  /-- No format of the machine has this width. -/
  | noSuchWidth (nbits : Nat)
  /-- A bit is set above the word's width. -/
  | bitsAboveTheWord (w : Nat)
  deriving DecidableEq, Repr

/-- `op`, bits 34 to 32 of a command word (R81). -/
def commandOp (w : BitVec 35) : BitVec 3 := w.extractLsb' 32 3

/-- `arg`, bits 31 to 0 of a command word (R81). -/
def commandArg (w : BitVec 35) : BitVec 32 := w.extractLsb' 0 32

/-- The command of a command word: R82's table of operation codes, total (R84). -/
def decodeCommand (w : BitVec 35) : Instr :=
  match (commandOp w).toNat with
  | 0 => .begin (commandArg w)
  | 1 => .tick (commandArg w)
  | 2 => .count (commandArg w)
  | 3 => .peek (commandArg w)
  | 4 => .pop (commandArg w)
  | 5 => .flush (commandArg w)
  | 6 => .popBlocking (commandArg w)
  | _ => .reserved7 (commandArg w)

/-- `rw`, bit 16 of a register transaction: set for a write (R91). -/
def transactionRw (w : BitVec 17) : Bool := w.getLsbD 16

/-- `a`, bits 15 to 8 of a register transaction (R91). -/
def transactionAddr (w : BitVec 17) : Byte := w.extractLsb' 8 8

/-- `v`, bits 7 to 0 of a register transaction (R91). -/
def transactionValue (w : BitVec 17) : Byte := w.extractLsb' 0 8

/-- The transaction of a register-port word (R91); the value field of a read is ignored
(notes/assumptions/14.md). -/
def decodeTransaction (w : BitVec 17) : Instr :=
  if transactionRw w then .writeRegister (transactionAddr w) (transactionValue w)
  else .readRegister (transactionAddr w) (transactionValue w)

/-- The instruction of a word. -/
def decode : Word → Instr
  | .command w => decodeCommand w
  | .transaction w => decodeTransaction w

/-- The number `w` as a word of `nbits` bits, where `nbits` is a format's width or that width in
whole bytes; anything else is refused by name (R94, notes/assumptions/18.md). -/
def readWord (nbits w : Nat) : Except DecodeRefusal Word :=
  if nbits = 35 ∨ nbits = 40 then
    if w < 2 ^ 35 then .ok (.command (BitVec.ofNat 35 w)) else .error (.bitsAboveTheWord w)
  else if nbits = 17 ∨ nbits = 24 then
    if w < 2 ^ 17 then .ok (.transaction (BitVec.ofNat 17 w)) else .error (.bitsAboveTheWord w)
  else .error (.noSuchWidth nbits)

/-- The instruction that the decoder reads from the number `w` of `nbits` bits. -/
def decodeTableWord (nbits w : Nat) : Option Instr :=
  match readWord nbits w with
  | .ok word => some (decode word)
  | .error _ => none

/-- A command word from its two fields: `op << 32 | arg` (R81). -/
def commandWord (op : BitVec 3) (arg : BitVec 32) : Word := .command (op ++ arg)

/-- A register transaction from its three fields: `rw << 16 | a << 8 | v` (R91). -/
def transactionWord (rw : BitVec 1) (a v : Byte) : Word := .transaction (rw ++ a ++ v)

/-- The word of an instruction (R82, R91). -/
def encode : Instr → Word
  | .begin arg => commandWord 0 arg
  | .tick arg => commandWord 1 arg
  | .count arg => commandWord 2 arg
  | .peek arg => commandWord 3 arg
  | .pop arg => commandWord 4 arg
  | .flush arg => commandWord 5 arg
  | .popBlocking timeout => commandWord 6 timeout
  | .reserved7 arg => commandWord 7 arg
  | .readRegister a v => transactionWord 0 a v
  | .writeRegister a v => transactionWord 1 a v

/-- The textual form of a command (R95): its mnemonic, and for `POPBLOCKING` the timeout in decimal.
The reserved code and the register transactions have none. -/
def assemblyText : Instr → Option String
  | .begin _ => some "BEGIN"
  | .tick _ => some "TICK"
  | .count _ => some "COUNT"
  | .peek _ => some "PEEK"
  | .pop _ => some "POP"
  | .flush _ => some "FLUSH"
  | .popBlocking timeout => some ("POPBLOCKING " ++ toString timeout.toNat)
  | .reserved7 _ => none
  | .readRegister _ _ => none
  | .writeRegister _ _ => none

end Sys2Proof
end

