-- ==== Sys2Proof/Machine/Fetch.lean ====
section
/-! DEFINITION. Where the machine takes its next word from: the command words the host has offered,
or a register transaction placed to be run alone. -/

namespace Sys2Proof.Machine

/-- The state in which the host's command word `w` has been accepted (R96): the words after it remain,
and the acceptance is an event (R8). -/
def takeCommand (w : BitVec 35) (rest : List (BitVec 35)) (s : State) : State :=
  emit (.accepted w) { s with inbox := rest }

/-- The state in which the placed register transaction has been taken. The host has offered nothing,
so no acceptance is an event (notes/assumptions/13.md). -/
def takeTransaction (s : State) : State := { s with portWord := none }

/-- The word an idle block runs next and the state in which it has been taken: a placed register
transaction, otherwise the oldest command word the host has offered (R96). -/
def fetch (s : State) : Option (Word × State) :=
  match s.waiting, s.portWord, s.inbox with
  | none, some w, _ => some (.transaction w, takeTransaction s)
  | none, none, w :: rest => some (.command w, takeCommand w rest s)
  | _, _, _ => none

/-- `s`, idle and out of reset, with the number `w` of `nbits` bits as the only word to run: a command
word offered by the host, or a register transaction placed to be run alone. A number that is no word
gives nothing to run. -/
def placeWord (s : State) (nbits w : Nat) : State :=
  { s with
    waiting := none
    resetIn := none
    inbox :=
      match readWord nbits w with
      | .ok (.command c) => [c]
      | _ => []
    portWord :=
      match readWord nbits w with
      | .ok (.transaction c) => some c
      | _ => none }

end Sys2Proof.Machine
end

