-- ==== Sys2Proof/Machine/Reset.lean ====
section
/-! DEFINITION. Reset, also in the middle of a command (70_reset_and_hazards.md R230 to R232), and the
construction of a machine (00_scope.md R10). -/

namespace Sys2Proof.Machine

/-- Build a machine from a configuration and an environment; an ill-formed configuration is refused
(R10, U20). -/
def construct (k : Keypad) (e : Env) : Host.Outcome State Fault Refusal :=
  if k.wf then .next (State.resetWith k e) else .refused .illFormedConfiguration

/-- The reset input, asserted and released (R230, R231): the block takes its reset values and no
command is in progress; the environment, the words to come and the history stay. -/
def resetBlock (s : State) : State :=
  { State.resetWith s.cfg s.env with inbox := s.inbox, portWord := s.portWord, trace := s.trace }

/-- The events by which `t` goes on from `s`. -/
def newEvents (s t : State) : List Event := t.trace.drop s.trace.length

/-- Reset after the first `n` events of what leads from `s` to `t` (R232): those events have happened
and reached the environment, none after them, and the block takes its reset values. -/
def abandon (n : Nat) (s t : State) : State :=
  resetBlock
    { s with
      env := s.env.replay ((newEvents s t).take n)
      inbox := t.inbox
      portWord := t.portWord
      trace := s.trace ++ (newEvents s t).take n }

/-- The reset input asserted after `n` more events (R232), where one step leads from `s` to `t`: it
falls within the step's events, or it is still to come and the events are counted off. -/
def resetWithin (n : Nat) (s t : State) : State :=
  if n ≤ (newEvents s t).length then abandon n s t
  else { t with resetIn := some (n - (newEvents s t).length) }

end Sys2Proof.Machine
end

