-- ==== Sys2Proof/Machine/Step.lean ====
section
/-! DEFINITION. One step of the machine. -/

namespace Sys2Proof.Machine

/-- One step with the reset input quiet: one iteration of the blocking read in progress (R174), or
one word, or, with nothing to do, nothing (R220). -/
def proceed (s : State) : Host.Outcome State Fault Refusal :=
  match s.waiting with
  | some timeout => .next (waitIteration timeout s)
  | none =>
    match fetch s with
    | some (w, t) => exec (decode w) t
    | none => .next s

/-- One step. The reset input ends what the step runs after the events it lets through (R232);
asserted at once it lets nothing happen (R230). -/
def step (s : State) : Host.Outcome State Fault Refusal :=
  match s.resetIn with
  | none => proceed s
  | some 0 => .next (resetBlock s)
  | some (n + 1) =>
    match proceed s with
    | .next t => .next (resetWithin (n + 1) s t)
    | .fault f => .fault f
    | .refused r => .refused r

/-- `s` with the instruction of `nbits` bits `w` as the next word (notes/assumptions/12.md). -/
def State.withFetchWord (s : State) (nbits w : Nat) : State := placeWord s nbits w

end Sys2Proof.Machine
end

