-- ==== Sys2Proof/Safety.lean ====
section
/-! DEFINITION. What a sound state is, and the views of the state that claims are stated in. -/

namespace Sys2Proof.Machine

/-- The unread entries, oldest first (10_state.md R28). -/
def unread (s : State) : List Symbol :=
  (List.range (unreadCount s)).map fun i => s.buf.getD ((s.tail + i) % s.cfg.capacity) 0

/-- The invariant of the machine: a well-formed configuration (R10), the buffer invariant (R27), and
an expander memory in canonical form that holds only registers of the map (R36), nothing at `GPIO`
(R43) and 0 in the unimplemented bits of `IOCON` (R40). -/
structure Sound (s : State) : Prop where
  configured : s.cfg.wf = true
  slots : s.buf.length = s.cfg.capacity
  headBelow : s.head < s.cfg.capacity
  tailBelow : s.tail < s.cfg.capacity
  memoryWf : Memory.wf s.env.expander = true
  memoryMapped : Memory.mapped s.env.expander = true
  gpioHoldsNothing : ∀ c ∈ s.env.expander, c.1 ≠ 0x09
  ioconReserved : Memory.read s.env.expander 0x05 &&& 0xC1 = 0

/-- The registers of the expander as `BEGIN` leaves them, `IODIR` apart (R45). -/
structure PortPrepared (k : Keypad) (regs : Memory) : Prop where
  ipol : Memory.read regs 0x01 = 0x00
  gpinten : Memory.read regs 0x02 = 0x00
  defval : Memory.read regs 0x03 = 0x00
  intcon : Memory.read regs 0x04 = 0x00
  iocon : Memory.read regs 0x05 = 0x24
  gppu : Memory.read regs 0x06 = inputMask k
  olat : Memory.read regs 0x0A = 0x00

/-- The fast-path configuration of the expander (R45). -/
structure FastPath (k : Keypad) (regs : Memory) : Prop extends PortPrepared k regs where
  iodir : Memory.read regs 0x00 = inputMask k

/-- Two states that differ at most in what no command can show (R46): `cand` outside
`AwaitingDebounce`, `waitStart` outside a blocking read, and the slots outside the unread range. -/
structure SameVisible (s t : State) : Prop where
  cfg : s.cfg = t.cfg
  state : s.state = t.state
  lastTick : s.lastTick = t.lastTick
  head : s.head = t.head
  tail : s.tail = t.tail
  waiting : s.waiting = t.waiting
  env : s.env = t.env
  inbox : s.inbox = t.inbox
  portWord : s.portWord = t.portWord
  resetIn : s.resetIn = t.resetIn
  trace : s.trace = t.trace
  cand : s.state = .awaitingDebounce → s.cand = t.cand
  waitStart : s.waiting ≠ none → s.waitStart = t.waitStart
  unread : unread s = unread t

/-- The positions that read low in a sweep in which column `c` returned the byte `gs[c]`, by column and
then by row: the list `L` of R130. -/
def lowPairs (k : Keypad) (gs : List Byte) : List (Nat × Nat) :=
  gs.zipIdx.flatMap fun column =>
    (k.rowLine.zipIdx.filter fun row => !(column.1.getLsbD row.1)).map fun row =>
      (row.2, column.2)

/-- The scan result as a function of the fast-path byte and the column bytes (R130). -/
def scanResult (k : Keypad) (g0 : Byte) (gs : List Byte) : KeyResult :=
  if g0 &&& inputMask k = inputMask k then .noKey
  else
    match lowPairs k gs with
    | [] => .noKey
    | [(r, c)] => .key (k.table.getD (r * k.cols + c) 0)
    | _ => .conflict

/-- How many columns a scan drives: none on the fast path, up to the one that holds the second low
position on a conflict, else all (R129). -/
def columnsSwept (k : Keypad) (g0 : Byte) (gs : List Byte) : Nat :=
  if g0 &&& inputMask k = inputMask k then 0
  else
    match lowPairs k gs with
    | _ :: (_, c) :: _ => c + 1
    | _ => k.cols

/-- The events of the sweep of the columns on these lines that return these bytes (R129). -/
def columnEvents (lines : List Nat) (gs : List Byte) : List Event :=
  (lines.zip gs).flatMap fun column =>
    [.write 0x00 (0xFF &&& ~~~((1 : Byte) <<< column.1)), .settle, .read 0x09 column.2]

/-- The events of a scan whose fast path returns `g0` and whose columns return `gs` (R129). -/
def scanEvents (k : Keypad) (g0 : Byte) (gs : List Byte) : List Event :=
  if g0 &&& inputMask k = inputMask k then [.read 0x09 g0]
  else
    .read 0x09 g0 :: columnEvents (k.colLine.take (columnsSwept k g0 gs)) gs
      ++ [.write 0x00 (inputMask k)]

/-- The scan result of a tick, none if the tick is ineffective (R141, R142). -/
def tickResult (s : State) : Option KeyResult :=
  if sub32 s.env.sample s.lastTick < s.cfg.debounceMs then none
  else some (scanOnce { readClock s with lastTick := s.env.sample }).1

/-- `n` ticks in a row. -/
def ticks : Nat → State → State
  | 0, s => s
  | n + 1, s => ticks n (tick s)

/-- The scan results of the effective ones among `n` ticks in a row, in order. -/
def tickResults : Nat → State → List KeyResult
  | 0, _ => []
  | n + 1, s => (tickResult s).toList ++ tickResults n (tick s)

/-- The event is a clock read. -/
def Event.isClock : Event → Bool
  | .clock _ => true
  | _ => false

/-- The event is a register transaction. -/
def Event.isTransaction : Event → Bool
  | .read _ _ => true
  | .write _ _ => true
  | _ => false

/-- The event is a settle wait. -/
def Event.isSettle : Event → Bool
  | .settle => true
  | _ => false

/-- The event is a yield. -/
def Event.isYield : Event → Bool
  | .yield => true
  | _ => false

/-- The event is a response. -/
def Event.isResponse : Event → Bool
  | .response _ => true
  | _ => false

/-- The event is the acceptance of a command. -/
def Event.isAccepted : Event → Bool
  | .accepted _ => true
  | _ => false

/-- The transactions that the rules of the commands can issue (R64), for configuration `k`. -/
def Event.allowed (k : Keypad) : Event → Prop
  | .read a _ => a = 0x09
  | .write a v =>
    (a, v) ∈ [((0x05 : Byte), (0x24 : Byte)), (0x01, 0x00), (0x02, 0x00), (0x03, 0x00), (0x04, 0x00),
      (0x06, inputMask k), (0x0A, 0x00), (0x00, inputMask k)]
    ∨ (a = 0x00 ∧ ∃ l ∈ k.colLine, v = 0xFF &&& ~~~((1 : Byte) <<< l))
  | _ => True

/-- What a tick may do to the expander's registers (R64): from `before` to `after` only `IODIR` and, by
reading `GPIO` (notes/assumptions/10.md), a flag in `INTF` that is cleared may change. -/
structure TickFrame (k : Keypad) (before after : Memory) : Prop where
  others : ∀ x, x ≠ 0x00 → x ≠ 0x07 → Memory.read after x = Memory.read before x
  intf : Memory.read after 0x07 = Memory.read before 0x07 ∨ Memory.read after 0x07 = 0
  iodir : Memory.read after 0x00 = Memory.read before 0x00 ∨
    Memory.read after 0x00 = inputMask k ∨
    ∃ l ∈ k.colLine, Memory.read after 0x00 = 0xFF &&& ~~~((1 : Byte) <<< l)

/-- The switch at row `p.1` and column `p.2` is a position of the matrix (R66). -/
def inMatrix (k : Keypad) (p : Nat × Nat) : Prop := p.1 < k.rows ∧ p.2 < k.cols

end Sys2Proof.Machine
end

