-- ==== Sys2Proof/Certificates/Slice0/Obligations.lean ====
section
/-! DEFINITION. The statements for the provers. -/

open Sys2Proof Sys2Proof.Machine

/-! ## Encoding (30_encoding.md) -/

/-- Decoding the word of any instruction gives the instruction, and encoding what any word decodes to
gives the word: no bit is dropped (R81, R82, R91, R94). For read words whose value field is not 0 this
is the model's choice and no rule's: R91 says that the field is 0 and ignored, and entry 14 (DEDUCED,
unsafe) keeps it in the instruction. -/
def Obligations.DecodeAndEncodeAgree : Prop :=
  (∀ i : Instr, decode (encode i) = i) ∧ (∀ w : Word, encode (decode w) = w)

/-- R82 with R81 and R84: each operation code is the command the table gives it, whatever `arg` is. -/
def Obligations.OperationCodesSelectTheCommands : Prop :=
  ∀ arg : BitVec 32,
    decode (.command (0#3 ++ arg)) = .begin arg ∧ decode (.command (1#3 ++ arg)) = .tick arg ∧
    decode (.command (2#3 ++ arg)) = .count arg ∧ decode (.command (3#3 ++ arg)) = .peek arg ∧
    decode (.command (4#3 ++ arg)) = .pop arg ∧ decode (.command (5#3 ++ arg)) = .flush arg ∧
    decode (.command (6#3 ++ arg)) = .popBlocking arg ∧
    decode (.command (7#3 ++ arg)) = .reserved7 arg

/-- Words written out in 95_test_vectors.md decode to what stands beside them there. -/
def Obligations.WrittenOutWordsDecode : Prop :=
  decode (.command 0x000000000) = .begin 0 ∧ decode (.command 0x1DEADBEEF) = .tick 0xDEADBEEF ∧
  decode (.command 0x600000064) = .popBlocking 100 ∧
  decode (.command 0x7FFFFFFFF) = .reserved7 0xFFFFFFFF ∧
  decode (.transaction 0x00900) = .readRegister 0x09 0x00 ∧
  decode (.transaction 0x10524) = .writeRegister 0x05 0x24

/-- R85, R86: the response word holds the status code in bits 33 to 32 and the data in bits 31 to 0,
and different responses have different words. -/
def Obligations.ResponseWordHoldsStatusAndData : Prop :=
  (∀ (st : Status) (d : BitVec 32),
    (responseWord ⟨st, d⟩).extractLsb' 0 32 = d ∧
    (responseWord ⟨st, d⟩).extractLsb' 32 2 =
      (match st with | .ok => 0#2 | .empty => 1#2 | .timedOut => 2#2 | .invalid => 3#2)) ∧
  (∀ r q : Response, responseWord r = responseWord q → r = q)

/-! ## The configuration (00_scope.md) -/

/-- R11: bit `i` of `INPUT_MASK` is set exactly for the row lines, bit `i` of `COL_MASK` exactly for
the column lines, and in a well-formed configuration no line is both. -/
def Obligations.MasksHoldTheLines : Prop :=
  ∀ k : Keypad,
    (∀ i < 8, ((inputMask k).getLsbD i = true ↔ i ∈ k.rowLine) ∧
      ((colMask k).getLsbD i = true ↔ i ∈ k.colLine)) ∧
    (k.wf = true → inputMask k &&& colMask k = 0)

/-- R11, R26: `IDX_W` is the least width that holds `CAPACITY` values, and `head` and `tail` fit it. -/
def Obligations.IndexWidthIsLeast : Prop :=
  ∀ k : Keypad, k.wf = true →
    k.capacity ≤ 2 ^ idxW k ∧ (∀ w, k.capacity ≤ 2 ^ w → idxW k ≤ w) ∧
    ∀ s : State, s.cfg = k → Sound s → s.head < 2 ^ idxW k ∧ s.tail < 2 ^ idxW k

/-- R18 (c), R116: the table index of a matrix position never leaves the table and is at most 15. -/
def Obligations.TableIndexStaysInTheTable : Prop :=
  ∀ (k : Keypad) (r c : Nat), k.wf = true → r < k.rows → c < k.cols →
    r * k.cols + c ≤ 15 ∧ ∃ h : r * k.cols + c < k.table.length,
      symbolAt k r c = k.table[r * k.cols + c]

/-- R10 with R9 and R12: construction refuses exactly the configurations that break a condition. -/
def Obligations.ConstructionRefusesIllFormed : Prop :=
  ∀ (k : Keypad) (e : Env),
    ((1 ≤ k.rows ∧ 1 ≤ k.cols ∧ (∀ l ∈ k.rowLine ++ k.colLine, l < 8) ∧
        (k.rowLine ++ k.colLine).Nodup ∧ k.table.length = k.rows * k.cols ∧
        2 ≤ k.capacity ∧ 0 < k.settleUs) →
      construct k e = .next (State.resetWith k e)) ∧
    (¬(1 ≤ k.rows ∧ 1 ≤ k.cols ∧ (∀ l ∈ k.rowLine ++ k.colLine, l < 8) ∧
        (k.rowLine ++ k.colLine).Nodup ∧ k.table.length = k.rows * k.cols ∧
        2 ≤ k.capacity ∧ 0 < k.settleUs) →
      construct k e = .refused .illFormedConfiguration)

/-! ## The step, the command interface and reset -/

/-- A step of an idle block with a word to run runs the decoded instruction. The oldest command word of
the host is taken, its acceptance is an event (R8, R96), and the rest is `exec`; a register transaction
placed to be run alone goes first and is no event of acceptance (entries 12 and 13). -/
def Obligations.StepRunsTheOfferedWord : Prop :=
  ∀ s : State, s.waiting = none → s.resetIn = none →
    (∀ w rest, s.portWord = none → s.inbox = w :: rest →
      step s = exec (decode (.command w))
        { s with inbox := rest, trace := s.trace ++ [.accepted w] }) ∧
    (∀ w, s.portWord = some w →
      step s = exec (decode (.transaction w)) { s with portWord := none })

/-- R220: an idle block that is offered nothing keeps all its state. -/
def Obligations.IdleBlockKeepsItsState : Prop :=
  ∀ s : State, s.waiting = none → s.inbox = [] → s.portWord = none → s.resetIn = none →
    step s = .next s

/-- R96, R238: while a blocking read runs no word is accepted and the offered words stay. -/
def Obligations.WaitingBlockAcceptsNothing : Prop :=
  ∀ (s : State) (timeout : Millis), s.waiting = some timeout → s.resetIn = none →
    ∃ t events, step s = .next t ∧ t.inbox = s.inbox ∧ t.portWord = s.portWord ∧
      t.trace = s.trace ++ events ∧
      events.all (fun e => !e.isAccepted) = true

/-- R213, R200: every command word completes in every state, and no command ever refuses. -/
def Obligations.EveryCommandWordCompletes : Prop :=
  ∀ (w : BitVec 35) (s : State), ∃ t, exec (decode (.command w)) s = .next t

/-- R230, R231: reset leaves the block idle with the reset values the spec gives, and neither the
environment nor the history changes. -/
def Obligations.ResetTakesTheResetValues : Prop :=
  ∀ s : State, s.resetIn = some 0 →
    ∃ t, step s = .next t ∧ t.state = .awaitingPress ∧ t.head = 0 ∧ t.tail = 0 ∧ t.lastTick = 0 ∧
      t.waiting = none ∧ t.resetIn = none ∧ t.buf.length = s.cfg.capacity ∧ t.cfg = s.cfg ∧
      t.env = s.env ∧ t.inbox = s.inbox ∧ t.portWord = s.portWord ∧ t.trace = s.trace

/-- R232 and entry 16: a reset after `n` events of what the step runs lets exactly those happen, then
the block takes its reset values; the environment is as those events leave it. A reset that lies beyond
the step's events leaves the step as it is and is nearer by their number. -/
def Obligations.ResetAbandonsTheCommand : Prop :=
  ∀ (s t : State) (events : List Event) (n : Nat), s.resetIn = some n → 0 < n →
    proceed s = .next t → t.trace = s.trace ++ events →
    (n ≤ events.length →
      ∃ u, step s = .next u ∧ u.trace = s.trace ++ events.take n ∧
        u.env = s.env.replay (events.take n) ∧ u.inbox = t.inbox ∧ u.portWord = t.portWord ∧
        u.state = .awaitingPress ∧ u.head = 0 ∧ u.tail = 0 ∧ u.lastTick = 0 ∧ u.waiting = none ∧
        u.resetIn = none) ∧
    (events.length < n → step s = .next { t with resetIn := some (n - events.length) })

/-- R232: a reset inside the sweep of a command that ticks (op 1 to 5), between the write that drives
the `j`-th column and the next write (`d` = 0 right after the write, 1 after the settle wait, 2 after the
read), leaves that column the only output of the expander. Events 1 to 3 of the command are its
acceptance, the clock read and the fast-path read; each column swept before it has three. -/
def Obligations.ResetMidSweepLeavesTheColumnDriven : Prop :=
  ∀ (s : State) (op : BitVec 3) (arg : BitVec 32) (rest : List (BitVec 35)) (j d l : Nat) (g0 : Byte)
    (gs : List Byte) (reads : List ReadAnswer) (writes : List Bool),
    s.waiting = none → s.portWord = none → 1 ≤ op.toNat → op.toNat ≤ 5 →
    s.inbox = (op ++ arg) :: rest → s.resetIn = some (4 + 3 * j + d) → d ≤ 2 →
    ¬ sub32 s.env.sample s.lastTick < s.cfg.debounceMs →
    gs.length = s.cfg.cols → s.env.reads = (g0 :: gs).map .drawn ++ reads →
    s.env.writes = List.replicate (j + 1) true ++ writes →
    j < columnsSwept s.cfg g0 gs → s.cfg.colLine[j]? = some l →
    ∃ u, step s = .next u ∧ u.state = .awaitingPress ∧ u.waiting = none ∧ u.resetIn = none ∧
      (∀ r, .response r ∈ u.trace → .response r ∈ s.trace) ∧
      Memory.read u.env.expander 0x00 = 0xFF &&& ~~~((1 : Byte) <<< l) ∧
      ∀ x, x ≠ 0x00 → Memory.read u.env.expander x = Memory.read s.env.expander x

/-- Every step from a sound state leads to a sound state: the configuration stays well formed, the
buffer invariant of R27 holds, and the expander's memory keeps its form. -/
def Obligations.StepKeepsTheInvariant : Prop :=
  ∀ s t : State, Sound s → step s = .next t → Sound t

/-- The machine right after reset is sound, for every well-formed configuration with an expander
that holds its power-on values (entry 5) and for the configuration of `State.reset` (entry 1). -/
def Obligations.ResetStateIsSound : Prop :=
  Sound State.reset ∧ ∀ k : Keypad, k.wf = true → Sound (State.resetWith k Env.initial)

/-- R32, R63: no step changes the configuration. -/
def Obligations.StepKeepsTheConfiguration : Prop :=
  ∀ s t : State, step s = .next t → t.cfg = s.cfg

/-- R8, R215: a step only adds events to the history, and true time never decreases. -/
def Obligations.HistoryGrowsAndTimeNeverDecreases : Prop :=
  ∀ s t : State, step s = .next t → (∃ events, t.trace = s.trace ++ events) ∧ s.env.time ≤ t.env.time

/-- What a step does to the environment is what its events do, one after the other: the block reaches
the environment through its events alone (R7, R60). -/
def Obligations.EnvironmentFollowsTheEvents : Prop :=
  ∀ s t : State, step s = .next t →
    ∃ events, t.trace = s.trace ++ events ∧ t.env = s.env.replay events

/-- R46: values that no command can show never reach one. Sound states that differ only in them take
steps to states that differ only in them, with the same responses and the same history. -/
def Obligations.HiddenValuesStayHidden : Prop :=
  ∀ s t s' : State, Sound s → Sound t → SameVisible s t → step s = .next s' →
    ∃ t', step t = .next t' ∧ SameVisible s' t'

/-! ## The Register Port (40_register_port.md) -/

/-- A read transaction at a mapped address completes: one read event, one answer taken, no register of
the block written; a draw comes back as it is and leaves the expander alone (R52, R54, R110). -/
def Obligations.ReadTransactionReturnsTheDraw : Prop :=
  ∀ (s : State) (a v : Byte), a.toNat ≤ 0x0A →
    (∃ t b, exec (.readRegister a v) s = .next t ∧
      t = { s with env := t.env, trace := s.trace ++ [.read a b] }) ∧
    (∀ b reads, s.env.reads = .drawn b :: reads →
      exec (.readRegister a v) s =
        .next { s with
                env := { s.env with reads := reads, draws := s.env.draws + 1 }
                trace := s.trace ++ [.read a b] })

/-- A healthy read of a stored register returns its content (R36), so every earlier write (R60), a
healthy read of `GPIO` the levels of the lines (R43, R67); reading 0x08 or 0x09 clears 0x07, and nothing
else changes (R58). All of it rests on the reference environment (entry 9, PRESUMED), the clearing on
entry 10 (PRESUMED), and the content of 0x07 and 0x08 while `GPINTEN` is not 0 on entry 11 (DESIGN
CHOICE: the expander sets no flag of its own) and, while it is 0, on entry 30 (DESIGN CHOICE: a flag
already there stays until it is cleared by a read). -/
def Obligations.HealthyReadReturnsTheRegister : Prop :=
  ∀ (s : State) (a v floats : Byte) (closed : List (Nat × Nat)) (reads : List ReadAnswer),
    a.toNat ≤ 0x0A → s.env.reads = .healthy closed floats :: reads →
    ∃ t, exec (.readRegister a v) s = .next t ∧
      t = { s with
            env := { s.env with expander := t.env.expander, reads := reads, draws := s.env.draws + 1 }
            trace := s.trace ++
              [.read a (if a = 0x09 then gpioLevels s.cfg s.env.expander closed floats
                else Memory.read s.env.expander a.toNat)] } ∧
      ∀ x, Memory.read t.env.expander x =
        if (a = 0x08 ∨ a = 0x09) ∧ x = 7 then 0 else Memory.read s.env.expander x

/-- A write transaction to a register that may be written completes: one write event, no register of
the block written. Performed, it stores at its address (`GPIO` at `OLAT`, `IOCON` without its
unimplemented bits) and nowhere else; lost, it stores nothing (R53, R54, R111; entry 10). That a write to `GPINTEN` leaves a
flag in `INTF` is the model's choice (entry 30, DESIGN CHOICE). -/
def Obligations.WriteTransactionStoresOnce : Prop :=
  ∀ (s : State) (a v : Byte), a.toNat ≤ 0x0A → a ≠ 0x07 → a ≠ 0x08 →
    ∃ t, exec (.writeRegister a v) s = .next t ∧
      t = { s with
            env := { s.env with
                     expander := t.env.expander, writes := s.env.writes.tail,
                     draws := s.env.draws + 1 }
            trace := s.trace ++ [.write a v] } ∧
      (∀ writes, s.env.writes = true :: writes → ∀ x, Memory.read t.env.expander x =
        if x = (if a = 0x09 then 0x0A else a.toNat) then (if a = 0x05 then v &&& 0x3E else v)
        else Memory.read s.env.expander x) ∧
      (∀ writes, s.env.writes = false :: writes → t.env.expander = s.env.expander)

/-- The environment refuses an access above 0x0A and a write to a read-only register (R51, R42). -/
def Obligations.EnvironmentRefusesUnmappedAccesses : Prop :=
  ∀ (s : State) (a v : Byte),
    (0x0A < a.toNat → exec (.readRegister a v) s = .refused (.noSuchRegister a) ∧
      exec (.writeRegister a v) s = .refused (.noSuchRegister a)) ∧
    (a = 0x07 ∨ a = 0x08 → exec (.writeRegister a v) s = .refused (.readOnlyRegister a))

/-- R205: a bit index above 7 is ignored: `readBit` returns 0, `writeBit` does nothing, neither issues
a transaction; and no line of a well-formed configuration is such an index. -/
def Obligations.InvalidBitIndexIsIgnored : Prop :=
  (∀ (s : State) (a : Byte) (i : Nat) (b : Bool), 7 < i →
    readBit a i s = .next (false, s) ∧ writeBit a i b s = .next s) ∧
  (∀ k : Keypad, k.wf = true → ∀ l ∈ k.rowLine ++ k.colLine, ¬ 7 < l)

/-- R112, R113: in range, `readBit` is one read and the bit of what came back; `writeBit` is one read
and one write of that byte with the one bit changed. -/
def Obligations.BitOperationsReadModifyWrite : Prop :=
  ∀ (s : State) (a v : Byte) (i : Nat) (reads : List ReadAnswer), i ≤ 7 → a.toNat ≤ 0x0A →
    s.env.reads = .drawn v :: reads →
    (∃ t, readBit a i s = .next (v.getLsbD i, t) ∧ t.trace = s.trace ++ [.read a v] ∧
      t = { s with env := t.env, trace := t.trace }) ∧
    (∀ b : Bool, a ≠ 0x07 → a ≠ 0x08 →
      ∃ t v', writeBit a i b s = .next t ∧ t.trace = s.trace ++ [.read a v, .write a v'] ∧
        t = { s with env := t.env, trace := t.trace } ∧
        ∀ j < 8, v'.getLsbD j = if j = i then b else v.getLsbD j)

/-! ## The Matrix Scanner (41_matrix_scanner.md) -/

/-- R130: the result of a scan is the function of the bytes returned that the rule describes, the
bytes after the deciding one are not read, and no bit but the row bits matters. -/
def Obligations.ScanIsAFunctionOfTheBytes : Prop :=
  (∀ (s : State) (g0 : Byte) (gs : List Byte) (rest : List ReadAnswer),
    gs.length = s.cfg.cols → s.env.reads = (g0 :: gs).map .drawn ++ rest →
    (scanOnce s).1 = scanResult s.cfg g0 gs ∧
    (scanOnce s).2.env.reads = (gs.drop (columnsSwept s.cfg g0 gs)).map .drawn ++ rest) ∧
  (∀ (k : Keypad) (g0 h0 : Byte) (gs hs : List Byte), k.wf = true → gs.length = hs.length →
    (∀ l ∈ k.rowLine, g0.getLsbD l = h0.getLsbD l) →
    (∀ c l, l ∈ k.rowLine → (gs.getD c 0).getLsbD l = (hs.getD c 0).getLsbD l) →
    scanResult k g0 gs = scanResult k h0 hs)

/-- R129: the transactions and settle waits of a scan, in each of its three shapes, and how many there
are: one transaction on the fast path; otherwise two for each column driven, the first read and the
restoring write, and one wait for each column driven. -/
def Obligations.ScanIssuesTheseEvents : Prop :=
  ∀ (s : State) (g0 : Byte) (gs : List Byte) (rest : List ReadAnswer),
    gs.length = s.cfg.cols → s.env.reads = (g0 :: gs).map .drawn ++ rest →
    (scanOnce s).2.trace = s.trace ++ scanEvents s.cfg g0 gs ∧
    columnsSwept s.cfg g0 gs ≤ s.cfg.cols ∧
    (g0 &&& inputMask s.cfg = inputMask s.cfg →
      scanEvents s.cfg g0 gs = [.read 0x09 g0]) ∧
    (g0 &&& inputMask s.cfg ≠ inputMask s.cfg →
      (scanEvents s.cfg g0 gs).countP Event.isTransaction = 2 * columnsSwept s.cfg g0 gs + 2 ∧
      (scanEvents s.cfg g0 gs).countP Event.isSettle = columnsSwept s.cfg g0 gs)

/-- R120: a scan writes no register of the block; what it does are register transactions and settle
waits. -/
def Obligations.ScanWritesNoBlockRegister : Prop :=
  ∀ s : State, ∃ events,
    (scanOnce s).2 = { s with env := (scanOnce s).2.env, trace := s.trace ++ events } ∧
    ∀ e ∈ events, e = .settle ∨ (∃ v, e = .read 0x09 v) ∨ ∃ v, e = .write 0x00 v

/-- R127, R45: a scan that starts in the fast-path configuration and whose writes are performed ends
in it. -/
def Obligations.ScanRestoresTheFastPath : Prop :=
  ∀ (s : State) (rest : List Bool), FastPath s.cfg s.env.expander →
    s.env.writes = List.replicate (s.cfg.cols + 1) true ++ rest →
    FastPath s.cfg (scanOnce s).2.env.expander

/-- R67, R68: in the fast-path configuration of the reference environment, row line `r` reads 0
exactly when a switch of row `r` is closed. -/
def Obligations.FastPathReadShowsClosedRows : Prop :=
  ∀ (k : Keypad) (regs : Memory) (closed : List (Nat × Nat)) (floats : Byte) (r l : Nat),
    k.wf = true → FastPath k regs → (∀ p ∈ closed, inMatrix k p) → k.rowLine[r]? = some l →
    ((healthyRead k regs closed floats 0x09).getLsbD l = false ↔ ∃ c, (r, c) ∈ closed)

/-- With a healthy expander in the fast-path configuration and the switches held still, a scan sees no
key exactly when no switch is closed, the symbol of the position when one is, and a conflict when more
than one is (R66 to R68, R122 to R127, R242). -/
def Obligations.HealthyScanClassifiesTheSwitches : Prop :=
  ∀ (s : State) (closed : List (Nat × Nat)) (answers : List ReadAnswer) (reads : List ReadAnswer)
    (writes : List Bool),
    s.cfg.wf = true → FastPath s.cfg s.env.expander →
    closed.Nodup → (∀ p ∈ closed, inMatrix s.cfg p) →
    answers.length = s.cfg.cols + 1 → (∀ a ∈ answers, ∃ floats, a = .healthy closed floats) →
    s.env.reads = answers ++ reads →
    s.env.writes = List.replicate (s.cfg.cols + 1) true ++ writes →
    (scanOnce s).1 =
      match closed with
      | [] => .noKey
      | [(r, c)] => .key (s.cfg.table.getD (r * s.cfg.cols + c) 0)
      | _ => .conflict

/-! ## The Debounce State Machine (42_debounce_fsm.md) -/

/-- R141: a tick less than the debounce interval after the previous effective one reads the clock and
does nothing else. -/
def Obligations.IneffectiveTickOnlyReadsTheClock : Prop :=
  ∀ s : State, sub32 s.env.sample s.lastTick < s.cfg.debounceMs →
    tick s = { s with env := s.env.afterSample, trace := s.trace ++ [.clock s.env.sample] }

/-- R142, R147: an effective tick stores the time, scans once, and applies the cell of the transition
table that the state and the scan result select. -/
def Obligations.EffectiveTickFollowsTheTable : Prop :=
  ∀ (s u : State) (k : KeyResult), ¬ sub32 s.env.sample s.lastTick < s.cfg.debounceMs →
    scanOnce { s with env := s.env.afterSample, trace := s.trace ++ [.clock s.env.sample],
                      lastTick := s.env.sample } = (k, u) →
    u.lastTick = s.env.sample ∧
    (s.state = .awaitingPress →
      (k = .noKey → tick s = u) ∧
      (∀ x, k = .key x → tick s = { u with cand := x, state := .awaitingDebounce }) ∧
      (k = .conflict → tick s = { u with state := .awaitingRelease })) ∧
    (s.state = .awaitingDebounce →
      (k = .noKey → tick s = { u with state := .awaitingPress }) ∧
      (k = .key s.cand → tick s = { push s.cand u with state := .awaitingRelease }) ∧
      (∀ x, x ≠ s.cand → k = .key x → tick s = { u with state := .awaitingRelease }) ∧
      (k = .conflict → tick s = { u with state := .awaitingRelease })) ∧
    (s.state = .awaitingRelease →
      (k = .noKey → tick s = { u with state := .awaitingPress }) ∧
      (k ≠ .noKey → tick s = u))

/-- R149: `TICK` ticks and answers `OK` with data 0, effective or not. -/
def Obligations.TickCommandAnswersOk : Prop :=
  ∀ (s : State) (arg : BitVec 32),
    exec (.tick arg) s =
      .next { tick s with waiting := none, trace := (tick s).trace ++ [.response ⟨.ok, 0⟩] }

/-- A tick changes the buffer only in `AwaitingDebounce`, when its scan gives the candidate again, and
it leaves `AwaitingRelease` (R144, R145, R150). -/
def Obligations.OnlyAConfirmedPressIsBuffered : Prop :=
  ∀ s : State, (tick s).buf ≠ s.buf ∨ (tick s).head ≠ s.head ∨ (tick s).tail ≠ s.tail →
    s.state = .awaitingDebounce ∧ tickResult s = some (.key s.cand) ∧
    (tick s).state = .awaitingRelease

/-- A step moves `head` only out of `AwaitingDebounce` and into `AwaitingRelease`, unless it resets:
no command can add a symbol in another way (R33, R150). -/
def Obligations.HeadMovesOnlyOnAConfirmedPress : Prop :=
  ∀ s t : State, s.resetIn = none → step s = .next t → t.head ≠ s.head →
    s.state = .awaitingDebounce ∧ t.state = .awaitingRelease

/-- Two effective ticks that scan one symbol buffer it once; two that scan different symbols, or a
symbol and then no key, buffer nothing (R143 to R145, the source's debounce property E4). -/
def Obligations.TwoEqualSamplesConfirmAPress : Prop :=
  ∀ (s : State) (x : Symbol) (k : KeyResult), Sound s → s.state = .awaitingPress →
    tickResults 2 s = [.key x, k] →
    (k = .key x → unread (ticks 2 s) =
      (if (unread s).length + 1 < s.cfg.capacity then unread s else (unread s).drop 1) ++ [x]) ∧
    (k ≠ .key x → unread (ticks 2 s) = unread s) ∧
    (ticks 2 s).state = (if k = .noKey then .awaitingPress else .awaitingRelease)

/-- R146, R150: from `AwaitingRelease`, as long as no effective tick sees `NoKey`, nothing is buffered
and the state stays, however many ticks there are (the source's release gating E6). -/
def Obligations.NoPressIsTakenBeforeARelease : Prop :=
  ∀ (n : Nat) (s : State), s.state = .awaitingRelease → .noKey ∉ tickResults n s →
    (ticks n s).state = .awaitingRelease ∧ (ticks n s).buf = s.buf ∧
    (ticks n s).head = s.head ∧ (ticks n s).tail = s.tail

/-- Whatever the bytes and the clock, every symbol in the buffer after any number of ticks, with no other
command between them, from an empty buffer in `AwaitingPress` was seen by two consecutive effective
ticks (R150). -/
def Obligations.BufferedSymbolsWereSeenTwice : Prop :=
  ∀ (n : Nat) (s : State) (x : Symbol), Sound s → s.state = .awaitingPress → unread s = [] →
    x ∈ unread (ticks n s) → [.key x, .key x] <:+: tickResults n s

/-! ## The Key Buffer (43_key_buffer.md) -/

/-- R161, R162: the count formula, its range, and when the buffer is empty. -/
def Obligations.CountIsTheNumberOfUnread : Prop :=
  ∀ s : State, s.head < s.cfg.capacity → s.tail < s.cfg.capacity →
    unreadCount s = (s.cfg.capacity + s.head - s.tail) % s.cfg.capacity ∧
    unreadCount s ≤ s.cfg.capacity - 1 ∧
    (bufferEmpty s = true ↔ s.head = s.tail) ∧ (s.head = s.tail ↔ unreadCount s = 0) ∧
    (unread s).length = unreadCount s

/-- R163, R164: `push` appends to the queue, dropping the oldest entry when `CAPACITY - 1` are held,
and writes `buf[head]`, `head` and, on overflow only, `tail`. -/
def Obligations.PushAppendsAndDropsTheOldest : Prop :=
  ∀ (s : State) (x : Symbol), Sound s →
    unread (push x s) =
      (if unreadCount s = s.cfg.capacity - 1 then (unread s).drop 1 else unread s) ++ [x] ∧
    push x s = { s with
                 buf := s.buf.set s.head x
                 head := (s.head + 1) % s.cfg.capacity
                 tail := if unreadCount s = s.cfg.capacity - 1 then (s.tail + 1) % s.cfg.capacity
                         else s.tail }

/-- R165: `POP` ticks, then removes and returns the oldest entry, or answers `EMPTY`; `head` and the
slots are as the tick left them. -/
def Obligations.PopTakesTheOldest : Prop :=
  ∀ (s : State) (arg : BitVec 32), Sound s →
    (unread (tick s) = [] →
      exec (.pop arg) s =
        .next { tick s with waiting := none, trace := (tick s).trace ++ [.response ⟨.empty, 0⟩] }) ∧
    (∀ x rest, unread (tick s) = x :: rest →
      ∃ t, exec (.pop arg) s = .next t ∧ unread t = rest ∧
        t = { tick s with
              tail := ((tick s).tail + 1) % s.cfg.capacity, waiting := none
              trace := (tick s).trace ++ [.response ⟨.ok, x.setWidth 32⟩] })

/-- R166: `PEEK` ticks, then returns the oldest entry without removing it, or answers `EMPTY`. -/
def Obligations.PeekShowsTheOldest : Prop :=
  ∀ (s : State) (arg : BitVec 32), Sound s →
    (unread (tick s) = [] →
      exec (.peek arg) s =
        .next { tick s with waiting := none, trace := (tick s).trace ++ [.response ⟨.empty, 0⟩] }) ∧
    (∀ x rest, unread (tick s) = x :: rest →
      ∃ t, exec (.peek arg) s = .next t ∧ unread t = x :: rest ∧
        t = { tick s with
              waiting := none, trace := (tick s).trace ++ [.response ⟨.ok, x.setWidth 32⟩] })

/-- R167: `COUNT` ticks, then returns the number of unread entries, at most `CAPACITY - 1`. For a count
of 2^32 or more the spec states no data, and nothing is said of it here (entry 29, DESIGN CHOICE: a free
value). -/
def Obligations.CountReportsTheUnread : Prop :=
  ∀ (s : State) (arg : BitVec 32), Sound s →
    (unread (tick s)).length ≤ s.cfg.capacity - 1 ∧
    ∃ data : BitVec 32,
      exec (.count arg) s =
        .next { tick s with
                waiting := none
                trace := (tick s).trace ++ [.response ⟨.ok, data⟩] } ∧
      ((unread (tick s)).length < 2 ^ 32 → data.toNat = (unread (tick s)).length)

/-- R168: `FLUSH` ticks, then sets `tail` to `head`: nothing is unread, not even what its own tick
confirmed. -/
def Obligations.FlushDiscardsEverything : Prop :=
  ∀ (s : State) (arg : BitVec 32), Sound s →
    ∃ t, exec (.flush arg) s = .next t ∧ unread t = [] ∧
      t = { tick s with
            tail := (tick s).head, waiting := none
            trace := (tick s).trace ++ [.response ⟨.ok, 0⟩] }

/-- R97: flushing leaves the same state as removing the oldest entry until none is left. -/
def Obligations.FlushEqualsRepeatedPops : Prop :=
  ∀ s : State, Sound s → { s with tail := s.head } = dropOldest^[unreadCount s] s

/-- R170 to R174: `POPBLOCKING` reads the clock, yields, ticks and looks at the buffer; a symbol ends
the command whatever the timeout, otherwise the timeout test, skipped for 0, decides. -/
def Obligations.PopBlockingRunsItsFirstIteration : Prop :=
  ∀ (s u : State) (timeout : Millis), Sound s →
    u = tick { s with
               waitStart := s.env.sample, waiting := some timeout, env := s.env.afterSample
               trace := s.trace ++ [.clock s.env.sample, .yield] } →
    (∀ x rest, unread u = x :: rest →
      ∃ t, exec (.popBlocking timeout) s = .next t ∧ unread t = rest ∧
        t = { u with
              tail := (u.tail + 1) % s.cfg.capacity, waiting := none
              trace := u.trace ++ [.response ⟨.ok, x.setWidth 32⟩] }) ∧
    (unread u = [] → timeout = 0 → exec (.popBlocking timeout) s = .next u) ∧
    (unread u = [] → timeout ≠ 0 → timeout ≤ u.env.sample - s.env.sample →
      exec (.popBlocking timeout) s =
        .next { u with
                waiting := none, env := u.env.afterSample
                trace := u.trace ++ [.clock u.env.sample, .response ⟨.timedOut, 0⟩] }) ∧
    (unread u = [] → timeout ≠ 0 → ¬ timeout ≤ u.env.sample - s.env.sample →
      exec (.popBlocking timeout) s =
        .next { u with env := u.env.afterSample, trace := u.trace ++ [.clock u.env.sample] } ∧
      u.waiting = some timeout)

/-- R171 to R173: every later step of a blocking read is one iteration, and the elapsed time is
measured from the clock value kept at entry. -/
def Obligations.WaitingStepRunsOneIteration : Prop :=
  ∀ (s u : State) (timeout : Millis), Sound s → s.waiting = some timeout → s.resetIn = none →
    u = tick { s with trace := s.trace ++ [.yield] } →
    (∀ x rest, unread u = x :: rest →
      ∃ t, step s = .next t ∧ unread t = rest ∧
        t = { u with
              tail := (u.tail + 1) % s.cfg.capacity, waiting := none
              trace := u.trace ++ [.response ⟨.ok, x.setWidth 32⟩] }) ∧
    (unread u = [] → timeout = 0 → step s = .next u ∧ u.waiting = some 0) ∧
    (unread u = [] → timeout ≠ 0 → timeout ≤ u.env.sample - s.waitStart →
      step s =
        .next { u with
                waiting := none, env := u.env.afterSample
                trace := u.trace ++ [.clock u.env.sample, .response ⟨.timedOut, 0⟩] }) ∧
    (unread u = [] → timeout ≠ 0 → ¬ timeout ≤ u.env.sample - s.waitStart →
      step s =
        .next { u with env := u.env.afterSample, trace := u.trace ++ [.clock u.env.sample] } ∧
      u.waiting = some timeout)

/-- R173, R175: a blocking read with timeout 0 on whose keypad nothing is ever pressed runs for any
number of steps without an answer: the model admits the infinite execution. -/
def Obligations.BlockingReadMayWaitForEver : Prop :=
  ∀ (n : Nat) (s : State) (rest : List ReadAnswer), s.waiting = some 0 → s.resetIn = none →
    s.head = s.tail →
    s.env.reads = List.replicate n (.drawn 0xFF) ++ rest →
    ∃ t events, Host.Core.run core n s = .next t ∧ t.waiting = some 0 ∧
      t.trace = s.trace ++ events ∧ events.all (fun e => !e.isResponse) = true ∧
      events.countP Event.isYield = n

/-! ## `BEGIN`, the reserved code, and rules over all commands -/

/-- R190 to R195: `BEGIN` issues its eight writes and one clock read, keeps that clock value, goes to
`AwaitingPress`, answers `OK`, and leaves the buffer and the candidate alone. -/
def Obligations.BeginInitialisesTheBlock : Prop :=
  ∀ (s : State) (arg : BitVec 32), ∃ t now,
    exec (.begin arg) s = .next t ∧
    t = { s with lastTick := now, state := .awaitingPress, waiting := none, env := t.env, trace := t.trace } ∧
    t.trace = s.trace ++
      [.write 0x05 0x24, .write 0x01 0x00, .write 0x02 0x00, .write 0x03 0x00, .write 0x04 0x00,
       .write 0x06 (inputMask s.cfg), .write 0x0A 0x00, .write 0x00 (inputMask s.cfg),
       .clock now, .response ⟨.ok, 0⟩] ∧
    (∀ d rest, s.env.advances = d :: rest → now = BitVec.ofNat 32 (s.env.time + d))

/-- R45, R191: with its writes performed, `BEGIN` leaves the expander in the fast-path configuration,
whatever it held before. -/
def Obligations.BeginPreparesThePort : Prop :=
  ∀ (s t : State) (arg : BitVec 32) (rest : List Bool),
    s.env.writes = List.replicate 8 true ++ rest → exec (.begin arg) s = .next t →
    FastPath t.cfg t.env.expander

/-- R84, R206: the argument of op 0 to 5 never matters, and op 7 answers `INVALID` with data 0 and
does nothing else. -/
def Obligations.ReservedCodeAnswersInvalid : Prop :=
  ∀ (a b : BitVec 32) (s : State),
    exec (.begin a) s = exec (.begin b) s ∧ exec (.tick a) s = exec (.tick b) s ∧
    exec (.count a) s = exec (.count b) s ∧ exec (.peek a) s = exec (.peek b) s ∧
    exec (.pop a) s = exec (.pop b) s ∧ exec (.flush a) s = exec (.flush b) s ∧
    exec (.reserved7 a) s =
      .next { s with waiting := none, trace := s.trace ++ [.response ⟨.invalid, 0⟩] }

/-- R64, R51: the only transactions any command issues, in the step that runs it and, for a blocking
read, in every later iteration, are reads of 0x09, the column writes and the restoring write of a sweep,
and the eight writes of `BEGIN`. -/
def Obligations.CommandsIssueOnlyTheseTransactions : Prop :=
  (∀ (w : BitVec 35) (s t : State), exec (decode (.command w)) s = .next t →
    ∃ events, t.trace = s.trace ++ events ∧ ∀ e ∈ events, e.allowed s.cfg) ∧
  (∀ (s t : State) (timeout : Millis), s.waiting = some timeout → s.resetIn = none →
    step s = .next t → ∃ events, t.trace = s.trace ++ events ∧ ∀ e ∈ events, e.allowed s.cfg)

/-- The expander's registers that a command can change: `BEGIN` none but those it writes, a command
that ticks, and each later iteration of a blocking read, only `IODIR` and, by reading `GPIO` (entry 10),
a flag in `INTF` that it clears, the reserved code none (R64, R58). Every other address reads as
before; that `INTF` does so after `BEGIN`, which writes 0x00 to `GPINTEN`, is the model's choice (entry
30, DESIGN CHOICE). -/
def Obligations.CommandsLeaveTheOtherRegisters : Prop :=
  (∀ (w : BitVec 35) (s t : State), exec (decode (.command w)) s = .next t →
    match decode (.command w) with
    | .begin _ => ∀ x, (x = 0x07 ∨ x = 0x08 ∨ x = 0x09 ∨ 0x0A < x) →
        Memory.read t.env.expander x = Memory.read s.env.expander x
    | .reserved7 _ => t.env.expander = s.env.expander
    | _ => TickFrame s.cfg s.env.expander t.env.expander) ∧
  (∀ (s t : State) (timeout : Millis), s.waiting = some timeout → s.resetIn = none →
    step s = .next t → TickFrame s.cfg s.env.expander t.env.expander)

/-- R216, R246: how often each command, and each later iteration of a blocking read, reads the clock. -/
def Obligations.ClockReadsOfEachCommand : Prop :=
  (∀ (s t : State) (i : Instr) (events : List Event), exec i s = .next t →
    t.trace = s.trace ++ events →
    match i with
    | .begin _ | .tick _ | .count _ | .peek _ | .pop _ | .flush _ =>
      events.countP Event.isClock = 1
    | .popBlocking timeout =>
      events.countP Event.isClock =
        if timeout ≠ 0 ∧ (t.waiting ≠ none ∨ .response ⟨.timedOut, 0⟩ ∈ events) then 3 else 2
    | .reserved7 _ | .readRegister _ _ | .writeRegister _ _ => events.countP Event.isClock = 0) ∧
  (∀ (s t : State) (timeout : Millis) (events : List Event), s.waiting = some timeout →
    s.resetIn = none → step s = .next t → t.trace = s.trace ++ events →
    events.countP Event.isClock =
      if timeout ≠ 0 ∧ (t.waiting ≠ none ∨ .response ⟨.timedOut, 0⟩ ∈ events) then 2 else 1)

/-- R85, R178: each command but `POPBLOCKING` answers exactly once, at its end, and never yields;
`POPBLOCKING` yields once in an iteration and answers at its end exactly when it ends, in the step that
accepts it and in every later iteration. -/
def Obligations.OneAnswerForEachCommand : Prop :=
  (∀ (w : BitVec 35) (s t : State) (events : List Event),
    exec (decode (.command w)) s = .next t → t.trace = s.trace ++ events →
    (t.waiting = none ↔ ∃ r before, events = before ++ [.response r]) ∧
    events.countP Event.isResponse = (if t.waiting = none then 1 else 0) ∧
    (match decode (.command w) with
      | .popBlocking _ => events.countP Event.isYield = 1
      | _ => t.waiting = none ∧ events.countP Event.isYield = 0)) ∧
  (∀ (s t : State) (timeout : Millis) (events : List Event), s.waiting = some timeout →
    s.resetIn = none → step s = .next t → t.trace = s.trace ++ events →
    (t.waiting = none ↔ ∃ r before, events = before ++ [.response r]) ∧
    events.countP Event.isResponse = (if t.waiting = none then 1 else 0) ∧
    events.countP Event.isYield = 1)

/-- A tick that stores a new time does so at least the debounce interval after the time it replaces
(R141, R142, R247). -/
def Obligations.EffectiveTicksAreSpaced : Prop :=
  ∀ s : State, (tickResult s = none → tick s = readClock s) ∧
    (tickResult s ≠ none →
      (tick s).lastTick = s.env.sample ∧ s.cfg.debounceMs ≤ (tick s).lastTick - s.lastTick)

/-- R221: the host cannot reach the expander through the block. While no register transaction is placed
to be run alone (entry 13), which the host cannot do and no step does, whatever words the host offers
and whenever it resets, a step reaches the environment by the clock reads and the transactions of the
commands alone (R64). -/
def Obligations.HostCannotReachTheExpander : Prop :=
  ∀ s t : State, s.portWord = none → step s = .next t →
    t.portWord = none ∧ ∃ events, t.trace = s.trace ++ events ∧ t.env = s.env.replay events ∧
      ∀ e ∈ events, e.allowed s.cfg
end

