-- ==== Sys2Proof/Laws/Memory.lean ====
section
/-! SUPPORT. The laws of the expander's memory: reading after writing, and that every operation keeps
the canonical form. -/

namespace Sys2Proof.Machine

theorem memory_read_erase (m : Memory) (a b : Nat) :
    Memory.read (Memory.erase m a) b = if b = a then Memory.unlisted b else Memory.read m b := by
  induction m with
  | nil => simp [Memory.erase, Memory.read]
  | cons c m ih =>
    obtain ⟨d, v⟩ := c
    unfold Memory.erase at ih ⊢
    by_cases hd : d = a
    · subst hd
      by_cases hb : b = d <;> simp [hb, Memory.read] at ih ⊢ <;> simp [ih]
    · by_cases hb : b = d
      · subst hb
        simp [hd, Memory.read]
      · simp [hd, hb, Memory.read, ih]

theorem memory_read_insert (m : Memory) (a b : Nat) (v : Byte) :
    Memory.read (Memory.insert m a v) b = if b = a then v else Memory.read m b := by
  induction m with
  | nil => simp [Memory.insert, Memory.read]
  | cons c m ih =>
    obtain ⟨d, w⟩ := c
    simp only [Memory.insert]
    split
    · by_cases hb : b = a <;> simp [Memory.read, hb]
    · split
      · subst d
        by_cases hb : b = a <;> simp [Memory.read, hb]
      · by_cases hb : b = d
        · subst hb
          simp [Memory.read, Ne.symm ‹¬a = b›]
        · simp [Memory.read, hb, ih]

/-- Reading after a write: the value at the address written, the old content elsewhere. -/
theorem memory_read_write (m : Memory) (a b : Nat) (v : Byte) :
    Memory.read (Memory.write m a v) b = if b = a then v else Memory.read m b := by
  unfold Memory.write
  split
  · rw [memory_read_erase]
    split <;> simp_all
  · exact memory_read_insert m a b v

@[simp] theorem memory_read_write_same (m : Memory) (a : Nat) (v : Byte) :
    Memory.read (Memory.write m a v) a = v := by simp [memory_read_write]

theorem memory_read_write_other (m : Memory) {a b : Nat} (v : Byte) (h : b ≠ a) :
    Memory.read (Memory.write m a v) b = Memory.read m b := by simp [memory_read_write, h]

theorem memory_wf_iff (m : Memory) : Memory.wf m = true ↔
    m.Pairwise (fun c d => c.1 < d.1) ∧ ∀ c ∈ m, c.2 ≠ Memory.unlisted c.1 := by
  simp [Memory.wf]

theorem memory_mem_erase {m : Memory} {a : Nat} {c : Host.Cell} (h : c ∈ Memory.erase m a) :
    c ∈ m := (List.mem_filter.1 h).1

theorem memory_mem_insert {m : Memory} {a : Nat} {v : Byte} {c : Host.Cell}
    (h : c ∈ Memory.insert m a v) : c = (a, v) ∨ c ∈ m := by
  induction m with
  | nil => simpa [Memory.insert] using h
  | cons d m ih =>
    obtain ⟨b, w⟩ := d
    simp only [Memory.insert] at h
    split at h
    · simpa using h
    · split at h
      · rcases List.mem_cons.1 h with h | h <;> simp [h]
      · rcases List.mem_cons.1 h with h | h
        · simp [h]
        · rcases ih h with h | h <;> simp [h]

/-- Every cell of a written memory is the cell written or a cell that stood there. -/
theorem memory_mem_write {m : Memory} {a : Nat} {v : Byte} {c : Host.Cell}
    (h : c ∈ Memory.write m a v) : c = (a, v) ∨ c ∈ m := by
  unfold Memory.write at h
  split at h
  · exact .inr (memory_mem_erase h)
  · exact memory_mem_insert h

theorem memory_insert_pairwise {m : Memory} {a : Nat} {v : Byte}
    (h : m.Pairwise (fun c d => c.1 < d.1)) :
    (Memory.insert m a v).Pairwise (fun c d => c.1 < d.1) := by
  induction m with
  | nil => simp [Memory.insert]
  | cons d m ih =>
    obtain ⟨b, w⟩ := d
    obtain ⟨hb, hm⟩ := List.pairwise_cons.1 h
    simp only [Memory.insert]
    split
    · refine List.pairwise_cons.2 ⟨fun c hc => ?_, h⟩
      rcases List.mem_cons.1 hc with rfl | hc
      · assumption
      · exact lt_trans ‹a < b› (hb c hc)
    · split
      · subst b
        exact List.pairwise_cons.2 ⟨hb, hm⟩
      · refine List.pairwise_cons.2 ⟨fun c hc => ?_, ih hm⟩
        rcases memory_mem_insert hc with rfl | hc
        · show b < a
          omega
        · exact hb c hc

/-- Writing keeps the canonical form. -/
theorem memory_wf_write {m : Memory} (a : Nat) (v : Byte) (h : Memory.wf m = true) :
    Memory.wf (Memory.write m a v) = true := by
  rw [memory_wf_iff] at h ⊢
  obtain ⟨hp, hv⟩ := h
  unfold Memory.write
  split
  · exact ⟨List.Pairwise.sublist List.filter_sublist hp, fun c hc => hv c (memory_mem_erase hc)⟩
  · refine ⟨memory_insert_pairwise hp, fun c hc => ?_⟩
    rcases memory_mem_insert hc with rfl | hc
    · assumption
    · exact hv c hc

/-- Writing a register of the map keeps every cell in the map. -/
theorem memory_mapped_write {m : Memory} {a : Nat} (v : Byte) (ha : a ≤ 0x0A)
    (h : Memory.mapped m = true) : Memory.mapped (Memory.write m a v) = true := by
  simp only [Memory.mapped, List.all_eq_true, decide_eq_true_eq] at h ⊢
  intro c hc
  rcases memory_mem_write hc with rfl | hc
  · exact ha
  · exact h c hc

end Sys2Proof.Machine
end

