-- ==== Sys2Proof/Laws/State.lean ====
section
/-! SUPPORT. What each update of the state leaves in each field, one lemma per field per update. -/

namespace Sys2Proof.Machine

@[simp] theorem clockNow_eq (s : State) : clockNow s = s.env.sample := rfl

@[simp] theorem portByte_eq (a : Byte) (s : State) : portByte a s = s.env.answer s.cfg a := rfl

@[simp] theorem emit_cfg (e : Event) (s : State) : (emit e s).cfg = s.cfg := rfl
@[simp] theorem emit_state (e : Event) (s : State) : (emit e s).state = s.state := rfl
@[simp] theorem emit_cand (e : Event) (s : State) : (emit e s).cand = s.cand := rfl
@[simp] theorem emit_lastTick (e : Event) (s : State) : (emit e s).lastTick = s.lastTick := rfl
@[simp] theorem emit_buf (e : Event) (s : State) : (emit e s).buf = s.buf := rfl
@[simp] theorem emit_head (e : Event) (s : State) : (emit e s).head = s.head := rfl
@[simp] theorem emit_tail (e : Event) (s : State) : (emit e s).tail = s.tail := rfl
@[simp] theorem emit_waitStart (e : Event) (s : State) : (emit e s).waitStart = s.waitStart := rfl
@[simp] theorem emit_waiting (e : Event) (s : State) : (emit e s).waiting = s.waiting := rfl
@[simp] theorem emit_env (e : Event) (s : State) : (emit e s).env = s.env := rfl
@[simp] theorem emit_inbox (e : Event) (s : State) : (emit e s).inbox = s.inbox := rfl
@[simp] theorem emit_portWord (e : Event) (s : State) : (emit e s).portWord = s.portWord := rfl
@[simp] theorem emit_resetIn (e : Event) (s : State) : (emit e s).resetIn = s.resetIn := rfl
@[simp] theorem emit_trace (e : Event) (s : State) : (emit e s).trace = s.trace ++ [e] := rfl

@[simp] theorem readClock_cfg (s : State) : (readClock s).cfg = s.cfg := rfl
@[simp] theorem readClock_state (s : State) : (readClock s).state = s.state := rfl
@[simp] theorem readClock_cand (s : State) : (readClock s).cand = s.cand := rfl
@[simp] theorem readClock_lastTick (s : State) : (readClock s).lastTick = s.lastTick := rfl
@[simp] theorem readClock_buf (s : State) : (readClock s).buf = s.buf := rfl
@[simp] theorem readClock_head (s : State) : (readClock s).head = s.head := rfl
@[simp] theorem readClock_tail (s : State) : (readClock s).tail = s.tail := rfl
@[simp] theorem readClock_waitStart (s : State) : (readClock s).waitStart = s.waitStart := rfl
@[simp] theorem readClock_waiting (s : State) : (readClock s).waiting = s.waiting := rfl
@[simp] theorem readClock_env (s : State) : (readClock s).env = s.env.afterSample := rfl
@[simp] theorem readClock_inbox (s : State) : (readClock s).inbox = s.inbox := rfl
@[simp] theorem readClock_portWord (s : State) : (readClock s).portWord = s.portWord := rfl
@[simp] theorem readClock_resetIn (s : State) : (readClock s).resetIn = s.resetIn := rfl
@[simp] theorem readClock_trace (s : State) : (readClock s).trace = s.trace ++ [.clock s.env.sample] := rfl

@[simp] theorem portRead_cfg (a : Byte) (s : State) : (portRead a s).cfg = s.cfg := rfl
@[simp] theorem portRead_state (a : Byte) (s : State) : (portRead a s).state = s.state := rfl
@[simp] theorem portRead_cand (a : Byte) (s : State) : (portRead a s).cand = s.cand := rfl
@[simp] theorem portRead_lastTick (a : Byte) (s : State) : (portRead a s).lastTick = s.lastTick := rfl
@[simp] theorem portRead_buf (a : Byte) (s : State) : (portRead a s).buf = s.buf := rfl
@[simp] theorem portRead_head (a : Byte) (s : State) : (portRead a s).head = s.head := rfl
@[simp] theorem portRead_tail (a : Byte) (s : State) : (portRead a s).tail = s.tail := rfl
@[simp] theorem portRead_waitStart (a : Byte) (s : State) : (portRead a s).waitStart = s.waitStart := rfl
@[simp] theorem portRead_waiting (a : Byte) (s : State) : (portRead a s).waiting = s.waiting := rfl
@[simp] theorem portRead_env (a : Byte) (s : State) : (portRead a s).env = s.env.afterRead a := rfl
@[simp] theorem portRead_inbox (a : Byte) (s : State) : (portRead a s).inbox = s.inbox := rfl
@[simp] theorem portRead_portWord (a : Byte) (s : State) : (portRead a s).portWord = s.portWord := rfl
@[simp] theorem portRead_resetIn (a : Byte) (s : State) : (portRead a s).resetIn = s.resetIn := rfl
@[simp] theorem portRead_trace (a : Byte) (s : State) : (portRead a s).trace = s.trace ++ [.read a (s.env.answer s.cfg a)] := rfl

@[simp] theorem portWrite_cfg (a v : Byte) (s : State) : (portWrite a v s).cfg = s.cfg := rfl
@[simp] theorem portWrite_state (a v : Byte) (s : State) : (portWrite a v s).state = s.state := rfl
@[simp] theorem portWrite_cand (a v : Byte) (s : State) : (portWrite a v s).cand = s.cand := rfl
@[simp] theorem portWrite_lastTick (a v : Byte) (s : State) : (portWrite a v s).lastTick = s.lastTick := rfl
@[simp] theorem portWrite_buf (a v : Byte) (s : State) : (portWrite a v s).buf = s.buf := rfl
@[simp] theorem portWrite_head (a v : Byte) (s : State) : (portWrite a v s).head = s.head := rfl
@[simp] theorem portWrite_tail (a v : Byte) (s : State) : (portWrite a v s).tail = s.tail := rfl
@[simp] theorem portWrite_waitStart (a v : Byte) (s : State) : (portWrite a v s).waitStart = s.waitStart := rfl
@[simp] theorem portWrite_waiting (a v : Byte) (s : State) : (portWrite a v s).waiting = s.waiting := rfl
@[simp] theorem portWrite_env (a v : Byte) (s : State) : (portWrite a v s).env = s.env.afterWrite a v := rfl
@[simp] theorem portWrite_inbox (a v : Byte) (s : State) : (portWrite a v s).inbox = s.inbox := rfl
@[simp] theorem portWrite_portWord (a v : Byte) (s : State) : (portWrite a v s).portWord = s.portWord := rfl
@[simp] theorem portWrite_resetIn (a v : Byte) (s : State) : (portWrite a v s).resetIn = s.resetIn := rfl
@[simp] theorem portWrite_trace (a v : Byte) (s : State) : (portWrite a v s).trace = s.trace ++ [.write a v] := rfl

@[simp] theorem settle_cfg (s : State) : (settle s).cfg = s.cfg := rfl
@[simp] theorem settle_state (s : State) : (settle s).state = s.state := rfl
@[simp] theorem settle_cand (s : State) : (settle s).cand = s.cand := rfl
@[simp] theorem settle_lastTick (s : State) : (settle s).lastTick = s.lastTick := rfl
@[simp] theorem settle_buf (s : State) : (settle s).buf = s.buf := rfl
@[simp] theorem settle_head (s : State) : (settle s).head = s.head := rfl
@[simp] theorem settle_tail (s : State) : (settle s).tail = s.tail := rfl
@[simp] theorem settle_waitStart (s : State) : (settle s).waitStart = s.waitStart := rfl
@[simp] theorem settle_waiting (s : State) : (settle s).waiting = s.waiting := rfl
@[simp] theorem settle_env (s : State) : (settle s).env = s.env := rfl
@[simp] theorem settle_inbox (s : State) : (settle s).inbox = s.inbox := rfl
@[simp] theorem settle_portWord (s : State) : (settle s).portWord = s.portWord := rfl
@[simp] theorem settle_resetIn (s : State) : (settle s).resetIn = s.resetIn := rfl
@[simp] theorem settle_trace (s : State) : (settle s).trace = s.trace ++ [.settle] := rfl

@[simp] theorem yieldNow_cfg (s : State) : (yieldNow s).cfg = s.cfg := rfl
@[simp] theorem yieldNow_state (s : State) : (yieldNow s).state = s.state := rfl
@[simp] theorem yieldNow_cand (s : State) : (yieldNow s).cand = s.cand := rfl
@[simp] theorem yieldNow_lastTick (s : State) : (yieldNow s).lastTick = s.lastTick := rfl
@[simp] theorem yieldNow_buf (s : State) : (yieldNow s).buf = s.buf := rfl
@[simp] theorem yieldNow_head (s : State) : (yieldNow s).head = s.head := rfl
@[simp] theorem yieldNow_tail (s : State) : (yieldNow s).tail = s.tail := rfl
@[simp] theorem yieldNow_waitStart (s : State) : (yieldNow s).waitStart = s.waitStart := rfl
@[simp] theorem yieldNow_waiting (s : State) : (yieldNow s).waiting = s.waiting := rfl
@[simp] theorem yieldNow_env (s : State) : (yieldNow s).env = s.env := rfl
@[simp] theorem yieldNow_inbox (s : State) : (yieldNow s).inbox = s.inbox := rfl
@[simp] theorem yieldNow_portWord (s : State) : (yieldNow s).portWord = s.portWord := rfl
@[simp] theorem yieldNow_resetIn (s : State) : (yieldNow s).resetIn = s.resetIn := rfl
@[simp] theorem yieldNow_trace (s : State) : (yieldNow s).trace = s.trace ++ [.yield] := rfl

@[simp] theorem respond_cfg (st : Status) (d : BitVec 32) (s : State) : (respond st d s).cfg = s.cfg := rfl
@[simp] theorem respond_state (st : Status) (d : BitVec 32) (s : State) : (respond st d s).state = s.state := rfl
@[simp] theorem respond_cand (st : Status) (d : BitVec 32) (s : State) : (respond st d s).cand = s.cand := rfl
@[simp] theorem respond_lastTick (st : Status) (d : BitVec 32) (s : State) : (respond st d s).lastTick = s.lastTick := rfl
@[simp] theorem respond_buf (st : Status) (d : BitVec 32) (s : State) : (respond st d s).buf = s.buf := rfl
@[simp] theorem respond_head (st : Status) (d : BitVec 32) (s : State) : (respond st d s).head = s.head := rfl
@[simp] theorem respond_tail (st : Status) (d : BitVec 32) (s : State) : (respond st d s).tail = s.tail := rfl
@[simp] theorem respond_waitStart (st : Status) (d : BitVec 32) (s : State) : (respond st d s).waitStart = s.waitStart := rfl
@[simp] theorem respond_waiting (st : Status) (d : BitVec 32) (s : State) : (respond st d s).waiting = none := rfl
@[simp] theorem respond_env (st : Status) (d : BitVec 32) (s : State) : (respond st d s).env = s.env := rfl
@[simp] theorem respond_inbox (st : Status) (d : BitVec 32) (s : State) : (respond st d s).inbox = s.inbox := rfl
@[simp] theorem respond_portWord (st : Status) (d : BitVec 32) (s : State) : (respond st d s).portWord = s.portWord := rfl
@[simp] theorem respond_resetIn (st : Status) (d : BitVec 32) (s : State) : (respond st d s).resetIn = s.resetIn := rfl
@[simp] theorem respond_trace (st : Status) (d : BitVec 32) (s : State) : (respond st d s).trace = s.trace ++ [.response ⟨st, d⟩] := rfl

@[simp] theorem push_cfg (x : Symbol) (s : State) : (push x s).cfg = s.cfg := rfl
@[simp] theorem push_state (x : Symbol) (s : State) : (push x s).state = s.state := rfl
@[simp] theorem push_cand (x : Symbol) (s : State) : (push x s).cand = s.cand := rfl
@[simp] theorem push_lastTick (x : Symbol) (s : State) : (push x s).lastTick = s.lastTick := rfl
@[simp] theorem push_buf (x : Symbol) (s : State) : (push x s).buf = s.buf.set s.head x := rfl
@[simp] theorem push_head (x : Symbol) (s : State) : (push x s).head = nextIndex s.cfg s.head := rfl
@[simp] theorem push_tail (x : Symbol) (s : State) : (push x s).tail = if nextIndex s.cfg s.head = s.tail then nextIndex s.cfg s.tail else s.tail := rfl
@[simp] theorem push_waitStart (x : Symbol) (s : State) : (push x s).waitStart = s.waitStart := rfl
@[simp] theorem push_waiting (x : Symbol) (s : State) : (push x s).waiting = s.waiting := rfl
@[simp] theorem push_env (x : Symbol) (s : State) : (push x s).env = s.env := rfl
@[simp] theorem push_inbox (x : Symbol) (s : State) : (push x s).inbox = s.inbox := rfl
@[simp] theorem push_portWord (x : Symbol) (s : State) : (push x s).portWord = s.portWord := rfl
@[simp] theorem push_resetIn (x : Symbol) (s : State) : (push x s).resetIn = s.resetIn := rfl
@[simp] theorem push_trace (x : Symbol) (s : State) : (push x s).trace = s.trace := rfl

@[simp] theorem dropOldest_cfg (s : State) : (dropOldest s).cfg = s.cfg := rfl
@[simp] theorem dropOldest_state (s : State) : (dropOldest s).state = s.state := rfl
@[simp] theorem dropOldest_cand (s : State) : (dropOldest s).cand = s.cand := rfl
@[simp] theorem dropOldest_lastTick (s : State) : (dropOldest s).lastTick = s.lastTick := rfl
@[simp] theorem dropOldest_buf (s : State) : (dropOldest s).buf = s.buf := rfl
@[simp] theorem dropOldest_head (s : State) : (dropOldest s).head = s.head := rfl
@[simp] theorem dropOldest_tail (s : State) : (dropOldest s).tail = nextIndex s.cfg s.tail := rfl
@[simp] theorem dropOldest_waitStart (s : State) : (dropOldest s).waitStart = s.waitStart := rfl
@[simp] theorem dropOldest_waiting (s : State) : (dropOldest s).waiting = s.waiting := rfl
@[simp] theorem dropOldest_env (s : State) : (dropOldest s).env = s.env := rfl
@[simp] theorem dropOldest_inbox (s : State) : (dropOldest s).inbox = s.inbox := rfl
@[simp] theorem dropOldest_portWord (s : State) : (dropOldest s).portWord = s.portWord := rfl
@[simp] theorem dropOldest_resetIn (s : State) : (dropOldest s).resetIn = s.resetIn := rfl
@[simp] theorem dropOldest_trace (s : State) : (dropOldest s).trace = s.trace := rfl

@[simp] theorem enterWait_cfg (m : Millis) (s : State) : (enterWait m s).cfg = s.cfg := rfl
@[simp] theorem enterWait_state (m : Millis) (s : State) : (enterWait m s).state = s.state := rfl
@[simp] theorem enterWait_cand (m : Millis) (s : State) : (enterWait m s).cand = s.cand := rfl
@[simp] theorem enterWait_lastTick (m : Millis) (s : State) : (enterWait m s).lastTick = s.lastTick := rfl
@[simp] theorem enterWait_buf (m : Millis) (s : State) : (enterWait m s).buf = s.buf := rfl
@[simp] theorem enterWait_head (m : Millis) (s : State) : (enterWait m s).head = s.head := rfl
@[simp] theorem enterWait_tail (m : Millis) (s : State) : (enterWait m s).tail = s.tail := rfl
@[simp] theorem enterWait_waitStart (m : Millis) (s : State) : (enterWait m s).waitStart = s.env.sample := rfl
@[simp] theorem enterWait_waiting (m : Millis) (s : State) : (enterWait m s).waiting = some m := rfl
@[simp] theorem enterWait_env (m : Millis) (s : State) : (enterWait m s).env = s.env.afterSample := rfl
@[simp] theorem enterWait_inbox (m : Millis) (s : State) : (enterWait m s).inbox = s.inbox := rfl
@[simp] theorem enterWait_portWord (m : Millis) (s : State) : (enterWait m s).portWord = s.portWord := rfl
@[simp] theorem enterWait_resetIn (m : Millis) (s : State) : (enterWait m s).resetIn = s.resetIn := rfl
@[simp] theorem enterWait_trace (m : Millis) (s : State) : (enterWait m s).trace = s.trace ++ [.clock s.env.sample] := rfl

@[simp] theorem captureStart_cfg (s : State) : (captureStart s).cfg = s.cfg := rfl
@[simp] theorem captureStart_state (s : State) : (captureStart s).state = .awaitingPress := rfl
@[simp] theorem captureStart_cand (s : State) : (captureStart s).cand = s.cand := rfl
@[simp] theorem captureStart_lastTick (s : State) : (captureStart s).lastTick = s.env.sample := rfl
@[simp] theorem captureStart_buf (s : State) : (captureStart s).buf = s.buf := rfl
@[simp] theorem captureStart_head (s : State) : (captureStart s).head = s.head := rfl
@[simp] theorem captureStart_tail (s : State) : (captureStart s).tail = s.tail := rfl
@[simp] theorem captureStart_waitStart (s : State) : (captureStart s).waitStart = s.waitStart := rfl
@[simp] theorem captureStart_waiting (s : State) : (captureStart s).waiting = s.waiting := rfl
@[simp] theorem captureStart_env (s : State) : (captureStart s).env = s.env.afterSample := rfl
@[simp] theorem captureStart_inbox (s : State) : (captureStart s).inbox = s.inbox := rfl
@[simp] theorem captureStart_portWord (s : State) : (captureStart s).portWord = s.portWord := rfl
@[simp] theorem captureStart_resetIn (s : State) : (captureStart s).resetIn = s.resetIn := rfl
@[simp] theorem captureStart_trace (s : State) : (captureStart s).trace = s.trace ++ [.clock s.env.sample] := rfl

@[simp] theorem takeCommand_cfg (w : BitVec 35) (rest : List (BitVec 35)) (s : State) : (takeCommand w rest s).cfg = s.cfg := rfl
@[simp] theorem takeCommand_state (w : BitVec 35) (rest : List (BitVec 35)) (s : State) : (takeCommand w rest s).state = s.state := rfl
@[simp] theorem takeCommand_cand (w : BitVec 35) (rest : List (BitVec 35)) (s : State) : (takeCommand w rest s).cand = s.cand := rfl
@[simp] theorem takeCommand_lastTick (w : BitVec 35) (rest : List (BitVec 35)) (s : State) : (takeCommand w rest s).lastTick = s.lastTick := rfl
@[simp] theorem takeCommand_buf (w : BitVec 35) (rest : List (BitVec 35)) (s : State) : (takeCommand w rest s).buf = s.buf := rfl
@[simp] theorem takeCommand_head (w : BitVec 35) (rest : List (BitVec 35)) (s : State) : (takeCommand w rest s).head = s.head := rfl
@[simp] theorem takeCommand_tail (w : BitVec 35) (rest : List (BitVec 35)) (s : State) : (takeCommand w rest s).tail = s.tail := rfl
@[simp] theorem takeCommand_waitStart (w : BitVec 35) (rest : List (BitVec 35)) (s : State) : (takeCommand w rest s).waitStart = s.waitStart := rfl
@[simp] theorem takeCommand_waiting (w : BitVec 35) (rest : List (BitVec 35)) (s : State) : (takeCommand w rest s).waiting = s.waiting := rfl
@[simp] theorem takeCommand_env (w : BitVec 35) (rest : List (BitVec 35)) (s : State) : (takeCommand w rest s).env = s.env := rfl
@[simp] theorem takeCommand_inbox (w : BitVec 35) (rest : List (BitVec 35)) (s : State) : (takeCommand w rest s).inbox = rest := rfl
@[simp] theorem takeCommand_portWord (w : BitVec 35) (rest : List (BitVec 35)) (s : State) : (takeCommand w rest s).portWord = s.portWord := rfl
@[simp] theorem takeCommand_resetIn (w : BitVec 35) (rest : List (BitVec 35)) (s : State) : (takeCommand w rest s).resetIn = s.resetIn := rfl
@[simp] theorem takeCommand_trace (w : BitVec 35) (rest : List (BitVec 35)) (s : State) : (takeCommand w rest s).trace = s.trace ++ [.accepted w] := rfl

@[simp] theorem takeTransaction_cfg (s : State) : (takeTransaction s).cfg = s.cfg := rfl
@[simp] theorem takeTransaction_state (s : State) : (takeTransaction s).state = s.state := rfl
@[simp] theorem takeTransaction_cand (s : State) : (takeTransaction s).cand = s.cand := rfl
@[simp] theorem takeTransaction_lastTick (s : State) : (takeTransaction s).lastTick = s.lastTick := rfl
@[simp] theorem takeTransaction_buf (s : State) : (takeTransaction s).buf = s.buf := rfl
@[simp] theorem takeTransaction_head (s : State) : (takeTransaction s).head = s.head := rfl
@[simp] theorem takeTransaction_tail (s : State) : (takeTransaction s).tail = s.tail := rfl
@[simp] theorem takeTransaction_waitStart (s : State) : (takeTransaction s).waitStart = s.waitStart := rfl
@[simp] theorem takeTransaction_waiting (s : State) : (takeTransaction s).waiting = s.waiting := rfl
@[simp] theorem takeTransaction_env (s : State) : (takeTransaction s).env = s.env := rfl
@[simp] theorem takeTransaction_inbox (s : State) : (takeTransaction s).inbox = s.inbox := rfl
@[simp] theorem takeTransaction_portWord (s : State) : (takeTransaction s).portWord = none := rfl
@[simp] theorem takeTransaction_resetIn (s : State) : (takeTransaction s).resetIn = s.resetIn := rfl
@[simp] theorem takeTransaction_trace (s : State) : (takeTransaction s).trace = s.trace := rfl

@[simp] theorem resetBlock_cfg (s : State) : (resetBlock s).cfg = s.cfg := rfl
@[simp] theorem resetBlock_state (s : State) : (resetBlock s).state = .awaitingPress := rfl
@[simp] theorem resetBlock_cand (s : State) : (resetBlock s).cand = 0 := rfl
@[simp] theorem resetBlock_lastTick (s : State) : (resetBlock s).lastTick = 0 := rfl
@[simp] theorem resetBlock_buf (s : State) : (resetBlock s).buf = List.replicate s.cfg.capacity 0 := rfl
@[simp] theorem resetBlock_head (s : State) : (resetBlock s).head = 0 := rfl
@[simp] theorem resetBlock_tail (s : State) : (resetBlock s).tail = 0 := rfl
@[simp] theorem resetBlock_waitStart (s : State) : (resetBlock s).waitStart = 0 := rfl
@[simp] theorem resetBlock_waiting (s : State) : (resetBlock s).waiting = none := rfl
@[simp] theorem resetBlock_env (s : State) : (resetBlock s).env = s.env := rfl
@[simp] theorem resetBlock_inbox (s : State) : (resetBlock s).inbox = s.inbox := rfl
@[simp] theorem resetBlock_portWord (s : State) : (resetBlock s).portWord = s.portWord := rfl
@[simp] theorem resetBlock_resetIn (s : State) : (resetBlock s).resetIn = none := rfl
@[simp] theorem resetBlock_trace (s : State) : (resetBlock s).trace = s.trace := rfl

end Sys2Proof.Machine
end

