-- ==== Sys2Proof/Laws/Ops.lean ====
section
/-! SUPPORT. What the shared operations can do: each goes on from a state by events that the
environment follows (`Follows`), and the conditions under which the memory keeps its form. -/

namespace Sys2Proof.Machine

/-- `t` goes on from `s` by events that all meet `P`, and its environment is as they leave it. -/
def Follows (P : Event → Prop) (s t : State) : Prop :=
  ∃ events, t.trace = s.trace ++ events ∧ t.env = s.env.replay events ∧ ∀ e ∈ events, P e

theorem replay_append (e : Env) (xs ys : List Event) :
    e.replay (xs ++ ys) = (e.replay xs).replay ys := by simp [Env.replay]

@[simp] theorem replay_nil (e : Env) : e.replay [] = e := rfl

@[simp] theorem replay_cons (e : Env) (x : Event) (xs : List Event) :
    e.replay (x :: xs) = (e.afterEvent x).replay xs := rfl

theorem follows_refl (P : Event → Prop) (s : State) : Follows P s s := ⟨[], by simp⟩

theorem follows_trans {P : Event → Prop} {s t u : State} (h : Follows P s t) (k : Follows P t u) :
    Follows P s u := by
  obtain ⟨xs, h1, h2, h3⟩ := h
  obtain ⟨ys, k1, k2, k3⟩ := k
  refine ⟨xs ++ ys, by simp [k1, h1], by simp [k2, h2, replay_append], fun e he => ?_⟩
  rcases List.mem_append.1 he with he | he
  · exact h3 e he
  · exact k3 e he

theorem follows_mono {P Q : Event → Prop} {s t : State} (h : Follows P s t) (k : ∀ e, P e → Q e) :
    Follows Q s t := by
  obtain ⟨xs, h1, h2, h3⟩ := h
  exact ⟨xs, h1, h2, fun e he => k e (h3 e he)⟩

/-- Only the environment and the history matter to `Follows`. -/
theorem follows_congr {P : Event → Prop} {s s' t t' : State} (h : Follows P s t)
    (hs : s'.trace = s.trace) (hs' : s'.env = s.env) (ht : t'.trace = t.trace)
    (ht' : t'.env = t.env) : Follows P s' t' := by
  obtain ⟨xs, h1, h2, h3⟩ := h
  exact ⟨xs, by rw [ht, hs, h1], by rw [ht', hs', h2], h3⟩

theorem follows_one {P : Event → Prop} {s t : State} (e : Event) (he : P e)
    (h : t.trace = s.trace ++ [e]) (k : t.env = s.env.afterEvent e) : Follows P s t :=
  ⟨[e], h, by simp [k], by simpa using he⟩

theorem follows_readClock {P : Event → Prop} (s : State) (h : ∀ t, P (.clock t)) :
    Follows P s (readClock s) := follows_one _ (h s.env.sample) rfl rfl

theorem follows_portRead {P : Event → Prop} (a : Byte) (s : State) (h : ∀ v, P (.read a v)) :
    Follows P s (portRead a s) := follows_one _ (h _) rfl rfl

theorem follows_portWrite {P : Event → Prop} (a v : Byte) (s : State) (h : P (.write a v)) :
    Follows P s (portWrite a v s) := follows_one _ h rfl rfl

theorem follows_settle {P : Event → Prop} (s : State) (h : P .settle) : Follows P s (settle s) :=
  follows_one _ h rfl rfl

theorem follows_yieldNow {P : Event → Prop} (s : State) (h : P .yield) :
    Follows P s (yieldNow s) := follows_one _ h rfl rfl

theorem follows_respond {P : Event → Prop} (st : Status) (d : BitVec 32) (s : State)
    (h : P (.response ⟨st, d⟩)) : Follows P s (respond st d s) := follows_one _ h rfl rfl

/-- What a sound expander memory is, apart from the block (`Sound`). -/
structure SoundMemory (m : Memory) : Prop where
  wf : Memory.wf m = true
  mapped : Memory.mapped m = true
  gpio : ∀ c ∈ m, c.1 ≠ 0x09
  iocon : Memory.read m 0x05 &&& 0xC1 = 0

theorem soundMemory_write {m : Memory} (h : SoundMemory m) (a : Nat) (v : Byte) (ha : a ≤ 0x0A)
    (h9 : a ≠ 0x09) (h5 : a = 0x05 → v &&& 0xC1 = 0) : SoundMemory (Memory.write m a v) where
  wf := memory_wf_write a v h.wf
  mapped := memory_mapped_write v ha h.mapped
  gpio := fun c hc => by
    rcases memory_mem_write hc with rfl | hc
    · exact h9
    · exact h.gpio c hc
  iocon := by
    rw [memory_read_write]
    split
    · exact h5 (Eq.symm ‹_›)
    · exact h.iocon

theorem soundMemory_storeRegister {m : Memory} (h : SoundMemory m) (a v : Byte) :
    SoundMemory (storeRegister a v m) := by
  unfold storeRegister
  split
  · exact soundMemory_write h _ _ (by decide) (by decide) fun e => absurd e (by decide)
  · split
    · refine soundMemory_write h _ _ (by decide) (by decide) fun _ => ?_
      rw [BitVec.and_assoc]
      have : (0x3E#8 &&& 0xC1#8) = 0#8 := by decide
      simp [this]
    · split
      · rename_i h9 h5 hw
        simp only [writableAddress, mappedAddress, Bool.and_eq_true, decide_eq_true_eq] at hw
        refine soundMemory_write h _ _ hw.1.1 (fun e => h9 ?_) (fun e => absurd ?_ h5)
        · exact BitVec.eq_of_toNat_eq e
        · exact BitVec.eq_of_toNat_eq e
      · exact h

theorem soundMemory_clearPending {m : Memory} (h : SoundMemory m) (a : Byte) :
    SoundMemory (clearPending a m) := by
  unfold clearPending
  split
  · exact soundMemory_write h _ _ (by decide) (by decide) fun e => absurd e (by decide)
  · exact h

/-- Every event keeps a sound expander memory sound. -/
theorem soundMemory_afterEvent {e : Env} (h : SoundMemory e.expander) (x : Event) :
    SoundMemory (e.afterEvent x).expander := by
  cases x with
  | read a v =>
    show SoundMemory (match e.reads with
      | .healthy _ _ :: _ => clearPending a e.expander
      | _ => e.expander)
    split
    · exact soundMemory_clearPending h a
    · exact h
  | write a v =>
    show SoundMemory (if e.performs then storeRegister a v e.expander else e.expander)
    split
    · exact soundMemory_storeRegister h a v
    · exact h
  | _ => exact h

theorem soundMemory_replay (xs : List Event) {e : Env} (h : SoundMemory e.expander) :
    SoundMemory (e.replay xs).expander := by
  induction xs generalizing e with
  | nil => exact h
  | cons x xs ih => exact ih (soundMemory_afterEvent h x)

theorem time_le_afterEvent (e : Env) (x : Event) : e.time ≤ (e.afterEvent x).time := by
  cases x with
  | clock t => exact Nat.le_add_right _ _
  | _ => exact le_refl _

/-- True time never decreases (R215). -/
theorem time_le_replay (xs : List Event) (e : Env) : e.time ≤ (e.replay xs).time := by
  induction xs generalizing e with
  | nil => exact le_refl _
  | cons x xs ih => exact le_trans (time_le_afterEvent e x) (ih _)

end Sys2Proof.Machine
end

