-- ==== Sys2Proof/Laws/Scanner.lean ====
section
/-! SUPPORT. What a scan can do. -/

namespace Sys2Proof.Machine

/-- The events a scan can issue with configuration `k`. -/
def ScanEvent (k : Keypad) (e : Event) : Prop :=
  e = .settle ∨ (∃ v, e = .read 0x09 v) ∨ e = .write 0x00 (inputMask k) ∨
    ∃ l ∈ k.colLine, e = .write 0x00 (columnDrive l)

/-- A property that each port access of a sweep keeps, the whole sweep keeps. -/
theorem sweep_keeps {P : State → Prop} (hw : ∀ v s, P s → P (portWrite 0x00 v s))
    (hs : ∀ s, P s → P (settle s)) (hr : ∀ s, P s → P (portRead 0x09 s)) (ls : List Nat) :
    ∀ (c : Nat) (f : Option Symbol) (s : State), P s → P (sweep ls c f s).2 := by
  induction ls with
  | nil => exact fun c f s h => hw _ s h
  | cons l ls ih =>
    intro c f s h
    have h1 : P (portRead 0x09 (driveColumn l s)) := hr _ (hs _ (hw _ _ h))
    simp only [sweep]
    split
    · exact hw _ _ h1
    · exact ih _ _ _ h1

/-- A scan leaves every field but the environment and the history (R120). -/
theorem sweep_frame (ls : List Nat) : ∀ (c : Nat) (f : Option Symbol) (s : State),
    (sweep ls c f s).2 = { s with env := (sweep ls c f s).2.env, trace := (sweep ls c f s).2.trace } :=
  fun c f s => sweep_keeps (P := fun t => t = { s with env := t.env, trace := t.trace })
    (fun v t h => by rw [h]; rfl) (fun t h => by rw [h]; rfl) (fun t h => by rw [h]; rfl) ls c f s rfl

theorem scanOnce_frame (s : State) :
    (scanOnce s).2 = { s with env := (scanOnce s).2.env, trace := (scanOnce s).2.trace } := by
  simp only [scanOnce]
  split
  · rfl
  · exact sweep_frame _ _ _ (portRead 0x09 s)

@[simp] theorem scanOnce_cfg (s : State) : (scanOnce s).2.cfg = s.cfg := by rw [scanOnce_frame]
@[simp] theorem scanOnce_state (s : State) : (scanOnce s).2.state = s.state := by rw [scanOnce_frame]
@[simp] theorem scanOnce_cand (s : State) : (scanOnce s).2.cand = s.cand := by rw [scanOnce_frame]
@[simp] theorem scanOnce_lastTick (s : State) : (scanOnce s).2.lastTick = s.lastTick := by
  rw [scanOnce_frame]
@[simp] theorem scanOnce_buf (s : State) : (scanOnce s).2.buf = s.buf := by rw [scanOnce_frame]
@[simp] theorem scanOnce_head (s : State) : (scanOnce s).2.head = s.head := by rw [scanOnce_frame]
@[simp] theorem scanOnce_tail (s : State) : (scanOnce s).2.tail = s.tail := by rw [scanOnce_frame]
@[simp] theorem scanOnce_waitStart (s : State) : (scanOnce s).2.waitStart = s.waitStart := by
  rw [scanOnce_frame]
@[simp] theorem scanOnce_waiting (s : State) : (scanOnce s).2.waiting = s.waiting := by
  rw [scanOnce_frame]
@[simp] theorem scanOnce_inbox (s : State) : (scanOnce s).2.inbox = s.inbox := by rw [scanOnce_frame]
@[simp] theorem scanOnce_portWord (s : State) : (scanOnce s).2.portWord = s.portWord := by
  rw [scanOnce_frame]
@[simp] theorem scanOnce_resetIn (s : State) : (scanOnce s).2.resetIn = s.resetIn := by
  rw [scanOnce_frame]

theorem follows_driveColumn {k : Keypad} {l : Nat} (hl : l ∈ k.colLine) (s : State) :
    Follows (ScanEvent k) s (driveColumn l s) :=
  follows_trans (follows_portWrite _ _ _ (.inr (.inr (.inr ⟨l, hl, rfl⟩))))
    (follows_settle _ (.inl rfl))

theorem follows_sweep (k : Keypad) (ls : List Nat) :
    ∀ (c : Nat) (f : Option Symbol) (s : State), s.cfg = k → (∀ l ∈ ls, l ∈ k.colLine) →
      Follows (ScanEvent k) s (sweep ls c f s).2 := by
  have restore : ∀ s : State, s.cfg = k → Follows (ScanEvent k) s (restorePort s) := fun s h =>
    follows_portWrite _ _ _ (.inr (.inr (.inl (by rw [h]))))
  induction ls with
  | nil => exact fun c f s h _ => restore s h
  | cons l ls ih =>
    intro c f s h hl
    have h1 : Follows (ScanEvent k) s (portRead 0x09 (driveColumn l s)) :=
      follows_trans (follows_driveColumn (hl l List.mem_cons_self) s)
        (follows_portRead _ _ fun v => .inr (.inl ⟨v, rfl⟩))
    simp only [sweep]
    split
    · exact follows_trans h1 (restore _ h)
    · exact follows_trans h1 (ih _ _ _ h fun l' hl' => hl l' (List.mem_cons_of_mem _ hl'))

/-- A scan goes on by its own events (R129). -/
theorem follows_scanOnce (s : State) : Follows (ScanEvent s.cfg) s (scanOnce s).2 := by
  have h : Follows (ScanEvent s.cfg) s (portRead 0x09 s) :=
    follows_portRead _ _ fun v => .inr (.inl ⟨v, rfl⟩)
  simp only [scanOnce]
  split
  · exact h
  · exact follows_trans h (follows_sweep s.cfg _ _ _ _ rfl fun _ h => h)

end Sys2Proof.Machine
end

