-- ==== Sys2Proof/Laws/Debounce.lean ====
section
/-! SUPPORT. What a tick can do. -/

namespace Sys2Proof.Machine

/-- The scan of an effective tick at state `s`: its result and the state after it. -/
def tickScan (s : State) : KeyResult × State :=
  scanOnce { readClock s with lastTick := s.env.sample }

/-- All a tick can do: read the clock and stop at the gate, or scan and apply the table (R148). -/
theorem tick_cases (s : State) :
    (sub32 s.env.sample s.lastTick < s.cfg.debounceMs ∧ tick s = readClock s) ∨
    (¬ sub32 s.env.sample s.lastTick < s.cfg.debounceMs ∧
      tick s = transition (tickScan s).1 (tickScan s).2) := by
  by_cases h : sub32 s.env.sample s.lastTick < s.cfg.debounceMs
  · exact .inl ⟨h, by simp [tick, gateClosed, h]⟩
  · exact .inr ⟨h, by simp [tick, gateClosed, h, effectiveTick, tickScan]⟩

theorem tickResult_of_open {s : State} (h : ¬ sub32 s.env.sample s.lastTick < s.cfg.debounceMs) :
    tickResult s = some (tickScan s).1 := by simp only [tickResult, h, if_false]; rfl

theorem tickResult_of_closed {s : State} (h : sub32 s.env.sample s.lastTick < s.cfg.debounceMs) :
    tickResult s = none := by simp only [tickResult, h, if_true]

/-- The state in which a tick's transition is applied differs from the tick's start only in
`lastTick`, the environment and the history. -/
theorem tickScan_frame (s : State) : (tickScan s).2 =
    { s with lastTick := s.env.sample, env := (tickScan s).2.env, trace := (tickScan s).2.trace } := by
  have h := scanOnce_frame { readClock s with lastTick := s.env.sample }
  exact h

@[simp] theorem tickScan_cfg (s : State) : (tickScan s).2.cfg = s.cfg := by rw [tickScan_frame]
@[simp] theorem tickScan_state (s : State) : (tickScan s).2.state = s.state := by rw [tickScan_frame]
@[simp] theorem tickScan_cand (s : State) : (tickScan s).2.cand = s.cand := by rw [tickScan_frame]
@[simp] theorem tickScan_lastTick (s : State) : (tickScan s).2.lastTick = s.env.sample := by
  rw [tickScan_frame]
@[simp] theorem tickScan_buf (s : State) : (tickScan s).2.buf = s.buf := by rw [tickScan_frame]
@[simp] theorem tickScan_head (s : State) : (tickScan s).2.head = s.head := by rw [tickScan_frame]
@[simp] theorem tickScan_tail (s : State) : (tickScan s).2.tail = s.tail := by rw [tickScan_frame]
@[simp] theorem tickScan_waitStart (s : State) : (tickScan s).2.waitStart = s.waitStart := by
  rw [tickScan_frame]
@[simp] theorem tickScan_waiting (s : State) : (tickScan s).2.waiting = s.waiting := by
  rw [tickScan_frame]
@[simp] theorem tickScan_inbox (s : State) : (tickScan s).2.inbox = s.inbox := by
  rw [tickScan_frame]
@[simp] theorem tickScan_portWord (s : State) : (tickScan s).2.portWord = s.portWord := by
  rw [tickScan_frame]
@[simp] theorem tickScan_resetIn (s : State) : (tickScan s).2.resetIn = s.resetIn := by
  rw [tickScan_frame]

/-- A transition changes the scanner state, the candidate and, by `push` of the candidate, the
buffer; nothing else (R147). -/
theorem transition_cases (k : KeyResult) (s : State) :
    (transition k s = { s with state := (transition k s).state, cand := (transition k s).cand }) ∨
    (s.state = .awaitingDebounce ∧ k = .key s.cand ∧
      transition k s = { push s.cand s with state := .awaitingRelease }) := by
  obtain ⟨cfg, st, cand, _, _, _, _, _, _, _, _, _, _⟩ := s
  cases st <;> cases k <;> try exact .inl rfl
  rename_i x
  by_cases hx : x = cand
  · subst hx
    exact .inr ⟨rfl, rfl, by simp [transition]⟩
  · exact .inl (by simp [transition, hx])

@[simp] theorem transition_cfg (k : KeyResult) (s : State) : (transition k s).cfg = s.cfg := by
  rcases transition_cases k s with h | ⟨-, -, h⟩ <;> exact (congrArg State.cfg h :)
@[simp] theorem transition_lastTick (k : KeyResult) (s : State) :
    (transition k s).lastTick = s.lastTick := by
  rcases transition_cases k s with h | ⟨-, -, h⟩ <;> exact (congrArg State.lastTick h :)
@[simp] theorem transition_waitStart (k : KeyResult) (s : State) :
    (transition k s).waitStart = s.waitStart := by
  rcases transition_cases k s with h | ⟨-, -, h⟩ <;> exact (congrArg State.waitStart h :)
@[simp] theorem transition_waiting (k : KeyResult) (s : State) :
    (transition k s).waiting = s.waiting := by
  rcases transition_cases k s with h | ⟨-, -, h⟩ <;> exact (congrArg State.waiting h :)
@[simp] theorem transition_env (k : KeyResult) (s : State) : (transition k s).env = s.env := by
  rcases transition_cases k s with h | ⟨-, -, h⟩ <;> exact (congrArg State.env h :)
@[simp] theorem transition_inbox (k : KeyResult) (s : State) : (transition k s).inbox = s.inbox := by
  rcases transition_cases k s with h | ⟨-, -, h⟩ <;> exact (congrArg State.inbox h :)
@[simp] theorem transition_portWord (k : KeyResult) (s : State) :
    (transition k s).portWord = s.portWord := by
  rcases transition_cases k s with h | ⟨-, -, h⟩ <;> exact (congrArg State.portWord h :)
@[simp] theorem transition_resetIn (k : KeyResult) (s : State) :
    (transition k s).resetIn = s.resetIn := by
  rcases transition_cases k s with h | ⟨-, -, h⟩ <;> exact (congrArg State.resetIn h :)
@[simp] theorem transition_trace (k : KeyResult) (s : State) : (transition k s).trace = s.trace := by
  rcases transition_cases k s with h | ⟨-, -, h⟩ <;> exact (congrArg State.trace h :)

/-- A tick's effect on the block: nothing, or the new time and scanner state and candidate, or a push
of the candidate on a confirmed press. -/
theorem tick_block_cases (s : State) :
    (tick s = { s with env := (tick s).env, trace := (tick s).trace }) ∨
    (tick s = { s with
      lastTick := s.env.sample, state := (tick s).state, cand := (tick s).cand,
      env := (tick s).env, trace := (tick s).trace }) ∨
    (s.state = .awaitingDebounce ∧ tickResult s = some (.key s.cand) ∧
      tick s = { push s.cand s with
        lastTick := s.env.sample, state := .awaitingRelease,
        env := (tick s).env, trace := (tick s).trace }) := by
  rcases tick_cases s with ⟨-, h⟩ | ⟨ho, h⟩
  · left; rw [h]; rfl
  · right
    rcases transition_cases (tickScan s).1 (tickScan s).2 with ht | ⟨hs, hk, ht⟩
    · left
      rw [h]
      refine ht.trans ?_
      simp
    · right
      refine ⟨by simpa using hs, by rw [tickResult_of_open ho, hk, tickScan_cand], ?_⟩
      rw [h]
      refine ht.trans ?_
      simp [push]

@[simp] theorem tick_cfg (s : State) : (tick s).cfg = s.cfg := by
  rcases tick_block_cases s with h | h | ⟨-, -, h⟩ <;> exact (congrArg State.cfg h :)
@[simp] theorem tick_waitStart (s : State) : (tick s).waitStart = s.waitStart := by
  rcases tick_block_cases s with h | h | ⟨-, -, h⟩ <;> exact (congrArg State.waitStart h :)
@[simp] theorem tick_waiting (s : State) : (tick s).waiting = s.waiting := by
  rcases tick_block_cases s with h | h | ⟨-, -, h⟩ <;> exact (congrArg State.waiting h :)
@[simp] theorem tick_inbox (s : State) : (tick s).inbox = s.inbox := by
  rcases tick_block_cases s with h | h | ⟨-, -, h⟩ <;> exact (congrArg State.inbox h :)
@[simp] theorem tick_portWord (s : State) : (tick s).portWord = s.portWord := by
  rcases tick_block_cases s with h | h | ⟨-, -, h⟩ <;> exact (congrArg State.portWord h :)
@[simp] theorem tick_resetIn (s : State) : (tick s).resetIn = s.resetIn := by
  rcases tick_block_cases s with h | h | ⟨-, -, h⟩ <;> exact (congrArg State.resetIn h :)

/-- A tick reads the clock once and then, if it is effective, goes on by the events of one scan. -/
theorem tick_trace (s : State) : ∃ events,
    (tick s).trace = s.trace ++ .clock s.env.sample :: events ∧
    (tick s).env = s.env.replay (.clock s.env.sample :: events) ∧
    ∀ e ∈ events, ScanEvent s.cfg e := by
  rcases tick_cases s with ⟨-, h⟩ | ⟨-, h⟩
  · exact ⟨[], by rw [h]; rfl, by rw [h]; rfl, by simp⟩
  · obtain ⟨xs, h1, h2, h3⟩ := follows_scanOnce { readClock s with lastTick := s.env.sample }
    refine ⟨xs, ?_, ?_, h3⟩
    · rw [h, transition_trace]
      exact h1.trans (by simp)
    · rw [h, transition_env]
      exact h2

theorem follows_tick {P : Event → Prop} (s : State) (hc : ∀ t, P (.clock t))
    (hs : ∀ e, ScanEvent s.cfg e → P e) : Follows P s (tick s) := by
  obtain ⟨xs, h1, h2, h3⟩ := tick_trace s
  refine ⟨_, h1, h2, fun e he => ?_⟩
  rcases List.mem_cons.1 he with rfl | he
  · exact hc _
  · exact hs e (h3 e he)

end Sys2Proof.Machine
end

