-- ==== Sys2Proof/Laws/Encoding.lean ====
section
/-! SUPPORT. The bits of the machine's words and masks. -/

namespace Sys2Proof

/-- The bits of a command word (R81). -/
theorem getLsbD_commandWord (op : BitVec 3) (arg : BitVec 32) (i : Nat) :
    BitVec.getLsbD (w := 35) (op ++ arg) i = if i < 32 then arg.getLsbD i else op.getLsbD (i - 32) := by
  refine (BitVec.getLsbD_append (x := op) (y := arg)).trans ?_
  simp

/-- The bits of a register transaction (R91). -/
theorem getLsbD_transactionWord (rw : BitVec 1) (a v : Byte) (i : Nat) :
    BitVec.getLsbD (w := 17) (rw ++ a ++ v) i =
      if i < 8 then v.getLsbD i else if i < 16 then a.getLsbD (i - 8) else rw.getLsbD (i - 16) := by
  refine (BitVec.getLsbD_append (x := rw ++ a) (y := v)).trans ?_
  rw [BitVec.getLsbD_append]
  by_cases h : i < 8
  · simp [h]
  · by_cases k : i < 16
    · have : i - 8 < 8 := by omega
      simp [h, k, this]
    · have : ¬ i - 8 < 8 := by omega
      have e : i - 8 - 8 = i - 16 := by omega
      simp [h, k, this, e]

/-- The fields of a command word are the two it was written from. -/
theorem commandFields (op : BitVec 3) (arg : BitVec 32) :
    commandOp (op ++ arg) = op ∧ commandArg (op ++ arg) = arg := by
  constructor <;> apply BitVec.eq_of_getLsbD_eq <;> intro i hi
  · rw [commandOp, BitVec.getLsbD_extractLsb', getLsbD_commandWord]
    simp [hi]
  · rw [commandArg, BitVec.getLsbD_extractLsb', getLsbD_commandWord]
    simp [hi]

end Sys2Proof

namespace Sys2Proof.Machine

/-- The bits of `1 << l` (R14). -/
theorem getLsbD_lineBit (l i : Nat) :
    (lineBit l).getLsbD i = (decide (i < 8) && decide (i = l)) := by
  simp only [lineBit, BitVec.getLsbD_shiftLeft]
  by_cases h : i < 8 <;> simp [h]
  by_cases e : i = l
  · simp [e]
  · simp [e]; omega

/-- The bits of a mask are its lines (R11). -/
theorem getLsbD_maskOf (ls : List Nat) (i : Nat) :
    (maskOf ls).getLsbD i = (decide (i < 8) && decide (i ∈ ls)) := by
  induction ls with
  | nil => simp [maskOf]
  | cons l ls ih =>
    simp only [maskOf, BitVec.getLsbD_or, ih, getLsbD_lineBit, List.mem_cons]
    by_cases h : i < 8 <;> simp [h]

/-- The bits of a sweep's direction byte: only the driven line is an output (R122). -/
theorem getLsbD_columnDrive (l i : Nat) :
    (columnDrive l).getLsbD i = (decide (i < 8) && decide (i ≠ l)) := by
  have h : BitVec.getLsbD (w := 8) 0xFF i = decide (i < 8) := by
    by_cases h : i < 8
    · interval_cases i <;> rfl
    · simp [h, BitVec.getLsbD_of_ge _ _ (Nat.le_of_not_lt h)]
  rw [columnDrive, BitVec.getLsbD_and, BitVec.getLsbD_not, getLsbD_lineBit, h]
  by_cases h8 : i < 8 <;> simp [h8]

end Sys2Proof.Machine
end

