-- ==== Sys2Proof/Laws/KeyBuffer.lean ====
section
/-! SUPPORT. What the key buffer's operations do to the unread entries. -/

namespace Sys2Proof.Machine

/-- The part of the invariant that is about the ring: every operation on the buffer keeps it. -/
structure SoundRing (s : State) : Prop where
  capacity : 2 ≤ s.cfg.capacity
  slots : s.buf.length = s.cfg.capacity
  head : s.head < s.cfg.capacity
  tail : s.tail < s.cfg.capacity

theorem keypad_wf_capacity {k : Keypad} (h : k.wf = true) : 2 ≤ k.capacity := by
  simp only [Keypad.wf, Bool.and_eq_true, decide_eq_true_eq] at h
  exact h.1.2

theorem sound_ring {s : State} (h : Sound s) : SoundRing s :=
  ⟨keypad_wf_capacity h.configured, h.slots, h.headBelow, h.tailBelow⟩

theorem soundRing_congr {s t : State} (h : SoundRing s) (hc : t.cfg = s.cfg) (hb : t.buf = s.buf)
    (hh : t.head = s.head) (ht : t.tail = s.tail) : SoundRing t :=
  ⟨hc ▸ h.capacity, by rw [hb, hc, h.slots], by rw [hh, hc]; exact h.head,
    by rw [ht, hc]; exact h.tail⟩

theorem nextIndex_lt {k : Keypad} (h : 2 ≤ k.capacity) (i : Nat) : nextIndex k i < k.capacity :=
  Nat.mod_lt _ (by omega)

theorem soundRing_push {s : State} (h : SoundRing s) (x : Symbol) : SoundRing (push x s) where
  capacity := h.capacity
  slots := by simp [h.slots]
  head := nextIndex_lt h.capacity _
  tail := by
    simp only [push_tail, push_cfg]
    split
    · exact nextIndex_lt h.capacity _
    · exact h.tail

theorem soundRing_dropOldest {s : State} (h : SoundRing s) : SoundRing (dropOldest s) :=
  ⟨h.capacity, h.slots, h.head, nextIndex_lt h.capacity _⟩

/-- The unread entries depend on the buffer registers and the capacity only. -/
theorem unread_congr {s t : State} (hc : t.cfg = s.cfg) (hb : t.buf = s.buf) (hh : t.head = s.head)
    (ht : t.tail = s.tail) : unread t = unread s := by
  simp only [unread, unreadCount, hc, hb, hh, ht]

@[simp] theorem unread_length (s : State) : (unread s).length = unreadCount s := by
  simp [unread]

/-- The count without its remainder. -/
theorem unreadCount_eq {s : State} (h : SoundRing s) :
    unreadCount s = if s.tail ≤ s.head then s.head - s.tail
      else s.cfg.capacity + s.head - s.tail := by
  have := h.head
  have := h.tail
  unfold unreadCount
  split
  · rw [show s.cfg.capacity + s.head - s.tail = (s.head - s.tail) + s.cfg.capacity by omega,
      Nat.add_mod_right, Nat.mod_eq_of_lt (by omega)]
  · exact Nat.mod_eq_of_lt (by omega)

/-- `(i + 1) mod CAPACITY` without its remainder. -/
theorem nextIndex_eq {k : Keypad} {i : Nat} (h : i < k.capacity) :
    nextIndex k i = if i + 1 = k.capacity then 0 else i + 1 := by
  unfold nextIndex
  split
  · rw [‹i + 1 = k.capacity›, Nat.mod_self]
  · exact Nat.mod_eq_of_lt (by omega)

/-- The ring position `j` slots after `i`, without its remainder. -/
theorem ring_index_eq {n i j : Nat} (hi : i < n) (hj : j < n) :
    (i + j) % n = if i + j < n then i + j else i + j - n := by
  split
  · exact Nat.mod_eq_of_lt ‹_›
  · rw [Nat.mod_eq_sub_mod (by omega), Nat.mod_eq_of_lt (by omega)]

theorem unread_eq_nil_iff {s : State} (h : SoundRing s) : unread s = [] ↔ s.head = s.tail := by
  have := h.head
  have := h.tail
  rw [← List.length_eq_zero_iff, unread_length, unreadCount_eq h]
  split <;> omega

theorem bufferEmpty_iff {s : State} (h : SoundRing s) :
    bufferEmpty s = true ↔ unread s = [] := by
  simp [bufferEmpty, unread_eq_nil_iff h]

/-- With an entry unread, the oldest one is the slot at `tail` and removing it leaves the rest
(R165). -/
theorem unread_eq_cons {s : State} (h : SoundRing s) (hne : s.head ≠ s.tail) :
    unread s = oldest s :: unread (dropOldest s) := by
  have hh := h.head
  have ht := h.tail
  have hc := h.capacity
  have hcount : unreadCount s = unreadCount (dropOldest s) + 1 := by
    rw [unreadCount_eq h, unreadCount_eq (soundRing_dropOldest h)]
    simp only [dropOldest_cfg, dropOldest_head, dropOldest_tail, nextIndex_eq ht]
    split <;> split <;> split <;> omega
  apply List.ext_getElem
  · simp [hcount]
  · intro i h1 h2
    simp only [unread_length] at h1
    have hlt : unreadCount s < s.cfg.capacity := Nat.mod_lt _ (by omega)
    cases i with
    | zero => simp [unread, oldest, Nat.mod_eq_of_lt ht]
    | succ i =>
      simp only [unread, List.getElem_map, List.getElem_range, List.getElem_cons_succ,
        dropOldest_buf, dropOldest_cfg, dropOldest_tail, nextIndex]
      congr 1
      rw [Nat.mod_add_mod]
      congr 1
      omega

/-- Below 2^32 the data of `COUNT` is the count (R167); above, nothing is known (`countData`). -/
theorem countData_toNat {n : Nat} (h : n < 2 ^ 32) : (countData n).toNat = n := by
  rw [countData, if_pos h, BitVec.toNat_ofNat, Nat.mod_eq_of_lt h]

end Sys2Proof.Machine
end

