-- ==== Sys2Proof/Laws/PerInstr.lean ====
section
/-! SUPPORT. What holds of every instruction, one lemma per constructor. -/

namespace Sys2Proof.Laws

/-- The row of an instruction in spec/opcode_table.json: its width, its fixed bits (`mask`) and their
values (`match`, here `bits`). -/
structure TableRow where
  width : Nat
  mask : Nat
  bits : Nat
  deriving DecidableEq, Repr

/-- The table's row of each instruction. -/
def tableRow : Instr → TableRow
  | .begin _ => ⟨35, 0x700000000, 0x000000000⟩
  | .tick _ => ⟨35, 0x700000000, 0x100000000⟩
  | .count _ => ⟨35, 0x700000000, 0x200000000⟩
  | .peek _ => ⟨35, 0x700000000, 0x300000000⟩
  | .pop _ => ⟨35, 0x700000000, 0x400000000⟩
  | .flush _ => ⟨35, 0x700000000, 0x500000000⟩
  | .popBlocking _ => ⟨35, 0x700000000, 0x600000000⟩
  | .reserved7 _ => ⟨35, 0x700000000, 0x700000000⟩
  | .readRegister _ _ => ⟨17, 0x100FF, 0x00000⟩
  | .writeRegister _ _ => ⟨17, 0x10000, 0x10000⟩

/-- The word has the row's width and the row's fixed bits. -/
def fits (row : TableRow) : Word → Prop
  | .command w => row.width = 35 ∧ w &&& BitVec.ofNat 35 row.mask = BitVec.ofNat 35 row.bits
  | .transaction w => row.width = 17 ∧ w &&& BitVec.ofNat 17 row.mask = BitVec.ofNat 17 row.bits

/-- A command word has the fixed bits of the row that holds its operation code. -/
theorem commandWord_fits (op : BitVec 3) (arg : BitVec 32) (bits : Nat)
    (h : (op ++ 0#32 : BitVec 35) = BitVec.ofNat 35 bits) :
    fits ⟨35, 0x700000000, bits⟩ (commandWord op arg) := by
  refine ⟨rfl, h ▸ BitVec.eq_of_getLsbD_eq fun i hi => ?_⟩
  have hm : BitVec.ofNat 35 0x700000000 = (7#3 ++ 0#32 : BitVec 35) := by decide
  rw [hm, BitVec.getLsbD_and, getLsbD_commandWord, getLsbD_commandWord, getLsbD_commandWord]
  by_cases hl : i < 32
  · simp [hl]
  · have h3 : i - 32 < 3 := by omega
    have h7 : (7#3).getLsbD (i - 32) = true := by interval_cases i - 32 <;> decide
    simp only [hl, if_false, h7, Bool.and_true]

/-- The word of a well-formed instruction is one of its row of the opcode table (R82, R91). -/
def OpcodeRow.Statement (i : Instr) : Prop := i.wf = true → fits (tableRow i) (encode i)

theorem OpcodeRow.begin (arg : BitVec 32) : OpcodeRow.Statement (.begin arg) :=
  fun _ => commandWord_fits 0 arg _ (by decide)

theorem OpcodeRow.tick (arg : BitVec 32) : OpcodeRow.Statement (.tick arg) :=
  fun _ => commandWord_fits 1 arg _ (by decide)

theorem OpcodeRow.count (arg : BitVec 32) : OpcodeRow.Statement (.count arg) :=
  fun _ => commandWord_fits 2 arg _ (by decide)

theorem OpcodeRow.peek (arg : BitVec 32) : OpcodeRow.Statement (.peek arg) :=
  fun _ => commandWord_fits 3 arg _ (by decide)

theorem OpcodeRow.pop (arg : BitVec 32) : OpcodeRow.Statement (.pop arg) :=
  fun _ => commandWord_fits 4 arg _ (by decide)

theorem OpcodeRow.flush (arg : BitVec 32) : OpcodeRow.Statement (.flush arg) :=
  fun _ => commandWord_fits 5 arg _ (by decide)

theorem OpcodeRow.popBlocking (timeout : Millis) : OpcodeRow.Statement (.popBlocking timeout) :=
  fun _ => commandWord_fits 6 timeout _ (by decide)

theorem OpcodeRow.reserved7 (arg : BitVec 32) : OpcodeRow.Statement (.reserved7 arg) :=
  fun _ => commandWord_fits 7 arg _ (by decide)

theorem OpcodeRow.readRegister (a v : Byte) : OpcodeRow.Statement (.readRegister a v) := by
  intro h
  obtain rfl : v = 0 := by
    simp only [Instr.wf, Bool.and_eq_true, beq_iff_eq] at h
    exact h.2
  refine ⟨rfl, BitVec.eq_of_getLsbD_eq fun i hi => ?_⟩
  show BitVec.getLsbD (_ &&& 0x100FF#17) i = BitVec.getLsbD 0#17 i
  rw [BitVec.getLsbD_and, getLsbD_transactionWord]
  have hm : (0x100FF#17) = (1#1 ++ 0x00#8 ++ 0xFF#8 : BitVec 17) := by decide
  rw [hm, getLsbD_transactionWord]
  by_cases h8 : i < 8 <;> by_cases h16 : i < 16 <;> simp [h8, h16]

theorem OpcodeRow.writeRegister (a v : Byte) : OpcodeRow.Statement (.writeRegister a v) := by
  intro _
  refine ⟨rfl, BitVec.eq_of_getLsbD_eq fun i hi => ?_⟩
  show BitVec.getLsbD (_ &&& 0x10000#17) i = BitVec.getLsbD 0x10000#17 i
  rw [BitVec.getLsbD_and, getLsbD_transactionWord]
  have hm : (0x10000#17) = (1#1 ++ 0x00#8 ++ 0x00#8 : BitVec 17) := by decide
  rw [hm, getLsbD_transactionWord]
  by_cases h8 : i < 8 <;> by_cases h16 : i < 16 <;> simp [h8, h16]

end Sys2Proof.Laws
end

