-- ==== Sys2Proof/Laws/Step.lean ====
section
/-! SUPPORT. What an instruction and a step can do, and how a property that every update keeps is
kept by both. -/

namespace Sys2Proof.Machine

/-- The properties that every named update of the state keeps. -/
structure Kept (P : State → Prop) : Prop where
  clock : ∀ s, P s → P (readClock s)
  read : ∀ a s, P s → P (portRead a s)
  write : ∀ a v s, P s → P (portWrite a v s)
  settle : ∀ s, P s → P (settle s)
  yield : ∀ s, P s → P (yieldNow s)
  respond : ∀ st d s, P s → P (respond st d s)
  push : ∀ x s, P s → P (push x s)
  drop : ∀ s, P s → P (dropOldest s)
  flush : ∀ s, P s → P { s with tail := s.head }
  block : ∀ (s : State) (x : ScanState) (c : Symbol) (l w : Millis) (m : Option Millis), P s →
    P { s with state := x, cand := c, lastTick := l, waitStart := w, waiting := m }

theorem scanOnce_keeps {P : State → Prop} (K : Kept P) {s : State} (h : P s) :
    P (scanOnce s).2 := by
  simp only [scanOnce]
  split
  · exact K.read _ _ h
  · exact sweep_keeps (fun v s => K.write _ v s) K.settle (fun s => K.read _ s) _ _ _ _ (K.read _ _ h)

theorem transition_keeps {P : State → Prop} (K : Kept P) (k : KeyResult) {s : State} (h : P s) :
    P (transition k s) := by
  rcases transition_cases k s with e | ⟨-, -, e⟩
  · rw [e]; exact K.block s _ _ s.lastTick s.waitStart s.waiting h
  · rw [e]
    exact K.block (push s.cand s) .awaitingRelease (push s.cand s).cand (push s.cand s).lastTick
      (push s.cand s).waitStart (push s.cand s).waiting (K.push _ _ h)

theorem tick_keeps {P : State → Prop} (K : Kept P) {s : State} (h : P s) : P (tick s) := by
  rcases tick_cases s with ⟨-, e⟩ | ⟨-, e⟩
  · rw [e]; exact K.clock _ h
  · rw [e]
    exact transition_keeps K _ (scanOnce_keeps K
      (K.block (readClock s) (readClock s).state (readClock s).cand s.env.sample
        (readClock s).waitStart (readClock s).waiting (K.clock _ h)))

/-- The outcomes of the timeout test (R172, R173). -/
theorem timeoutTest_cases (m : Millis) (s : State) :
    (m = 0 ∧ timeoutTest m s = s) ∨
    (m ≠ 0 ∧ m ≤ s.env.sample - s.waitStart ∧
      timeoutTest m s = respond .timedOut 0 (readClock s)) ∨
    (m ≠ 0 ∧ ¬ m ≤ s.env.sample - s.waitStart ∧ timeoutTest m s = readClock s) := by
  by_cases h0 : m = 0
  · exact .inl ⟨h0, by simp [timeoutTest, h0]⟩
  · by_cases h1 : m ≤ s.env.sample - s.waitStart
    · exact .inr (.inl ⟨h0, h1, by rw [timeoutTest, if_neg h0, clockNow_eq, sub32, if_pos h1]⟩)
    · exact .inr (.inr ⟨h0, h1, by rw [timeoutTest, if_neg h0, clockNow_eq, sub32, if_neg h1]⟩)

/-- The outcomes of one iteration of the blocking read (R171, R172). -/
theorem waitIteration_cases (m : Millis) (s : State) :
    (bufferEmpty (tick (yieldNow s)) = true ∧
      waitIteration m s = timeoutTest m (tick (yieldNow s))) ∨
    (bufferEmpty (tick (yieldNow s)) = false ∧
      waitIteration m s = respond .ok (symbolData (oldest (tick (yieldNow s))))
        (dropOldest (tick (yieldNow s)))) := by
  unfold waitIteration
  cases h : bufferEmpty (tick (yieldNow s))
  · exact .inr ⟨rfl, by simp [h]⟩
  · exact .inl ⟨rfl, by simp [h]⟩

theorem timeoutTest_keeps {P : State → Prop} (K : Kept P) (m : Millis) {s : State} (h : P s) :
    P (timeoutTest m s) := by
  rcases timeoutTest_cases m s with ⟨-, e⟩ | ⟨-, -, e⟩ | ⟨-, -, e⟩ <;> rw [e]
  · exact h
  · exact K.respond _ _ _ (K.clock _ h)
  · exact K.clock _ h

theorem waitIteration_keeps {P : State → Prop} (K : Kept P) (m : Millis) {s : State} (h : P s) :
    P (waitIteration m s) := by
  have ht : P (tick (yieldNow s)) := tick_keeps K (K.yield _ h)
  rcases waitIteration_cases m s with ⟨-, e⟩ | ⟨-, e⟩ <;> rw [e]
  · exact timeoutTest_keeps K m ht
  · exact K.respond _ _ _ (K.drop _ ht)

theorem popOrEmpty_keeps {P : State → Prop} (K : Kept P) {s : State} (h : P s) :
    P (popOrEmpty s) := by
  unfold popOrEmpty
  split
  · exact K.respond _ _ _ h
  · exact K.respond _ _ _ (K.drop _ h)

theorem peekOrEmpty_keeps {P : State → Prop} (K : Kept P) {s : State} (h : P s) :
    P (peekOrEmpty s) := by
  unfold peekOrEmpty
  split <;> exact K.respond _ _ _ h

theorem enterWait_keeps {P : State → Prop} (K : Kept P) (m : Millis) {s : State} (h : P s) :
    P (enterWait m s) :=
  K.block (readClock s) (readClock s).state (readClock s).cand (readClock s).lastTick _ _
    (K.clock _ h)

theorem captureStart_keeps {P : State → Prop} (K : Kept P) {s : State} (h : P s) :
    P (captureStart s) :=
  K.block (readClock s) .awaitingPress (readClock s).cand _ (readClock s).waitStart
    (readClock s).waiting (K.clock _ h)

theorem portWrites_keeps {P : State → Prop} (K : Kept P) (ws : List (Byte × Byte)) :
    ∀ {s : State}, P s → P (portWrites ws s) := by
  induction ws with
  | nil => exact fun h => h
  | cons w ws ih => exact fun h => ih (K.write _ _ _ h)

/-- A read transaction the environment takes is one `portRead` (R110). -/
theorem execReadRegister_next {a v : Byte} {s t : State} (h : execReadRegister a v s = .next t) :
    mappedAddress a = true ∧ t = portRead a s := by
  unfold execReadRegister readRegister readRefusal at h
  cases hm : mappedAddress a
  · simp [hm] at h
  · simpa [hm, eq_comm] using h

/-- A write transaction the environment takes is one `portWrite` (R111). -/
theorem execWriteRegister_next {a v : Byte} {s t : State} (h : execWriteRegister a v s = .next t) :
    writableAddress a = true ∧ t = portWrite a v s := by
  unfold execWriteRegister writeRegister writeRefusal at h
  cases hm : writableAddress a
  · cases hn : mappedAddress a <;> simp [hm, hn] at h
  · simpa [hm, eq_comm] using h

/-- What every update keeps, every instruction keeps. -/
theorem exec_keeps {P : State → Prop} (K : Kept P) {i : Instr} {s t : State} (h : P s)
    (e : exec i s = .next t) : P t := by
  have done : ∀ {u : State}, P u → Host.Outcome.next (φ := Fault) (ρ := Refusal) u = .next t → P t :=
    fun hu hn => Host.Outcome.next.inj hn ▸ hu
  cases i with
  | begin arg => exact done (K.respond _ _ _ (captureStart_keeps K (portWrites_keeps K _ h))) e
  | tick arg => exact done (K.respond _ _ _ (tick_keeps K h)) e
  | count arg => exact done (K.respond _ _ _ (tick_keeps K h)) e
  | peek arg => exact done (peekOrEmpty_keeps K (tick_keeps K h)) e
  | pop arg => exact done (popOrEmpty_keeps K (tick_keeps K h)) e
  | flush arg => exact done (K.respond _ _ _ (K.flush _ (tick_keeps K h))) e
  | popBlocking m => exact done (waitIteration_keeps K m (enterWait_keeps K m h)) e
  | reserved7 arg => exact done (K.respond _ _ _ h) e
  | readRegister a v => rw [(execReadRegister_next (v := v) e).2]; exact K.read _ _ h
  | writeRegister a v => rw [(execWriteRegister_next e).2]; exact K.write _ _ _ h

/-- All that taking a word can be: nothing, a placed register transaction, or the oldest command word
offered (R96). -/
theorem fetch_cases (s : State) (hw : s.waiting = none) :
    (s.portWord = none ∧ s.inbox = [] ∧ fetch s = none) ∨
    (∃ w, s.portWord = some w ∧ fetch s = some (.transaction w, takeTransaction s)) ∨
    (∃ w rest, s.portWord = none ∧ s.inbox = w :: rest ∧
      fetch s = some (.command w, takeCommand w rest s)) := by
  unfold fetch
  rw [hw]
  rcases s.portWord with _ | w
  · rcases s.inbox with _ | ⟨w, rest⟩
    · exact .inl ⟨rfl, rfl, rfl⟩
    · exact .inr (.inr ⟨w, rest, rfl, rfl, rfl⟩)
  · exact .inr (.inl ⟨w, rfl, rfl⟩)

/-- All that a step with the reset input quiet can do. -/
theorem proceed_cases {s t : State} (h : proceed s = .next t) :
    (∃ m, s.waiting = some m ∧ t = waitIteration m s) ∨
    (s.waiting = none ∧ s.portWord = none ∧ s.inbox = [] ∧ t = s) ∨
    (∃ w, s.waiting = none ∧ s.portWord = some w ∧
      exec (decode (.transaction w)) (takeTransaction s) = .next t) ∨
    (∃ w rest, s.waiting = none ∧ s.portWord = none ∧ s.inbox = w :: rest ∧
      exec (decode (.command w)) (takeCommand w rest s) = .next t) := by
  unfold proceed at h
  cases hw : s.waiting with
  | some m => simp only [hw] at h; exact .inl ⟨m, rfl, (Host.Outcome.next.inj h).symm⟩
  | none =>
    simp only [hw] at h
    rcases fetch_cases s hw with ⟨h1, h2, e⟩ | ⟨w, h1, e⟩ | ⟨w, rest, h1, h2, e⟩ <;>
      simp only [e] at h
    · exact .inr (.inl ⟨rfl, h1, h2, (Host.Outcome.next.inj h).symm⟩)
    · exact .inr (.inr (.inl ⟨w, rfl, h1, h⟩))
    · exact .inr (.inr (.inr ⟨w, rest, rfl, h1, h2, h⟩))

/-- All that a step can do. -/
theorem step_cases {s t : State} (h : step s = .next t) :
    (s.resetIn = none ∧ proceed s = .next t) ∨
    (s.resetIn = some 0 ∧ t = resetBlock s) ∨
    (∃ n u, s.resetIn = some (n + 1) ∧ proceed s = .next u ∧ t = resetWithin (n + 1) s u) := by
  unfold step at h
  match hr : s.resetIn with
  | none => simp only [hr] at h; exact .inl ⟨rfl, h⟩
  | some 0 => simp only [hr] at h; exact .inr (.inl ⟨rfl, (Host.Outcome.next.inj h).symm⟩)
  | some (n + 1) =>
    simp only [hr] at h
    match hp : proceed s with
    | .next u =>
      simp only [hp] at h
      exact .inr (.inr ⟨n, u, rfl, rfl, (Host.Outcome.next.inj h).symm⟩)
    | .refused r => simp [hp] at h

theorem newEvents_eq {s t : State} {events : List Event} (h : t.trace = s.trace ++ events) :
    newEvents s t = events := by simp [newEvents, h]

/-- All that a reset input asserted after `n` more events can do (R232). -/
theorem resetWithin_cases {s t : State} {events : List Event} (n : Nat)
    (h : t.trace = s.trace ++ events) :
    (n ≤ events.length ∧ resetWithin n s t =
      resetBlock { s with
        env := s.env.replay (events.take n), inbox := t.inbox, portWord := t.portWord
        trace := s.trace ++ events.take n }) ∨
    (events.length < n ∧
      resetWithin n s t = { t with resetIn := some (n - events.length) }) := by
  unfold resetWithin abandon
  rw [newEvents_eq h]
  split
  · exact .inl ⟨‹_›, rfl⟩
  · exact .inr ⟨by omega, rfl⟩

theorem follows_takeCommand {P : Event → Prop} (w : BitVec 35) (rest : List (BitVec 35)) (s : State)
    (h : P (.accepted w)) : Follows P s (takeCommand w rest s) := follows_one _ h rfl rfl

theorem follows_takeTransaction (P : Event → Prop) (s : State) : Follows P s (takeTransaction s) :=
  follows_congr (follows_refl P s) rfl rfl rfl rfl

/-- What every update keeps, and the taking of a word, a step with the reset input quiet keeps. -/
theorem proceed_keeps {P : State → Prop} (K : Kept P) {s t : State}
    (command : ∀ w rest, P s → P (takeCommand w rest s)) (transaction : P s → P (takeTransaction s))
    (h : P s) (e : proceed s = .next t) : P t := by
  rcases proceed_cases e with ⟨m, -, rfl⟩ | ⟨-, -, -, rfl⟩ | ⟨w, -, -, e⟩ | ⟨w, rest, -, -, -, e⟩
  · exact waitIteration_keeps K m h
  · exact h
  · exact exec_keeps K (transaction h) e
  · exact exec_keeps K (command w rest h) e

/-- `Follows` from a fixed state is kept by every update whose event meets the condition. -/
theorem kept_follows {P : Event → Prop} (h : ∀ e, P e) (s : State) : Kept (Follows P s) where
  clock := fun _ k => follows_trans k (follows_readClock _ fun _ => h _)
  read := fun _ _ k => follows_trans k (follows_portRead _ _ fun _ => h _)
  write := fun _ _ _ k => follows_trans k (follows_portWrite _ _ _ (h _))
  settle := fun _ k => follows_trans k (follows_settle _ (h _))
  yield := fun _ k => follows_trans k (follows_yieldNow _ (h _))
  respond := fun _ _ _ k => follows_trans k (follows_respond _ _ _ (h _))
  push := fun _ _ k => follows_congr k rfl rfl rfl rfl
  drop := fun _ k => follows_congr k rfl rfl rfl rfl
  flush := fun _ k => follows_congr k rfl rfl rfl rfl
  block := fun _ _ _ _ _ _ k => follows_congr k rfl rfl rfl rfl

end Sys2Proof.Machine
end

