-- ==== Sys2Proof/Tests/Slice0.lean ====
section
/-! SUPPORT. The model's own tests. Expected values come from spec/ (the source is named with each
test), none from the model. A theorem `witness_<Name>` shows that the hypotheses of the statement
`Obligations.<Name>` can be met together, clause by clause. -/

open Sys2Proof Sys2Proof.Machine

namespace Sys2Proof.Tests

/-! ## Small states -/

/-- The state after reset with these answers to come: reads, writes all performed, clock advances. -/
def scripted (reads : List ReadAnswer) (advances : List Nat) : State :=
  { State.reset with
    env := { Env.initial with reads := reads, writes := List.replicate 12 true, advances := advances } }

/-- As `scripted`, with the expander as `BEGIN` leaves it for K44 (10_state.md R45). -/
def prepared (reads : List ReadAnswer) (advances : List Nat) : State :=
  let s := scripted reads advances
  { s with env := { s.env with expander := [(0x00, 0x0F), (0x05, 0x24), (0x06, 0x0F)] } }

/-- `s` with the symbols `xs` unread from slot 0 on. -/
def holding (xs : List Symbol) (s : State) : State :=
  { s with buf := xs ++ List.replicate (4 - xs.length) 0, head := xs.length }

/-- `s` in scanner state `x` with candidate `c`. -/
def inState (x : ScanState) (c : Symbol) (s : State) : State := { s with state := x, cand := c }

/-- `s` with this command word offered by the host. -/
def offered (w : BitVec 35) (s : State) : State := { s with inbox := [w] }

/-- `s` with this register transaction placed to be run alone. -/
def placed (w : BitVec 17) (s : State) : State := { s with portWord := some w }

/-- The bytes of vector V-S2 (key '1'). -/
def pressOne : List ReadAnswer := ([0x0E, 0xEE, 0xDF, 0xBF, 0x7F] : List Byte).map .drawn

/-- The bytes of vector V-S4 (key 'D'). -/
def pressD : List ReadAnswer := ([0x07, 0xEF, 0xDF, 0xBF, 0x77] : List Byte).map .drawn

/-- The bytes of vector V-S8 (conflict in column 0). -/
def pressThree : List ReadAnswer := ([0x0C, 0xCC] : List Byte).map .drawn

/-- The byte of vector V-S1 (no key). -/
def pressNone : List ReadAnswer := [.drawn 0x0F]

/-- The next state, if there is one. -/
def after : Host.Outcome State Fault Refusal → Option State
  | .next s => some s
  | .fault _ => none
  | .refused _ => none

/-- The refusal, if there is one. -/
def refusal : Host.Outcome State Fault Refusal → Option Refusal
  | .next _ => none
  | .fault _ => none
  | .refused r => some r

/-- The invariant as a check. -/
def soundCheck (s : State) : Bool :=
  s.cfg.wf && s.buf.length == s.cfg.capacity && decide (s.head < s.cfg.capacity)
    && decide (s.tail < s.cfg.capacity) && Memory.wf s.env.expander && Memory.mapped s.env.expander
    && s.env.expander.all (fun c => c.1 != 0x09) && Memory.read s.env.expander 0x05 &&& 0xC1 == 0

theorem sound_of_check {s : State} (h : soundCheck s = true) : Sound s := by
  simp only [soundCheck, Bool.and_eq_true, decide_eq_true_eq, beq_iff_eq, List.all_eq_true,
    bne_iff_ne] at h
  obtain ⟨⟨⟨⟨⟨⟨⟨h1, h2⟩, h3⟩, h4⟩, h5⟩, h6⟩, h7⟩, h8⟩ := h
  exact ⟨h1, h2, h3, h4, h5, h6, h7, h8⟩

/-- Configuration K43 of 95_test_vectors.md section 0. -/
def k43 : Keypad where
  rowLine := [1, 6, 5, 3]
  colLine := [2, 0, 4]
  table := [0x31, 0x32, 0x33, 0x34, 0x35, 0x36, 0x37, 0x38, 0x39, 0x2A, 0x30, 0x23]
  debounceMs := 20
  busAddr := 0
  capacity := 4
  settleUs := 1

/-- Configuration K11 of 95_test_vectors.md section 0, with the least capacity. -/
def k11 : Keypad where
  rowLine := [0]
  colLine := [1]
  table := [0x4B]
  debounceMs := 0
  busAddr := 0
  capacity := 2
  settleUs := 1

/-! ## Well-formedness: an ill-formed term for each check -/

theorem test_wf_read_above_map : (Instr.readRegister 0x0B 0).wf = false := by decide
theorem test_wf_read_value_field : (Instr.readRegister 0x09 1).wf = false := by decide
theorem test_wf_write_above_map : (Instr.writeRegister 0x0B 0).wf = false := by decide
theorem test_wf_write_intf : (Instr.writeRegister 0x07 0).wf = false := by decide
theorem test_wf_write_intcap : (Instr.writeRegister 0x08 0).wf = false := by decide
theorem test_wf_accepts :
    (Instr.readRegister 0x0A 0).wf = true ∧ (Instr.writeRegister 0x0A 0xFF).wf = true ∧
    (Instr.tick 0xDEADBEEF).wf = true := by decide

theorem test_wf_no_rows : { k11 with rowLine := [], table := [] }.wf = false := by decide
theorem test_wf_no_columns : { k11 with colLine := [], table := [] }.wf = false := by decide
theorem test_wf_line_number : { k11 with colLine := [8] }.wf = false := by decide
theorem test_wf_shared_line : { k11 with colLine := [0] }.wf = false := by decide
theorem test_wf_table_length : { k11 with table := [0x4B, 0x4C] }.wf = false := by decide
theorem test_wf_capacity : { k11 with capacity := 1 }.wf = false := by decide
theorem test_wf_settle : { k11 with settleUs := 0 }.wf = false := by decide
theorem test_wf_accepts_configurations :
    Keypad.k44.wf = true ∧ k43.wf = true ∧ k11.wf = true := by decide

/-! ## Decoding: words of 95_test_vectors.md section 0, and of 30_encoding.md R82 -/

theorem test_decode_begin : decodeTableWord 40 0x000000000 = some (.begin 0) := by decide
theorem test_decode_tick : decodeTableWord 40 0x1DEADBEEF = some (.tick 0xDEADBEEF) := by decide
theorem test_decode_count : decodeTableWord 40 0x200000000 = some (.count 0) := by decide
theorem test_decode_peek : decodeTableWord 40 0x300000001 = some (.peek 1) := by decide
theorem test_decode_pop : decodeTableWord 40 0x400000000 = some (.pop 0) := by decide
theorem test_decode_flush : decodeTableWord 40 0x500000000 = some (.flush 0) := by decide
theorem test_decode_popBlocking : decodeTableWord 40 0x600000064 = some (.popBlocking 100) := by
  decide
theorem test_decode_reserved7 : decodeTableWord 40 0x7FFFFFFFF = some (.reserved7 0xFFFFFFFF) := by
  decide
theorem test_decode_readRegister : decodeTableWord 24 0x00900 = some (.readRegister 0x09 0) := by
  decide
theorem test_decode_writeRegister :
    decodeTableWord 24 0x10524 = some (.writeRegister 0x05 0x24) := by decide
theorem test_decode_bits_above :
    readWord 35 0x800000000 = .error (.bitsAboveTheWord 0x800000000) ∧
    readWord 17 0x20000 = .error (.bitsAboveTheWord 0x20000) := by constructor <;> rfl
theorem test_decode_width : readWord 32 0 = .error (.noSuchWidth 32) := by rfl
theorem test_encode_words :
    encode (.popBlocking 100) = .command 0x600000064 ∧
    encode (.writeRegister 0x00 0xEF) = .transaction 0x100EF := by decide

/-! ## Results: vectors of 95_test_vectors.md -/

/-- The eight writes of the scenario E9, step 1. -/
theorem test_begin_writes :
    (after (exec (.begin 0) (scripted [] [0]))).map State.trace =
      some [.write 0x05 0x24, .write 0x01 0x00, .write 0x02 0x00, .write 0x03 0x00, .write 0x04 0x00,
        .write 0x06 0x0F, .write 0x0A 0x00, .write 0x00 0x0F, .clock 0, .response ⟨.ok, 0⟩] := by
  decide +kernel

/-- The registers at the end of P1, as `BEGIN` leaves them. -/
theorem test_begin_registers :
    (after (exec (.begin 0) (scripted [] [0]))).map (fun s => s.env.expander) =
      some [(0x00, 0x0F), (0x05, 0x24), (0x06, 0x0F)] := by decide +kernel

/-- E9, step 2: switch (2,1) closed on a healthy keypad, first tick. -/
theorem test_tick_scenario :
    (after (exec (.tick 0) (prepared (List.replicate 5 (.healthy [(2, 1)] 0xFF)) [60]))).map
        (fun s => (s.trace, s.state, s.cand, s.lastTick)) =
      some ([.clock 60, .read 0x09 0x0B, .write 0x00 0xEF, .settle, .read 0x09 0xEF,
        .write 0x00 0xDF, .settle, .read 0x09 0xDB, .write 0x00 0xBF, .settle, .read 0x09 0xBF,
        .write 0x00 0x7F, .settle, .read 0x09 0x7F, .write 0x00 0x0F, .response ⟨.ok, 0⟩],
        .awaitingDebounce, 0x38, 60) := by decide +kernel

/-- P10, step 2: the clock wraps and the gate is still closed at 49 milliseconds. -/
theorem test_tick_wrap :
    (after (exec (.tick 0) { scripted [] [0x100000021] with lastTick := 0xFFFFFFF0 })).map
        (fun s => (s.trace, s.lastTick)) =
      some ([.clock 0x21, .response ⟨.ok, 0⟩], 0xFFFFFFF0) := by decide +kernel

/-- P2, step 14: three unread after the overflow, `head` 0 and `tail` 1. -/
theorem test_count_after_overflow :
    (after (exec (.count 0) { holding [0x31, 0x32, 0x33, 0x41] (scripted [] [10]) with
      head := 0, tail := 1 })).map State.trace =
      some [.clock 10, .response ⟨.ok, 3⟩] := by decide +kernel

/-- E2: `PEEK` on '1', '2' answers 0x31 and leaves `tail` at 0. -/
theorem test_peek :
    (after (exec (.peek 0) (holding [0x31, 0x32] (scripted [] [0])))).map
        (fun s => (s.trace, s.tail)) = some ([.clock 0, .response ⟨.ok, 0x31⟩], 0) := by
  decide +kernel

/-- P2, steps 17 and 18: the last entry is taken out of slot 3, then the buffer is empty. -/
theorem test_pop_wraps :
    (after (exec (.pop 0) { holding [0x31, 0x32, 0x33, 0x41] (scripted [] [10]) with
      head := 0, tail := 3 })).map (fun s => (s.trace, s.tail)) =
      some ([.clock 10, .response ⟨.ok, 0x41⟩], 0) := by decide +kernel

theorem test_pop_empty :
    (after (exec (.pop 0) (scripted [] [10]))).map State.trace =
      some [.clock 10, .response ⟨.empty, 0⟩] := by decide +kernel

/-- P11, step 3: the flush discards also what its own tick confirms. -/
theorem test_flush_while_held :
    (after (exec (.flush 0) (holding [0x31, 0x32]
      (inState .awaitingDebounce 0x31 (scripted pressOne [50]))))).map
        (fun s => (s.buf, s.head, s.tail, s.state)) =
      some ([0x31, 0x32, 0x31, 0], 3, 3, .awaitingRelease) := by decide +kernel

/-- P8: a symbol already buffered is returned although the timeout has elapsed. -/
theorem test_popBlocking_buffered :
    (after (exec (.popBlocking 1) (holding [0x23] (scripted [] [7, 1])))).map
        (fun s => (s.trace, s.tail, s.waitStart, s.waiting)) =
      some ([.clock 7, .yield, .clock 8, .response ⟨.ok, 0x23⟩], 1, 7, none) := by decide +kernel

/-- P5, the last iteration: 100 milliseconds have elapsed. -/
theorem test_popBlocking_times_out :
    (after (step { scripted pressNone [1100, 0] with
      waitStart := 1000, lastTick := 1050, waiting := some 100 })).map
        (fun s => (s.trace, s.waiting, s.state)) =
      some ([.yield, .clock 1100, .read 0x09 0x0F, .clock 1100, .response ⟨.timedOut, 0⟩],
        none, .awaitingPress) := by decide +kernel

/-- 30_encoding.md R84. -/
theorem test_reserved7 :
    (after (exec (.reserved7 5) (scripted [] []))).map State.trace =
      some [.response ⟨.invalid, 0⟩] := by decide +kernel

/-- V-R1. -/
theorem test_readRegister :
    (after (exec (.readRegister 0x09 0) (scripted [.drawn 0x0F] []))).map State.trace =
      some [.read 0x09 0x0F] := by decide +kernel

/-- 20_memory.md R51. -/
theorem test_readRegister_refused :
    refusal (exec (.readRegister 0x0B 0) State.reset) = some (.noSuchRegister 0x0B) := by
  decide +kernel

/-- V-R2; the register is as written. -/
theorem test_writeRegister :
    (after (exec (.writeRegister 0x00 0xDF) (scripted [] []))).map
        (fun s => (s.trace, s.env.expander)) =
      some ([.write 0x00 0xDF], [(0x00, 0xDF)]) := by decide +kernel

/-- 10_state.md R42. -/
theorem test_writeRegister_refused :
    refusal (exec (.writeRegister 0x07 0) State.reset) = some (.readOnlyRegister 0x07) := by
  decide +kernel

/-- V-R6, V-R8. -/
theorem test_readBit :
    (match readBit 0x09 7 (scripted [.drawn 0x7F] []) with
      | .next (b, s) => some (b, s.trace)
      | _ => none) = some (false, [.read 0x09 0x7F]) ∧
    (match readBit 0x09 255 (scripted [.drawn 0xFF] []) with
      | .next (b, s) => some (b, s.trace)
      | _ => none) = some (false, []) := by decide +kernel

/-- V-R9, V-R13. -/
theorem test_writeBit :
    (after (writeBit 0x00 5 true (scripted [.drawn 0x0F] []))).map State.trace =
      some [.read 0x00 0x0F, .write 0x00 0x2F] ∧
    (after (writeBit 0x0A 8 true (scripted [.drawn 0x0F] []))).map State.trace = some [] := by
  decide +kernel

/-- 20_memory.md R58 and R67: with all lines pulled up and no switch closed every line reads high, and
the read clears `INTF`. -/
theorem test_readRegister_gpio :
    (after (exec (.readRegister 0x09 0) { scripted [.healthy [] 0xFF] [] with
      env := { Env.initial with
        reads := [.healthy [] 0xFF], expander := [(0x06, 0xFF), (0x07, 0x10)] } })).map
        (fun s => (s.trace, s.env.expander)) =
      some ([.read 0x09 0xFF], [(0x06, 0xFF)]) := by decide +kernel

/-- The first step after reset runs the word offered. -/
theorem test_first_step_runs_the_offered_word :
    (after (step (State.reset.withFetchWord 40 0x700000000))).map State.trace =
      some [.accepted 0x700000000, .response ⟨.invalid, 0⟩] ∧
    (after (step (State.reset.withFetchWord 24 0x10524))).map State.trace =
      some [.write 0x05 0x24] := by decide +kernel

/-- V-S11: rows and columns on scattered lines; the second row and the third column read low. -/
theorem test_scan_scattered_lines :
    (scanOnce { State.resetWith k43 Env.initial with
      env := { Env.initial with
        reads := ([0x2A, 0xFB, 0xFE, 0xAF] : List Byte).map .drawn
        writes := List.replicate 4 true } }).1 = .key 0x36 := by decide +kernel

/-- V-S8: three corners of a rectangle on a healthy keypad conflict in column 0. -/
theorem test_scan_conflict :
    (scanOnce (prepared (List.replicate 5 (.healthy [(0, 0), (0, 1), (1, 0)] 0xFF)) [])).1 =
      .conflict ∧
    (scanOnce (prepared (List.replicate 5 (.healthy [(0, 0), (0, 1), (1, 0)] 0xFF)) [])).2.trace =
      [.read 0x09 0x0C, .write 0x00 0xEF, .settle, .read 0x09 0xCC, .write 0x00 0x0F] := by
  decide +kernel

/-- The masks of 95_test_vectors.md section 0. -/
theorem test_masks :
    (inputMask Keypad.k44, colMask Keypad.k44, inputMask k43, colMask k43, inputMask k11,
      colMask k11) = (0x0F, 0xF0, 0x6A, 0x15, 0x01, 0x02) := by decide +kernel

/-- The response words of 95_test_vectors.md section 0. -/
theorem test_response_words :
    (responseWord ⟨.ok, 0x38⟩, responseWord ⟨.empty, 0⟩, responseWord ⟨.timedOut, 0⟩,
      responseWord ⟨.invalid, 0⟩) = (0x000000038, 0x100000000, 0x200000000, 0x300000000) := by
  decide +kernel

/-- The codes of 30_encoding.md R86, R88 and R89, and the text of R95. -/
theorem test_codes :
    (scanStateCode .awaitingDebounce, keyResultTag .conflict, statusCode .timedOut,
      assemblyText (.popBlocking 100)) = (1, 2, 2, some "POPBLOCKING 100") := by decide +kernel

/-! ## The hypotheses of the statements can be met -/

theorem witness_MasksHoldTheLines : Keypad.k44.wf = true ∧ k43.wf = true ∧ 0 < 8 ∧ 7 < 8 := by decide

theorem witness_IndexWidthIsLeast :
    State.reset.cfg.wf = true ∧ State.reset.cfg = Keypad.k44 ∧ Sound State.reset :=
  ⟨by decide, rfl, sound_of_check (by decide +kernel)⟩

theorem witness_TableIndexStaysInTheTable :
    Keypad.k44.wf = true ∧ 0 < Keypad.k44.rows ∧ 0 < Keypad.k44.cols ∧
    3 < Keypad.k44.rows ∧ 3 < Keypad.k44.cols := by decide

theorem witness_ConstructionRefusesIllFormed :
    (1 ≤ k11.rows ∧ 1 ≤ k11.cols ∧ (∀ l ∈ k11.rowLine ++ k11.colLine, l < 8) ∧
      (k11.rowLine ++ k11.colLine).Nodup ∧ k11.table.length = k11.rows * k11.cols ∧
      2 ≤ k11.capacity ∧ 0 < k11.settleUs) ∧
    ¬ 2 ≤ { k11 with capacity := 1 }.capacity := by decide

theorem witness_StepRunsTheOfferedWord :
    (offered 0x100000000 State.reset).waiting = none ∧
    (offered 0x100000000 State.reset).resetIn = none ∧
    (offered 0x100000000 State.reset).portWord = none ∧
    (offered 0x100000000 State.reset).inbox = 0x100000000 :: [] ∧
    (placed 0x00900 State.reset).waiting = none ∧ (placed 0x00900 State.reset).resetIn = none ∧
    (placed 0x00900 State.reset).portWord = some 0x00900 := by decide +kernel

theorem witness_IdleBlockKeepsItsState :
    State.reset.waiting = none ∧ State.reset.inbox = [] ∧ State.reset.portWord = none ∧
    State.reset.resetIn = none := by decide +kernel

theorem witness_WaitingBlockAcceptsNothing :
    { offered 0 State.reset with waiting := some 0 }.waiting = some 0 ∧
    { offered 0 State.reset with waiting := some 0 }.resetIn = none := by decide +kernel

theorem witness_ResetTakesTheResetValues :
    { inState .awaitingRelease 0x31 State.reset with resetIn := some 0 }.resetIn = some 0 := by
  decide +kernel

/-- A `TICK` whose gate is closed has three events; reset after the first, after the last, and one event
beyond. -/
theorem witness_ResetAbandonsTheCommand :
    (∀ n ∈ [1, 3, 4], 0 < n ∧
      (after (proceed { offered 0x100000000 (scripted [] [49]) with
        resetIn := some n })).map State.trace =
        some ((scripted [] [49]).trace ++ [.accepted 0x100000000, .clock 49, .response ⟨.ok, 0⟩])) ∧
    3 ≤ [Event.accepted 0x100000000, .clock 49, .response ⟨.ok, 0⟩].length ∧
    [Event.accepted 0x100000000, .clock 49, .response ⟨.ok, 0⟩].length < 4 := by decide +kernel

/-- The first column right after its write, the last column right before the restoring write, and the
column of a conflict. -/
theorem witness_ResetMidSweepLeavesTheColumnDriven :
    (∀ p ∈ [(1#3, 0, 0, 4), (5#3, 3, 2, 7)],
      let s := { offered (p.1 ++ 0#32) (scripted pressOne [50]) with
        resetIn := some (4 + 3 * p.2.1 + p.2.2.1) }
      s.waiting = none ∧ s.portWord = none ∧ 1 ≤ p.1.toNat ∧ p.1.toNat ≤ 5 ∧
      s.inbox = (p.1 ++ 0#32) :: [] ∧ p.2.2.1 ≤ 2 ∧
      ¬ sub32 s.env.sample s.lastTick < s.cfg.debounceMs ∧
      ([0xEE, 0xDF, 0xBF, 0x7F] : List Byte).length = s.cfg.cols ∧
      s.env.reads = ((0x0E :: [0xEE, 0xDF, 0xBF, 0x7F]) : List Byte).map .drawn ++ [] ∧
      s.env.writes = List.replicate (p.2.1 + 1) true ++ List.replicate (11 - p.2.1) true ∧
      p.2.1 < columnsSwept s.cfg 0x0E [0xEE, 0xDF, 0xBF, 0x7F] ∧
      s.cfg.colLine[p.2.1]? = some p.2.2.2) ∧
    0 < columnsSwept Keypad.k44 0x0C [0xCC, 0xFF, 0xFF, 0xFF] := by decide +kernel

theorem witness_StepKeepsTheInvariant :
    ∃ s t, Sound s ∧ step s = .next t ∧ s.inbox = [0x100000000] :=
  ⟨offered 0x100000000 (scripted pressOne [50]), _,
    sound_of_check (by decide +kernel), rfl, rfl⟩

theorem witness_ResetStateIsSound : k43.wf = true := by decide

/-- The one premise of `StepKeepsTheConfiguration`, `HistoryGrowsAndTimeNeverDecreases` and
`EnvironmentFollowsTheEvents`. -/
theorem witness_StepKeepsTheConfiguration :
    ∃ t, step (offered 0x100000000 (scripted pressOne [50])) = .next t := ⟨_, rfl⟩

theorem witness_HistoryGrowsAndTimeNeverDecreases :
    ∃ t, step (offered 0x400000000 (scripted [] [1])) = .next t := ⟨_, rfl⟩

theorem witness_EnvironmentFollowsTheEvents :
    ∃ t, step (placed 0x10524 (scripted [] [])) = .next t := ⟨_, rfl⟩

/-- Two sound states that differ in the candidate, the slots and the kept clock value. -/
theorem witness_HiddenValuesStayHidden :
    ∃ s t s', Sound s ∧ Sound t ∧ SameVisible s t ∧ step s = .next s' ∧ s ≠ t :=
  ⟨offered 0x100000000 (scripted pressOne [50]),
    { offered 0x100000000 (scripted pressOne [50]) with
      cand := 0x35, waitStart := 9, buf := [1, 2, 3, 4] }, _,
    sound_of_check (by decide +kernel), sound_of_check (by decide +kernel),
    ⟨rfl, rfl, rfl, rfl, rfl, rfl, rfl, rfl, rfl, rfl, rfl, nofun, fun h => absurd rfl h, rfl⟩,
    rfl, by decide +kernel⟩

theorem witness_ReadTransactionReturnsTheDraw :
    (0x0A#8).toNat ≤ 0x0A ∧ (0x00#8).toNat ≤ 0x0A ∧
    (scripted [.drawn 0x0F] []).env.reads = .drawn 0x0F :: [] := by decide +kernel

theorem witness_HealthyReadReturnsTheRegister :
    (∀ a ∈ [0x00#8, 0x08, 0x09, 0x0A], a.toNat ≤ 0x0A) ∧
    (scripted [.healthy [] 0xFF] []).env.reads = .healthy [] 0xFF :: [] := by decide +kernel

theorem witness_WriteTransactionStoresOnce :
    (∀ a ∈ [0x00#8, 0x05, 0x06, 0x09, 0x0A], a.toNat ≤ 0x0A ∧ a ≠ 0x07 ∧ a ≠ 0x08) ∧
    (scripted [] []).env.writes = true :: List.replicate 11 true ∧
    { scripted [] [] with env := { Env.initial with writes := [false] } }.env.writes =
      false :: [] := by decide +kernel

theorem witness_EnvironmentRefusesUnmappedAccesses :
    0x0A < (0x0B#8).toNat ∧ 0x0A < (0xFF#8).toNat := by decide

theorem witness_InvalidBitIndexIsIgnored :
    7 < 8 ∧ Keypad.k44.wf = true ∧ 7 ∈ Keypad.k44.rowLine ++ Keypad.k44.colLine := by decide

/-- V-R5 and V-R6 read bits 0 and 7; V-R12 writes bit 7. -/
theorem witness_BitOperationsReadModifyWrite :
    0 ≤ 7 ∧ 7 ≤ 7 ∧ (0x0A#8).toNat ≤ 0x0A ∧ 0x0A#8 ≠ 0x07 ∧ 0x0A#8 ≠ 0x08 ∧
    (scripted [.drawn 0x80] []).env.reads = .drawn 0x80 :: [] := by decide +kernel

/-- The bytes of V-S2 meet the premises of `ScanIsAFunctionOfTheBytes` and `ScanIssuesTheseEvents`. -/
theorem witness_ScanIsAFunctionOfTheBytes :
    ([0xEE, 0xDF, 0xBF, 0x7F] : List Byte).length = (scripted pressOne []).cfg.cols ∧
    (scripted pressOne []).env.reads = ((0x0E :: [0xEE, 0xDF, 0xBF, 0x7F]) : List Byte).map .drawn ++ [] ∧
    Keypad.k44.wf = true ∧
    (∀ l ∈ Keypad.k44.rowLine, (0x0E#8).getLsbD l = (0xFE#8).getLsbD l) ∧
    (∀ l ∈ Keypad.k44.rowLine, (0xEE#8).getLsbD l = (0x0E#8).getLsbD l) := by decide +kernel

theorem witness_ScanIssuesTheseEvents :
    ([0xCC, 0xFF, 0xFF, 0xFF] : List Byte).length = Keypad.k44.cols ∧
    (scripted ((([0x0C, 0xCC, 0xFF, 0xFF, 0xFF] : List Byte)).map .drawn) []).env.reads =
      ((0x0C :: [0xCC, 0xFF, 0xFF, 0xFF]) : List Byte).map .drawn ++ [] := by decide +kernel

/-- The registers of `prepared` are the fast-path configuration. -/
theorem witness_ScanRestoresTheFastPath :
    FastPath Keypad.k44 (prepared [] []).env.expander ∧
    (prepared [] []).env.writes = List.replicate (Keypad.k44.cols + 1) true ++ List.replicate 7 true :=
  ⟨⟨⟨by decide +kernel, by decide +kernel, by decide +kernel, by decide +kernel, by decide +kernel,
    by decide +kernel, by decide +kernel⟩, by decide +kernel⟩, by decide +kernel⟩

theorem witness_FastPathReadShowsClosedRows :
    Keypad.k44.wf = true ∧ FastPath Keypad.k44 (prepared [] []).env.expander ∧
    (∀ p ∈ [(0, 0), (3, 3)], inMatrix Keypad.k44 p) ∧ Keypad.k44.rowLine[3]? = some 3 :=
  ⟨by decide, witness_ScanRestoresTheFastPath.1, by unfold inMatrix; decide, by decide⟩

/-- No switch, one switch, two switches. -/
theorem witness_HealthyScanClassifiesTheSwitches (closed : List (Nat × Nat))
    (h : closed = [] ∨ closed = [(2, 1)] ∨ closed = [(0, 0), (3, 3)]) :
    let s := prepared (List.replicate 5 (.healthy closed 0xFF)) []
    s.cfg.wf = true ∧ FastPath s.cfg s.env.expander ∧ closed.Nodup ∧
    (∀ p ∈ closed, inMatrix s.cfg p) ∧
    (List.replicate 5 (ReadAnswer.healthy closed 0xFF)).length = s.cfg.cols + 1 ∧
    (∀ a ∈ List.replicate 5 (ReadAnswer.healthy closed 0xFF), ∃ floats, a = .healthy closed floats) ∧
    s.env.reads = List.replicate 5 (.healthy closed 0xFF) ++ [] ∧
    s.env.writes = List.replicate (s.cfg.cols + 1) true ++ List.replicate 7 true := by
  refine ⟨(by decide : Keypad.k44.wf = true), witness_ScanRestoresTheFastPath.1, ?_, ?_, rfl,
    fun a ha => ⟨0xFF, List.eq_of_mem_replicate ha⟩, rfl, rfl⟩
  · rcases h with rfl | rfl | rfl <;> decide
  · rcases h with rfl | rfl | rfl <;> unfold inMatrix <;> decide

/-- One millisecond short of the interval. -/
theorem witness_IneffectiveTickOnlyReadsTheClock :
    sub32 (scripted [] [49]).env.sample (scripted [] [49]).lastTick <
      (scripted [] [49]).cfg.debounceMs := by decide +kernel

/-- At the interval exactly, every cell of the table is reached. -/
theorem witness_EffectiveTickFollowsTheTable :
    ¬ sub32 (scripted [] [50]).env.sample (scripted [] [50]).lastTick <
      (scripted [] [50]).cfg.debounceMs ∧
    (∀ x ∈ [ScanState.awaitingPress, .awaitingDebounce, .awaitingRelease],
      tickResult (inState x 0x31 (scripted pressNone [50])) = some .noKey ∧
      tickResult (inState x 0x31 (scripted pressOne [50])) = some (.key 0x31) ∧
      tickResult (inState x 0x31 (scripted pressD [50])) = some (.key 0x44) ∧
      tickResult (inState x 0x31 (scripted pressThree [50])) = some .conflict) := by decide +kernel

/-- A confirmed press: also a state for `HeadMovesOnlyOnAConfirmedPress`. -/
theorem witness_OnlyAConfirmedPressIsBuffered :
    (tick (inState .awaitingDebounce 0x31 (scripted pressOne [50]))).head ≠
      (inState .awaitingDebounce 0x31 (scripted pressOne [50])).head := by decide +kernel

theorem witness_HeadMovesOnlyOnAConfirmedPress :
    ∃ t, (offered 0x100000000
        (inState .awaitingDebounce 0x31 (scripted pressOne [50]))).resetIn = none ∧
      step (offered 0x100000000
        (inState .awaitingDebounce 0x31 (scripted pressOne [50]))) = .next t ∧
      t.head ≠ (offered 0x100000000
        (inState .awaitingDebounce 0x31 (scripted pressOne [50]))).head :=
  ⟨_, rfl, rfl, by decide +kernel⟩

/-- The second result the same, another key, or no key (E4). -/
theorem witness_TwoEqualSamplesConfirmAPress :
    Sound (scripted [] []) ∧ (scripted [] []).state = .awaitingPress ∧
    tickResults 2 (scripted (pressOne ++ pressOne) [50, 50]) = [.key 0x31, .key 0x31] ∧
    tickResults 2 (scripted (pressOne ++ pressD) [50, 50]) = [.key 0x31, .key 0x44] ∧
    tickResults 2 (scripted (pressOne ++ pressNone) [50, 50]) = [.key 0x31, .noKey] :=
  ⟨sound_of_check (by decide +kernel), by decide +kernel, by decide +kernel, by decide +kernel,
    by decide +kernel⟩

/-- The key stays held for two effective ticks (E6). -/
theorem witness_NoPressIsTakenBeforeARelease :
    (inState .awaitingRelease 0x31 (scripted (pressOne ++ pressOne) [50, 50])).state =
      .awaitingRelease ∧
    KeyResult.noKey ∉ tickResults 2
      (inState .awaitingRelease 0x31 (scripted (pressOne ++ pressOne) [50, 50])) ∧
    tickResults 2 (inState .awaitingRelease 0x31 (scripted (pressOne ++ pressOne) [50, 50])) =
      [.key 0x31, .key 0x31] := by decide +kernel

theorem witness_BufferedSymbolsWereSeenTwice :
    let s := scripted (pressOne ++ pressOne) [50, 50]
    Sound s ∧ s.state = .awaitingPress ∧ unread s = [] ∧ 0x31 ∈ unread (ticks 2 s) :=
  ⟨sound_of_check (by decide +kernel), by decide +kernel, by decide +kernel, by decide +kernel⟩

theorem witness_CountIsTheNumberOfUnread :
    (holding [1, 2, 3] (scripted [] [])).head < Keypad.k44.capacity ∧
    (holding [1, 2, 3] (scripted [] [])).tail < Keypad.k44.capacity := by decide +kernel

/-- A full buffer and one that is not. -/
theorem witness_PushAppendsAndDropsTheOldest :
    Sound (holding [1, 2, 3] (scripted [] [])) ∧ Sound (holding [1, 2] (scripted [] [])) ∧
    unreadCount (holding [1, 2, 3] (scripted [] [])) = Keypad.k44.capacity - 1 ∧
    unreadCount (holding [1, 2] (scripted [] [])) ≠ Keypad.k44.capacity - 1 :=
  ⟨sound_of_check (by decide +kernel), sound_of_check (by decide +kernel), by decide +kernel,
    by decide +kernel⟩

/-- An empty buffer and one with an entry, after a tick. -/
theorem witness_PopTakesTheOldest :
    Sound (scripted [] [1]) ∧ unread (tick (scripted [] [1])) = [] ∧
    Sound (holding [1, 2] (scripted [] [1])) ∧
    unread (tick (holding [1, 2] (scripted [] [1]))) = 1 :: [2] :=
  ⟨sound_of_check (by decide +kernel), by decide +kernel, sound_of_check (by decide +kernel),
    by decide +kernel⟩

theorem witness_PeekShowsTheOldest :
    Sound (scripted [] [1]) ∧ unread (tick (scripted [] [1])) = [] ∧
    Sound (holding [7] (scripted [] [1])) ∧
    unread (tick (holding [7] (scripted [] [1]))) = 7 :: [] :=
  ⟨sound_of_check (by decide +kernel), by decide +kernel, sound_of_check (by decide +kernel),
    by decide +kernel⟩

theorem witness_CountReportsTheUnread :
    Sound (holding [1, 2, 3] (scripted [] [1])) ∧
    (unread (tick (holding [1, 2, 3] (scripted [] [1])))).length < 2 ^ 32 :=
  ⟨sound_of_check (by decide +kernel), by decide +kernel⟩

theorem witness_FlushDiscardsEverything : Sound (holding [1, 2] (scripted [] [1])) :=
  sound_of_check (by decide +kernel)

theorem witness_FlushEqualsRepeatedPops : Sound (holding [1, 2, 3] (scripted [] [1])) :=
  sound_of_check (by decide +kernel)

/-- The state after the first iteration's tick. -/
def firstTick (timeout : Millis) (s : State) : State :=
  tick { s with
         waitStart := s.env.sample, waiting := some timeout, env := s.env.afterSample
         trace := s.trace ++ [.clock s.env.sample, .yield] }

/-- A symbol, no timeout, the timeout just elapsed, the timeout one millisecond away. -/
theorem witness_PopBlockingRunsItsFirstIteration :
    Sound (holding [0x23] (scripted [] [7, 1])) ∧
    unread (firstTick 1 (holding [0x23] (scripted [] [7, 1]))) = 0x23 :: [] ∧
    Sound (scripted [] [5, 1, 1]) ∧
    (unread (firstTick 0 (scripted [] [5, 1, 1])) = [] ∧ (0 : Millis) = 0) ∧
    (unread (firstTick 2 (scripted [] [5, 1, 1])) = [] ∧ (2 : Millis) ≠ 0 ∧
      2 ≤ (firstTick 2 (scripted [] [5, 1, 1])).env.sample - (scripted [] [5, 1, 1]).env.sample) ∧
    (unread (firstTick 3 (scripted [] [5, 1, 1])) = [] ∧ (3 : Millis) ≠ 0 ∧
      ¬ 3 ≤ (firstTick 3 (scripted [] [5, 1, 1])).env.sample -
        (scripted [] [5, 1, 1]).env.sample) :=
  ⟨sound_of_check (by decide +kernel), by decide +kernel, sound_of_check (by decide +kernel),
    by decide +kernel, by decide +kernel, by decide +kernel⟩

/-- The state after a later iteration's tick. -/
def laterTick (s : State) : State := tick { s with trace := s.trace ++ [.yield] }

/-- `s` in a blocking read entered at clock value 0. -/
def blocked (timeout : Millis) (s : State) : State := { s with waiting := some timeout }

theorem witness_WaitingStepRunsOneIteration :
    (Sound (blocked 2 (holding [0x23] (scripted [] [1]))) ∧
      (blocked 2 (holding [0x23] (scripted [] [1]))).waiting = some 2 ∧
      (blocked 2 (holding [0x23] (scripted [] [1]))).resetIn = none ∧
      unread (laterTick (blocked 2 (holding [0x23] (scripted [] [1])))) = 0x23 :: []) ∧
    Sound (blocked 2 (scripted [] [1, 1])) ∧
    (unread (laterTick (blocked 0 (scripted [] [1, 1]))) = [] ∧ (0 : Millis) = 0) ∧
    (unread (laterTick (blocked 2 (scripted [] [1, 1]))) = [] ∧ (2 : Millis) ≠ 0 ∧
      2 ≤ (laterTick (blocked 2 (scripted [] [1, 1]))).env.sample -
        (blocked 2 (scripted [] [1, 1])).waitStart) ∧
    (unread (laterTick (blocked 3 (scripted [] [1, 1]))) = [] ∧ (3 : Millis) ≠ 0 ∧
      ¬ 3 ≤ (laterTick (blocked 3 (scripted [] [1, 1]))).env.sample -
        (blocked 3 (scripted [] [1, 1])).waitStart) :=
  ⟨⟨sound_of_check (by decide +kernel), by decide +kernel, by decide +kernel, by decide +kernel⟩,
    sound_of_check (by decide +kernel), by decide +kernel, by decide +kernel, by decide +kernel⟩

theorem witness_BlockingReadMayWaitForEver :
    let s := blocked 0 (scripted (List.replicate 3 (.drawn 0xFF)) [])
    s.waiting = some 0 ∧ s.resetIn = none ∧ s.head = s.tail ∧
    s.env.reads = List.replicate 3 (.drawn 0xFF) ++ [] := by decide +kernel

theorem witness_BeginInitialisesTheBlock :
    (scripted [] [5]).env.advances = 5 :: [] := by decide +kernel

theorem witness_BeginPreparesThePort :
    ∃ t, (scripted [] [5]).env.writes = List.replicate 8 true ++ List.replicate 4 true ∧
      exec (.begin 0) (scripted [] [5]) = .next t := ⟨_, rfl, rfl⟩

/-- A command, and a later iteration of a blocking read. -/
theorem witness_CommandsIssueOnlyTheseTransactions :
    (∃ t, exec (decode (.command 0x100000000)) (scripted pressOne [50]) = .next t) ∧
    (blocked 0 (scripted pressOne [50])).waiting = some 0 ∧
    (blocked 0 (scripted pressOne [50])).resetIn = none ∧
    (∃ t, step (blocked 0 (scripted pressOne [50])) = .next t) :=
  ⟨⟨_, rfl⟩, rfl, rfl, ⟨_, rfl⟩⟩

/-- One word of each kind: `BEGIN`, a tick that sweeps, the reserved code; and a later iteration. -/
theorem witness_CommandsLeaveTheOtherRegisters :
    (∃ t, exec (decode (.command 0x000000000)) (scripted [] [5]) = .next t) ∧
    (∃ t, exec (decode (.command 0x100000000)) (scripted pressOne [50]) = .next t) ∧
    (∃ t, exec (decode (.command 0x700000000)) (scripted [] []) = .next t) ∧
    (blocked 0 (scripted pressOne [50])).waiting = some 0 ∧
    (blocked 0 (scripted pressOne [50])).resetIn = none ∧
    (∃ t, step (blocked 0 (scripted pressOne [50])) = .next t) :=
  ⟨⟨_, rfl⟩, ⟨_, rfl⟩, ⟨_, rfl⟩, rfl, rfl, ⟨_, rfl⟩⟩

/-- A first iteration that ends on its timeout, and a later one that goes on. -/
theorem witness_ClockReadsOfEachCommand :
    (∃ t events, exec (.popBlocking 2) (scripted [] [5, 1, 1]) = .next t ∧
      t.trace = (scripted [] [5, 1, 1]).trace ++ events ∧
      events = [.clock 5, .yield, .clock 6, .clock 7, .response ⟨.timedOut, 0⟩]) ∧
    (blocked 0 (scripted [] [1])).waiting = some 0 ∧ (blocked 0 (scripted [] [1])).resetIn = none ∧
    (∃ t events, step (blocked 0 (scripted [] [1])) = .next t ∧
      t.trace = (blocked 0 (scripted [] [1])).trace ++ events ∧ events = [.yield, .clock 1]) :=
  ⟨⟨_, _, rfl, rfl, by decide +kernel⟩, rfl, rfl, ⟨_, _, rfl, rfl, by decide +kernel⟩⟩

theorem witness_OneAnswerForEachCommand :
    (∃ t events, exec (decode (.command 0x600000000)) (scripted [] [5, 1]) = .next t ∧
      t.trace = (scripted [] [5, 1]).trace ++ events ∧ events = [.clock 5, .yield, .clock 6]) ∧
    (blocked 1 (scripted [] [1, 0])).waiting = some 1 ∧
    (blocked 1 (scripted [] [1, 0])).resetIn = none ∧
    (∃ t events, step (blocked 1 (scripted [] [1, 0])) = .next t ∧
      t.trace = (blocked 1 (scripted [] [1, 0])).trace ++ events ∧
      events = [.yield, .clock 1, .clock 1, .response ⟨.timedOut, 0⟩]) :=
  ⟨⟨_, _, rfl, rfl, by decide +kernel⟩, rfl, rfl, ⟨_, _, rfl, rfl, by decide +kernel⟩⟩

theorem witness_EffectiveTicksAreSpaced :
    tickResult (scripted [] [49]) = none ∧ tickResult (scripted pressNone [50]) ≠ none := by
  decide +kernel

/-- A command of the host, and a reset that falls into it. -/
theorem witness_HostCannotReachTheExpander :
    ∀ n ∈ [none, some 5],
      { offered 0x100000000 (scripted pressOne [50]) with resetIn := n }.portWord = none ∧
      ∃ t, step { offered 0x100000000 (scripted pressOne [50]) with resetIn := n } = .next t := by
  intro n hn
  rcases List.mem_cons.1 hn with rfl | hn
  · exact ⟨rfl, _, rfl⟩
  · rcases List.mem_singleton.1 hn with rfl
    exact ⟨rfl, _, rfl⟩

end Sys2Proof.Tests
end

section
/-! PROOFS. The statements about the configuration and about the events of a step (00_scope.md). -/

namespace Sys2Proof

/-- The conditions that the check of a configuration tests (R10, with R9 and R12). -/
theorem keypad_wf_iff (k : Keypad) :
    k.wf = true ↔ 1 ≤ k.rows ∧ 1 ≤ k.cols ∧ (∀ l ∈ k.rowLine ++ k.colLine, l < 8) ∧
      (k.rowLine ++ k.colLine).Nodup ∧ k.table.length = k.rows * k.cols ∧
      2 ≤ k.capacity ∧ 0 < k.settleUs := by
  simp only [Keypad.wf, Bool.and_eq_true, decide_eq_true_eq, List.all_eq_true, and_assoc]

/-- Pairwise different expander lines are at most eight. -/
theorem lines_length_le {ls : List Nat} (hb : ∀ l ∈ ls, l < 8) (hd : ls.Nodup) : ls.length ≤ 8 := by
  have hsub : ls ⊆ List.range 8 := fun l hl => List.mem_range.2 (hb l hl)
  simpa using (hd.subperm hsub).length_le

/-- The rows and the columns of a matrix share the eight lines of the expander. -/
theorem rows_add_cols_le {k : Keypad} (h : k.wf = true) : k.rows + k.cols ≤ 8 := by
  obtain ⟨-, -, hb, hd, -⟩ := (keypad_wf_iff k).1 h
  have hlen := lines_length_le hb hd
  rwa [List.length_append] at hlen

/-- A matrix on eight lines has at most 16 positions: 4 rows and 4 columns are the most. -/
theorem rows_mul_cols_le {k : Keypad} (h : k.wf = true) : k.rows * k.cols ≤ 16 := by
  have hsquare : (k.rows + k.cols) ^ 2 ≤ 8 ^ 2 := Nat.pow_le_pow_left (rows_add_cols_le h) 2
  have hmean : 4 * k.rows * k.cols ≤ (k.rows + k.cols) ^ 2 := four_mul_le_sq_add _ _
  rw [mul_assoc] at hmean
  omega

/-- The row-major index of a position is below the number of positions (R18 (c)). -/
theorem tableIndex_lt {k : Keypad} {r c : Nat} (hr : r < k.rows) (hc : c < k.cols) :
    r * k.cols + c < k.rows * k.cols := by
  rw [Nat.mul_comm r]
  exact Nat.mul_add_lt_mul_of_lt_of_lt hr hc

end Sys2Proof

namespace Sys2Proof.Machine

/-! ### Masks -/

/-- Bit `i` of a mask is set exactly for the listed lines (R11). -/
theorem getLsbD_maskOf_iff (ls : List Nat) {i : Nat} (hi : i < 8) :
    (maskOf ls).getLsbD i = true ↔ i ∈ ls := by
  rw [getLsbD_maskOf]
  simp [hi]

/-- Masks of disjoint lists of lines share no bit. -/
theorem maskOf_and_maskOf {ls ms : List Nat} (h : ls.Disjoint ms) : maskOf ls &&& maskOf ms = 0 := by
  refine BitVec.eq_of_getLsbD_eq fun i hi => ?_
  refine (Bool.eq_false_iff.2 fun hboth => ?_).trans BitVec.getLsbD_zero.symm
  rw [BitVec.getLsbD_and, Bool.and_eq_true] at hboth
  obtain ⟨hls, hms⟩ := hboth
  exact h ((getLsbD_maskOf_iff ls hi).1 hls) ((getLsbD_maskOf_iff ms hi).1 hms)

/-! ### The width of the buffer's indices -/

/-- The search for a width finds one if any of its candidates is wide enough. -/
theorem le_two_pow_leastWidth (capacity fuel start : Nat) (h : capacity ≤ 2 ^ (start + fuel)) :
    capacity ≤ 2 ^ leastWidth capacity fuel start := by
  induction fuel generalizing start with
  | zero => exact h
  | succ fuel ih =>
    rw [leastWidth]
    split
    · assumption
    · exact ih (start + 1) (by rwa [Nat.add_right_comm, Nat.add_assoc])

/-- The search passes over no width that is wide enough. -/
theorem leastWidth_le {capacity w : Nat} (hw : capacity ≤ 2 ^ w) (fuel start : Nat)
    (hs : start ≤ w) : leastWidth capacity fuel start ≤ w := by
  induction fuel generalizing start with
  | zero => exact hs
  | succ fuel ih =>
    rw [leastWidth]
    split
    · exact hs
    · rename_i hnarrow
      have hne : start ≠ w := fun e => hnarrow (e ▸ hw)
      exact ih (start + 1) (by omega)

/-- `IDX_W` bits hold `CAPACITY` values: `CAPACITY` candidates are enough for the search (R11). -/
theorem capacity_le_two_pow_idxW (k : Keypad) : k.capacity ≤ 2 ^ idxW k :=
  le_two_pow_leastWidth _ _ _ (by rw [Nat.zero_add]; exact Nat.lt_two_pow_self.le)

/-! ### Construction -/

theorem construct_of_wf {k : Keypad} (h : k.wf = true) (e : Env) :
    construct k e = .next (State.resetWith k e) := if_pos h

theorem construct_of_not_wf {k : Keypad} (h : ¬ k.wf = true) (e : Env) :
    construct k e = .refused .illFormedConfiguration := if_neg h

/-! ### The events of a step -/

/-- A step with the reset input quiet goes on by events that the environment follows. -/
theorem follows_proceed {s t : State} (h : proceed s = .next t) : Follows (fun _ => True) s t :=
  proceed_keeps (kept_follows (fun _ => trivial) s)
    (fun w rest k => follows_trans k (follows_takeCommand w rest s trivial))
    (fun k => follows_trans k (follows_takeTransaction _ s)) (follows_refl _ s) h

/-- A reset within a step lets the first of its events happen, and the environment is as these leave
it; a reset still to come changes neither history nor environment (R232). -/
theorem follows_resetWithin {P : Event → Prop} {s t : State} (n : Nat) (h : Follows P s t) :
    Follows P s (resetWithin n s t) := by
  have hfollows := h
  obtain ⟨events, htrace, -, hevents⟩ := h
  rcases resetWithin_cases n htrace with ⟨-, hreset⟩ | ⟨-, hlater⟩
  · rw [hreset]
    exact ⟨events.take n, rfl, rfl, fun e he => hevents e (List.mem_of_mem_take he)⟩
  · rw [hlater]
    exact follows_congr hfollows rfl rfl rfl rfl

/-- Every step, resets included, goes on by events that the environment follows (R7, R60). -/
theorem follows_step {s t : State} (h : step s = .next t) : Follows (fun _ => True) s t := by
  rcases step_cases h with ⟨-, hquiet⟩ | ⟨-, rfl⟩ | ⟨n, u, -, hrun, rfl⟩
  · exact follows_proceed hquiet
  · exact follows_congr (follows_refl _ s) rfl rfl rfl rfl
  · exact follows_resetWithin (n + 1) (follows_proceed hrun)

end Sys2Proof.Machine

/-! ### The statements -/

namespace Sys2Proof.Proofs

open Sys2Proof Sys2Proof.Machine

/-- Settles O20: the step goes on by events that the environment follows. -/
theorem environmentFollowsTheEvents : Obligations.EnvironmentFollowsTheEvents := by
  intro s t h
  obtain ⟨events, htrace, henv, -⟩ := follows_step h
  exact ⟨events, htrace, henv⟩

/-- Settles O5, by the bits of a mask; no line is both a row line and a column line. -/
theorem masksHoldTheLines : Obligations.MasksHoldTheLines := by
  intro k
  refine ⟨fun i hi => ⟨getLsbD_maskOf_iff _ hi, getLsbD_maskOf_iff _ hi⟩, fun h => ?_⟩
  obtain ⟨-, -, -, hnodup, -⟩ := (keypad_wf_iff k).1 h
  exact maskOf_and_maskOf (List.disjoint_of_nodup_append hnodup)

/-- Settles O6, by the two lemmas about the search for the width. -/
theorem indexWidthIsLeast : Obligations.IndexWidthIsLeast := by
  intro k _
  refine ⟨capacity_le_two_pow_idxW k, fun w hw => leastWidth_le hw _ _ (Nat.zero_le w), ?_⟩
  rintro s rfl hsound
  exact ⟨hsound.headBelow.trans_le (capacity_le_two_pow_idxW s.cfg),
    hsound.tailBelow.trans_le (capacity_le_two_pow_idxW s.cfg)⟩

/-- Settles O7: eight lines make at most 16 positions, and the table has an entry for each. -/
theorem tableIndexStaysInTheTable : Obligations.TableIndexStaysInTheTable := by
  intro k r c h hr hc
  obtain ⟨-, -, -, -, htable, -⟩ := (keypad_wf_iff k).1 h
  have hindex : r * k.cols + c < k.rows * k.cols := tableIndex_lt hr hc
  have hin : r * k.cols + c < k.table.length := htable ▸ hindex
  exact ⟨Nat.le_of_lt_succ (hindex.trans_le (rows_mul_cols_le h)), hin,
    List.getD_eq_getElem _ _ hin⟩

/-- Settles O19: the step's events extend the history, and no event turns true time back. -/
theorem historyGrowsAndTimeNeverDecreases : Obligations.HistoryGrowsAndTimeNeverDecreases := by
  intro s t h
  obtain ⟨events, htrace, henv, -⟩ := follows_step h
  exact ⟨⟨events, htrace⟩, henv ▸ time_le_replay events s.env⟩

/-- Settles O8: the check of construction tests exactly the stated conditions. -/
theorem constructionRefusesIllFormed : Obligations.ConstructionRefusesIllFormed := by
  intro k e
  rw [← keypad_wf_iff k]
  exact ⟨fun h => construct_of_wf h e, fun h => construct_of_not_wf h e⟩

end Sys2Proof.Proofs
end

section
/-! PROOFS. The statements about the block's state: the invariant, the frame of a step, reset, and the
values that no command can show (10_state.md). -/

namespace Sys2Proof.Machine

/-! ### The step by its cases -/

theorem step_of_quiet {s : State} (h : s.resetIn = none) : step s = proceed s := by
  simp only [step, h]

theorem step_of_reset {s : State} (h : s.resetIn = some 0) : step s = .next (resetBlock s) := by
  simp only [step, h]

theorem step_of_later_reset {s t : State} {n : Nat} (h : s.resetIn = some (n + 1))
    (hp : proceed s = .next t) : step s = .next (resetWithin (n + 1) s t) := by
  simp only [step, h, hp]

theorem proceed_of_waiting {s : State} {m : Millis} (h : s.waiting = some m) :
    proceed s = .next (waitIteration m s) := by
  simp only [proceed, h]

theorem proceed_of_idle {s : State} (hw : s.waiting = none) (hp : s.portWord = none)
    (hi : s.inbox = []) : proceed s = .next s := by
  simp only [proceed, fetch, hw, hp, hi]

theorem proceed_of_transaction {s : State} {w : BitVec 17} (hw : s.waiting = none)
    (hp : s.portWord = some w) :
    proceed s = exec (decode (.transaction w)) (takeTransaction s) := by
  simp only [proceed, fetch, hw, hp]

theorem proceed_of_command {s : State} {w : BitVec 35} {rest : List (BitVec 35)}
    (hw : s.waiting = none) (hp : s.portWord = none) (hi : s.inbox = w :: rest) :
    proceed s = exec (decode (.command w)) (takeCommand w rest s) := by
  simp only [proceed, fetch, hw, hp, hi]

/-! ### The configuration -/

theorem kept_cfg (k : Keypad) : Kept (fun s => s.cfg = k) where
  clock := fun _ h => h
  read := fun _ _ h => h
  write := fun _ _ _ h => h
  settle := fun _ h => h
  yield := fun _ h => h
  respond := fun _ _ _ h => h
  push := fun _ _ h => h
  drop := fun _ h => h
  flush := fun _ h => h
  block := fun _ _ _ _ _ _ h => h

theorem proceed_cfg {s t : State} (h : proceed s = .next t) : t.cfg = s.cfg :=
  proceed_keeps (kept_cfg s.cfg) (fun _ _ k => k) (fun k => k) rfl h

theorem resetWithin_cfg {s t : State} (n : Nat) (h : t.cfg = s.cfg) :
    (resetWithin n s t).cfg = s.cfg := by
  unfold resetWithin
  split
  · rfl
  · exact h

/-- No step writes the configuration (R32, R63). -/
theorem step_cfg {s t : State} (h : step s = .next t) : t.cfg = s.cfg := by
  rcases step_cases h with ⟨-, hquiet⟩ | ⟨-, rfl⟩ | ⟨n, u, -, hrun, rfl⟩
  · exact proceed_cfg hquiet
  · rfl
  · exact resetWithin_cfg _ (proceed_cfg hrun)

/-! ### The buffer invariant -/

theorem kept_soundRing : Kept SoundRing where
  clock := fun _ h => soundRing_congr h rfl rfl rfl rfl
  read := fun _ _ h => soundRing_congr h rfl rfl rfl rfl
  write := fun _ _ _ h => soundRing_congr h rfl rfl rfl rfl
  settle := fun _ h => soundRing_congr h rfl rfl rfl rfl
  yield := fun _ h => soundRing_congr h rfl rfl rfl rfl
  respond := fun _ _ _ h => soundRing_congr h rfl rfl rfl rfl
  push := fun x _ h => soundRing_push h x
  drop := fun _ h => soundRing_dropOldest h
  flush := fun _ h => ⟨h.capacity, h.slots, h.head, h.head⟩
  block := fun _ _ _ _ _ _ h => soundRing_congr h rfl rfl rfl rfl

theorem soundRing_proceed {s t : State} (h : SoundRing s) (hp : proceed s = .next t) :
    SoundRing t :=
  proceed_keeps kept_soundRing (fun _ _ k => soundRing_congr k rfl rfl rfl rfl)
    (fun k => soundRing_congr k rfl rfl rfl rfl) h hp

theorem soundRing_resetBlock {s : State} (h : 2 ≤ s.cfg.capacity) : SoundRing (resetBlock s) where
  capacity := h
  slots := List.length_replicate
  head := Nat.lt_of_lt_of_le Nat.zero_lt_two h
  tail := Nat.lt_of_lt_of_le Nat.zero_lt_two h

theorem soundRing_resetWithin {s t : State} (n : Nat) (hs : SoundRing s) (ht : SoundRing t) :
    SoundRing (resetWithin n s t) := by
  unfold resetWithin
  split
  · exact soundRing_resetBlock hs.capacity
  · exact soundRing_congr ht rfl rfl rfl rfl

theorem soundRing_step {s t : State} (h : SoundRing s) (hs : step s = .next t) : SoundRing t := by
  rcases step_cases hs with ⟨-, hquiet⟩ | ⟨-, rfl⟩ | ⟨n, u, -, hrun, rfl⟩
  · exact soundRing_proceed h hquiet
  · exact soundRing_resetBlock h.capacity
  · exact soundRing_resetWithin _ h (soundRing_proceed h hrun)

/-! ### The whole invariant -/

theorem sound_memory {s : State} (h : Sound s) : SoundMemory s.env.expander :=
  ⟨h.memoryWf, h.memoryMapped, h.gpioHoldsNothing, h.ioconReserved⟩

/-- The invariant in its three parts: configuration, ring, expander memory. -/
theorem sound_of_parts {s : State} (hk : s.cfg.wf = true) (hr : SoundRing s)
    (hm : SoundMemory s.env.expander) : Sound s :=
  ⟨hk, hr.slots, hr.head, hr.tail, hm.wf, hm.mapped, hm.gpio, hm.iocon⟩

/-- The environment goes on by the step's events, and each keeps a sound expander memory sound. -/
theorem soundMemory_step {s t : State} (h : SoundMemory s.env.expander) (hs : step s = .next t) :
    SoundMemory t.env.expander := by
  obtain ⟨events, -, henv, -⟩ := follows_step hs
  rw [henv]
  exact soundMemory_replay events h

/-- The expander at its power-on values is sound: no cell is listed. -/
theorem soundMemory_initial : SoundMemory Env.initial.expander :=
  ⟨rfl, rfl, fun _ hc => absurd hc List.not_mem_nil, by decide⟩

theorem sound_resetWith {k : Keypad} (hk : k.wf = true) : Sound (State.resetWith k Env.initial) :=
  sound_of_parts hk
    (soundRing_resetBlock (s := State.resetWith k Env.initial) (keypad_wf_capacity hk))
    soundMemory_initial

/-! ### Where `head` moves -/

/-- `head` stands, or a press is confirmed between `s` and `t` (R150). -/
def HeadMovesByPress (s t : State) : Prop :=
  t.head = s.head ∨ (s.state = .awaitingDebounce ∧ t.state = .awaitingRelease)

theorem headMovesByPress_tick (s : State) : HeadMovesByPress s (tick s) := by
  rcases tick_block_cases s with h | h | ⟨hs, -, h⟩
  · exact .inl (congrArg State.head h :)
  · exact .inl (congrArg State.head h :)
  · exact .inr ⟨hs, (congrArg State.state h :)⟩

/-- What surrounds a tick leaves `head` and the scanner state alone. -/
theorem headMovesByPress_of_tick {s u t : State} (hh : u.head = s.head) (hs : u.state = s.state)
    (th : t.head = (tick u).head) (ts : t.state = (tick u).state) : HeadMovesByPress s t := by
  unfold HeadMovesByPress
  rw [th, ts, ← hh, ← hs]
  exact headMovesByPress_tick u

@[simp] theorem portWrites_head (ws : List (Byte × Byte)) (s : State) :
    (portWrites ws s).head = s.head := by
  induction ws generalizing s with
  | nil => rfl
  | cons w ws ih => exact ih (portWrite w.1 w.2 s)

@[simp] theorem popOrEmpty_head (s : State) : (popOrEmpty s).head = s.head := by
  unfold popOrEmpty
  split <;> rfl
@[simp] theorem popOrEmpty_state (s : State) : (popOrEmpty s).state = s.state := by
  unfold popOrEmpty
  split <;> rfl

@[simp] theorem peekOrEmpty_head (s : State) : (peekOrEmpty s).head = s.head := by
  unfold peekOrEmpty
  split <;> rfl
@[simp] theorem peekOrEmpty_state (s : State) : (peekOrEmpty s).state = s.state := by
  unfold peekOrEmpty
  split <;> rfl

@[simp] theorem timeoutTest_head (m : Millis) (s : State) : (timeoutTest m s).head = s.head := by
  rcases timeoutTest_cases m s with ⟨-, e⟩ | ⟨-, -, e⟩ | ⟨-, -, e⟩ <;> rw [e] <;> rfl
@[simp] theorem timeoutTest_state (m : Millis) (s : State) : (timeoutTest m s).state = s.state := by
  rcases timeoutTest_cases m s with ⟨-, e⟩ | ⟨-, -, e⟩ | ⟨-, -, e⟩ <;> rw [e] <;> rfl

@[simp] theorem waitIteration_head (m : Millis) (s : State) :
    (waitIteration m s).head = (tick (yieldNow s)).head := by
  rcases waitIteration_cases m s with ⟨-, e⟩ | ⟨-, e⟩ <;> simp [e]
@[simp] theorem waitIteration_state (m : Millis) (s : State) :
    (waitIteration m s).state = (tick (yieldNow s)).state := by
  rcases waitIteration_cases m s with ⟨-, e⟩ | ⟨-, e⟩ <;> simp [e]

/-- Each command ticks at most once, and only its tick moves `head` (R33). -/
theorem headMovesByPress_exec {i : Instr} {s t : State} (h : exec i s = .next t) :
    HeadMovesByPress s t := by
  have done : ∀ {u : State}, Host.Outcome.next (φ := Fault) (ρ := Refusal) u = .next t →
      HeadMovesByPress s u → HeadMovesByPress s t := fun hn hu => Host.Outcome.next.inj hn ▸ hu
  cases i with
  | begin arg => exact done h (.inl (by simp))
  | tick arg => exact done h (headMovesByPress_tick s)
  | count arg => exact done h (headMovesByPress_tick s)
  | peek arg =>
    exact done h (headMovesByPress_of_tick rfl rfl (peekOrEmpty_head _) (peekOrEmpty_state _))
  | pop arg =>
    exact done h (headMovesByPress_of_tick rfl rfl (popOrEmpty_head _) (popOrEmpty_state _))
  | flush arg => exact done h (headMovesByPress_tick s)
  | popBlocking m =>
    exact done h (headMovesByPress_of_tick (u := yieldNow (enterWait m s)) rfl rfl
      (waitIteration_head _ _) (waitIteration_state _ _))
  | reserved7 arg => exact done h (.inl rfl)
  | readRegister a v =>
    obtain ⟨-, rfl⟩ := execReadRegister_next (v := v) h
    exact .inl rfl
  | writeRegister a v =>
    obtain ⟨-, rfl⟩ := execWriteRegister_next h
    exact .inl rfl

theorem headMovesByPress_proceed {s t : State} (h : proceed s = .next t) :
    HeadMovesByPress s t := by
  rcases proceed_cases h with ⟨m, -, rfl⟩ | ⟨-, -, -, rfl⟩ | ⟨w, -, -, e⟩ | ⟨w, rest, -, -, -, e⟩
  · exact headMovesByPress_of_tick (u := yieldNow s) rfl rfl
      (waitIteration_head _ _) (waitIteration_state _ _)
  · exact .inl rfl
  · exact headMovesByPress_exec (s := takeTransaction s) e
  · exact headMovesByPress_exec (s := takeCommand w rest s) e

/-! ### Register transactions that the environment takes -/

theorem exec_readRegister_of_mapped {a : Byte} (v : Byte) (s : State) (h : mappedAddress a = true) :
    exec (.readRegister a v) s = .next (portRead a s) := by
  simp [exec, execReadRegister, readRegister, readRefusal, h]

theorem exec_writeRegister_of_writable {a : Byte} (v : Byte) (s : State)
    (h : writableAddress a = true) : exec (.writeRegister a v) s = .next (portWrite a v s) := by
  simp [exec, execWriteRegister, writeRegister, writeRefusal, h]

theorem answer_of_healthy {e : Env} {closed : List (Nat × Nat)} {floats : Byte}
    {reads : List ReadAnswer} (h : e.reads = .healthy closed floats :: reads) (k : Keypad) (a : Byte) :
    e.answer k a = healthyRead k e.expander closed floats a := by
  simp only [Env.answer, h]

theorem afterRead_of_healthy {e : Env} {closed : List (Nat × Nat)} {floats : Byte}
    {reads : List ReadAnswer} (h : e.reads = .healthy closed floats :: reads) (a : Byte) :
    e.afterRead a = { e with
      expander := clearPending a e.expander, reads := reads, draws := e.draws + 1 } := by
  simp only [Env.afterRead, h, List.tail_cons]

/-- A read of `INTCAP` or `GPIO` clears `INTF`, any other read nothing (R58). -/
theorem memory_read_clearPending (a : Byte) (regs : Memory) (x : Nat) :
    Memory.read (clearPending a regs) x =
      if (a = 0x08 ∨ a = 0x09) ∧ x = 7 then 0 else Memory.read regs x := by
  unfold clearPending
  by_cases ha : a = 0x09 ∨ a = 0x08
  · rw [if_pos ha, memory_read_write]
    simp only [ha.symm, true_and]
  · rw [if_neg ha, if_neg fun hx => ha hx.1.symm]

/-! ### What `push` does to the unread entries -/

/-- The buffer holds `CAPACITY - 1` entries exactly if the slot after `head` is the one at `tail`
(R164). -/
theorem nextIndex_head_eq_tail_iff {s : State} (h : SoundRing s) :
    nextIndex s.cfg s.head = s.tail ↔ unreadCount s = s.cfg.capacity - 1 := by
  have hh := h.head
  have ht := h.tail
  have hc := h.capacity
  rw [unreadCount_eq h, nextIndex_eq hh]
  split <;> split <;> omega

/-- The slot after the last unread entry is `head`. -/
theorem ring_index_unreadCount {s : State} (h : SoundRing s) :
    (s.tail + unreadCount s) % s.cfg.capacity = s.head := by
  have hh := h.head
  have ht := h.tail
  have hlt : unreadCount s < s.cfg.capacity := Nat.mod_lt _ (by omega)
  rw [ring_index_eq ht hlt, unreadCount_eq h]
  split <;> split <;> omega

/-- The slot of an unread entry is not the one at `head`. -/
theorem ring_index_ne_head {s : State} (h : SoundRing s) {i : Nat} (hi : i < unreadCount s) :
    (s.tail + i) % s.cfg.capacity ≠ s.head := by
  have hh := h.head
  have ht := h.tail
  have hlt : unreadCount s < s.cfg.capacity := Nat.mod_lt _ (by omega)
  rw [ring_index_eq ht (hi.trans hlt)]
  rw [unreadCount_eq h] at hi
  split at hi <;> split <;> omega

theorem unreadCount_push_of_not_full {s : State} (h : SoundRing s) (x : Symbol)
    (hfull : nextIndex s.cfg s.head ≠ s.tail) : unreadCount (push x s) = unreadCount s + 1 := by
  have hh := h.head
  have ht := h.tail
  rw [unreadCount_eq h, unreadCount_eq (soundRing_push h x)]
  simp only [push_cfg, push_head, push_tail, if_neg hfull]
  rw [nextIndex_eq hh] at hfull ⊢
  by_cases hwrap : s.head + 1 = s.cfg.capacity
  · rw [if_pos hwrap] at hfull ⊢
    split <;> split <;> omega
  · rw [if_neg hwrap] at hfull ⊢
    split <;> split <;> omega

/-- With a slot free, `push` appends (R163). -/
theorem unread_push_of_not_full {s : State} (h : SoundRing s) (x : Symbol)
    (hfull : nextIndex s.cfg s.head ≠ s.tail) : unread (push x s) = unread s ++ [x] := by
  have hold : ∀ i ∈ List.range (unreadCount s),
      (s.buf.set s.head x).getD ((s.tail + i) % s.cfg.capacity) 0 =
        s.buf.getD ((s.tail + i) % s.cfg.capacity) 0 := fun i hi => by
    simp only [List.getD_eq_getElem?_getD,
      List.getElem?_set_ne (ring_index_ne_head h (List.mem_range.1 hi)).symm]
  have hnew : (s.buf.set s.head x).getD ((s.tail + unreadCount s) % s.cfg.capacity) 0 = x := by
    have hin : s.head < s.buf.length := h.slots ▸ h.head
    simp [ring_index_unreadCount h, hin]
  unfold unread
  rw [unreadCount_push_of_not_full h x hfull, List.range_succ, List.map_append]
  simp only [push_buf, push_cfg, push_tail, if_neg hfull, List.map_cons, List.map_nil, hnew]
  rw [List.map_congr_left hold]

theorem nextIndex_ne {k : Keypad} {i : Nat} (hk : 2 ≤ k.capacity) (h : i < k.capacity) :
    nextIndex k i ≠ i := by
  rw [nextIndex_eq h]
  split <;> omega

/-- A push to a full buffer is the removal of the oldest entry and a push (R164). -/
theorem push_of_full {s : State} (h : SoundRing s) (x : Symbol)
    (hfull : nextIndex s.cfg s.head = s.tail) : push x s = push x (dropOldest s) := by
  have hfree : s.tail ≠ nextIndex s.cfg s.tail := (nextIndex_ne h.capacity h.tail).symm
  simp [push, dropOldest, hfull, hfree]

/-- `push` appends to the unread entries, and on overflow the oldest is dropped (R163, R164). -/
theorem unread_push {s : State} (h : SoundRing s) (x : Symbol) :
    unread (push x s) =
      (if nextIndex s.cfg s.head = s.tail then (unread s).drop 1 else unread s) ++ [x] := by
  split
  · have hfull : nextIndex s.cfg s.head = s.tail := ‹_›
    have hne : s.head ≠ s.tail := fun e =>
      nextIndex_ne h.capacity h.head (hfull.trans e.symm)
    have hfree : nextIndex (dropOldest s).cfg (dropOldest s).head ≠ (dropOldest s).tail := by
      simpa [hfull] using (nextIndex_ne h.capacity h.tail).symm
    rw [push_of_full h x hfull, unread_push_of_not_full (soundRing_dropOldest h) x hfree,
      unread_eq_cons h hne, List.drop_one, List.tail_cons]
  · exact unread_push_of_not_full h x ‹_›

/-! ### Updates of two states that agree but for the hidden values -/

section
variable {s t : State}

theorem sameVisible_emit (h : SameVisible s t) (e : Event) : SameVisible (emit e s) (emit e t) :=
  { h with trace := congrArg (· ++ [e]) h.trace }

theorem sameVisible_readClock (h : SameVisible s t) : SameVisible (readClock s) (readClock t) :=
  { h with
    env := congrArg Env.afterSample h.env
    trace := by simp only [readClock_trace, h.env, h.trace] }

theorem sameVisible_portRead (h : SameVisible s t) (a : Byte) :
    SameVisible (portRead a s) (portRead a t) :=
  { h with
    env := congrArg (Env.afterRead · a) h.env
    trace := by simp only [portRead_trace, h.cfg, h.env, h.trace] }

theorem sameVisible_portWrite (h : SameVisible s t) (a v : Byte) :
    SameVisible (portWrite a v s) (portWrite a v t) :=
  { h with
    env := congrArg (Env.afterWrite · a v) h.env
    trace := by simp only [portWrite_trace, h.trace] }

theorem sameVisible_respond (h : SameVisible s t) (st : Status) (d : BitVec 32) :
    SameVisible (respond st d s) (respond st d t) :=
  { h with
    waiting := rfl, waitStart := fun hw => absurd rfl hw
    trace := by simp only [respond_trace, h.trace] }

/-- Entry to a blocking read writes the kept clock value before anything reads it (R170). -/
theorem sameVisible_enterWait (h : SameVisible s t) (m : Millis) :
    SameVisible (enterWait m s) (enterWait m t) :=
  { sameVisible_readClock h with
    waiting := rfl, waitStart := fun _ => congrArg Env.sample h.env }

theorem sameVisible_captureStart (h : SameVisible s t) :
    SameVisible (captureStart s) (captureStart t) :=
  { sameVisible_readClock h with
    state := rfl, lastTick := congrArg Env.sample h.env, cand := nofun }

theorem sameVisible_portWrites (ws : List (Byte × Byte)) :
    ∀ {s t : State}, SameVisible s t → SameVisible (portWrites ws s) (portWrites ws t) := by
  induction ws with
  | nil => exact fun h => h
  | cons w ws ih => exact fun h => ih (sameVisible_portWrite h w.1 w.2)

theorem sameVisible_takeCommand (h : SameVisible s t) (w : BitVec 35) (rest : List (BitVec 35)) :
    SameVisible (takeCommand w rest s) (takeCommand w rest t) :=
  { h with inbox := rfl, trace := by simp only [takeCommand_trace, h.trace] }

theorem sameVisible_takeTransaction (h : SameVisible s t) :
    SameVisible (takeTransaction s) (takeTransaction t) :=
  { h with portWord := rfl }

/-! ### What two such states read alike, and their buffers -/

theorem clockNow_of_sameVisible (h : SameVisible s t) : clockNow s = clockNow t := by
  simp only [clockNow, h.env]

theorem portByte_of_sameVisible (h : SameVisible s t) (a : Byte) : portByte a s = portByte a t := by
  simp only [portByte, h.env, h.cfg]

theorem gateClosed_of_sameVisible (h : SameVisible s t) (now : Millis) :
    gateClosed now s = gateClosed now t := by
  unfold gateClosed
  rw [h.lastTick, h.cfg]

theorem unreadCount_of_sameVisible (h : SameVisible s t) : unreadCount s = unreadCount t := by
  simp only [unreadCount, h.cfg, h.head, h.tail]

theorem bufferEmpty_of_sameVisible (h : SameVisible s t) : bufferEmpty s = bufferEmpty t := by
  simp only [bufferEmpty, h.head, h.tail]

theorem sameVisible_push (h : SameVisible s t) (hs : SoundRing s) (ht : SoundRing t) (x : Symbol) :
    SameVisible (push x s) (push x t) :=
  { h with
    head := by simp only [push_head, h.cfg, h.head]
    tail := by simp only [push_tail, h.cfg, h.head, h.tail]
    unread := by rw [unread_push hs, unread_push ht, h.cfg, h.head, h.tail, h.unread] }

/-- With an entry unread, both states show the same oldest one and keep the same rest. -/
theorem oldest_and_rest_of_sameVisible (h : SameVisible s t) (hs : SoundRing s) (ht : SoundRing t)
    (hne : bufferEmpty s = false) :
    oldest s = oldest t ∧ unread (dropOldest s) = unread (dropOldest t) := by
  have hs' : s.head ≠ s.tail := by simpa [bufferEmpty] using hne
  have ht' : t.head ≠ t.tail := h.head ▸ h.tail ▸ hs'
  have hcons := h.unread
  rw [unread_eq_cons hs hs', unread_eq_cons ht ht'] at hcons
  exact List.cons.inj hcons

theorem sameVisible_dropOldest (h : SameVisible s t) (hs : SoundRing s) (ht : SoundRing t)
    (hne : bufferEmpty s = false) : SameVisible (dropOldest s) (dropOldest t) :=
  { h with
    tail := by simp only [dropOldest_tail, h.cfg, h.tail]
    unread := (oldest_and_rest_of_sameVisible h hs ht hne).2 }

theorem sameVisible_flush (h : SameVisible s t) (hs : SoundRing s) (ht : SoundRing t) :
    SameVisible { s with tail := s.head } { t with tail := t.head } :=
  { h with
    tail := h.head
    unread := by
      rw [(unread_eq_nil_iff (kept_soundRing.flush s hs)).2 rfl,
        (unread_eq_nil_iff (kept_soundRing.flush t ht)).2 rfl] }

/-! ### A tick of two such states -/

theorem sameVisible_sweep (ls : List Nat) : ∀ (c : Nat) (f : Option Symbol) {s t : State},
    SameVisible s t →
      (sweep ls c f s).1 = (sweep ls c f t).1 ∧ SameVisible (sweep ls c f s).2 (sweep ls c f t).2 := by
  have restore : ∀ {s t : State}, SameVisible s t → SameVisible (restorePort s) (restorePort t) :=
    fun {s t} h => by
      unfold restorePort
      rw [← h.cfg]
      exact sameVisible_portWrite h _ _
  induction ls with
  | nil => exact fun c f s t h => ⟨rfl, restore h⟩
  | cons l ls ih =>
    intro c f s t h
    have hdrive : SameVisible (driveColumn l s) (driveColumn l t) :=
      sameVisible_emit (sameVisible_portWrite h _ _) _
    have hread := sameVisible_portRead hdrive 0x09
    simp only [sweep]
    rw [portByte_of_sameVisible hdrive, h.cfg]
    split
    · exact ⟨rfl, restore hread⟩
    · exact ih _ _ hread

/-- A scan reads no hidden value: same result, same events (R128). -/
theorem sameVisible_scanOnce (h : SameVisible s t) :
    (scanOnce s).1 = (scanOnce t).1 ∧ SameVisible (scanOnce s).2 (scanOnce t).2 := by
  have hread := sameVisible_portRead h 0x09
  simp only [scanOnce]
  rw [portByte_of_sameVisible h, h.cfg]
  split
  · exact ⟨rfl, hread⟩
  · exact sameVisible_sweep _ _ _ hread

/-- Outside `AwaitingDebounce` the candidate is hidden, so entering such a state asks nothing of it. -/
theorem sameVisible_state (h : SameVisible s t) {x : ScanState} (hx : x ≠ .awaitingDebounce) :
    SameVisible { s with state := x } { t with state := x } :=
  { h with state := rfl, cand := fun e => absurd e hx }

theorem sameVisible_transition (h : SameVisible s t) (hs : SoundRing s) (ht : SoundRing t)
    (k : KeyResult) : SameVisible (transition k s) (transition k t) := by
  have hstate := h.state
  unfold transition
  rw [← hstate]
  match hx : s.state, k with
  | .awaitingPress, .noKey => exact h
  | .awaitingPress, .key x => exact { h with state := rfl, cand := fun _ => rfl }
  | .awaitingPress, .conflict => exact sameVisible_state h nofun
  | .awaitingDebounce, .noKey => exact sameVisible_state h nofun
  | .awaitingDebounce, .key x =>
    simp only [← h.cand hx]
    split
    · exact sameVisible_state (sameVisible_push h hs ht x) nofun
    · exact sameVisible_state h nofun
  | .awaitingDebounce, .conflict => exact sameVisible_state h nofun
  | .awaitingRelease, .noKey => exact sameVisible_state h nofun
  | .awaitingRelease, .key _ => exact h
  | .awaitingRelease, .conflict => exact h

theorem sameVisible_effectiveTick (h : SameVisible s t) (hs : SoundRing s) (ht : SoundRing t)
    (now : Millis) : SameVisible (effectiveTick now s) (effectiveTick now t) := by
  have hstored : SameVisible { s with lastTick := now } { t with lastTick := now } :=
    { h with lastTick := rfl }
  obtain ⟨hresult, hscan⟩ := sameVisible_scanOnce hstored
  have ring : ∀ {u : State}, SoundRing u → SoundRing (scanOnce { u with lastTick := now }).2 :=
    fun hu => scanOnce_keeps kept_soundRing (soundRing_congr hu rfl rfl rfl rfl)
  simp only [effectiveTick, hresult]
  exact sameVisible_transition hscan (ring hs) (ring ht) _

theorem sameVisible_tick (h : SameVisible s t) (hs : SoundRing s) (ht : SoundRing t) :
    SameVisible (tick s) (tick t) := by
  have hread := sameVisible_readClock h
  unfold tick
  rw [clockNow_of_sameVisible h, gateClosed_of_sameVisible h]
  split
  · exact hread
  · exact sameVisible_effectiveTick hread (kept_soundRing.clock s hs) (kept_soundRing.clock t ht) _

/-! ### A command of two such states -/

theorem sameVisible_popOrEmpty (h : SameVisible s t) (hs : SoundRing s) (ht : SoundRing t) :
    SameVisible (popOrEmpty s) (popOrEmpty t) := by
  unfold popOrEmpty
  rw [← bufferEmpty_of_sameVisible h]
  cases hempty : bufferEmpty s with
  | true => exact sameVisible_respond h _ _
  | false =>
    rw [(oldest_and_rest_of_sameVisible h hs ht hempty).1]
    exact sameVisible_respond (sameVisible_dropOldest h hs ht hempty) _ _

theorem sameVisible_peekOrEmpty (h : SameVisible s t) (hs : SoundRing s) (ht : SoundRing t) :
    SameVisible (peekOrEmpty s) (peekOrEmpty t) := by
  unfold peekOrEmpty
  rw [← bufferEmpty_of_sameVisible h]
  cases hempty : bufferEmpty s with
  | true => exact sameVisible_respond h _ _
  | false =>
    rw [(oldest_and_rest_of_sameVisible h hs ht hempty).1]
    exact sameVisible_respond h _ _

/-- The timeout test reads the kept clock value only in a blocking read. -/
theorem sameVisible_timeoutTest (h : SameVisible s t) (hw : s.waiting ≠ none) (m : Millis) :
    SameVisible (timeoutTest m s) (timeoutTest m t) := by
  have hread := sameVisible_readClock h
  unfold timeoutTest
  rw [clockNow_of_sameVisible h, h.waitStart hw]
  split
  · exact h
  · split
    · exact sameVisible_respond hread _ _
    · exact hread

theorem sameVisible_waitIteration (h : SameVisible s t) (hs : SoundRing s) (ht : SoundRing t)
    (hw : s.waiting ≠ none) (m : Millis) :
    SameVisible (waitIteration m s) (waitIteration m t) := by
  have ring : ∀ {u : State}, SoundRing u → SoundRing (tick (yieldNow u)) :=
    fun hu => tick_keeps kept_soundRing (kept_soundRing.yield _ hu)
  have htick : SameVisible (tick (yieldNow s)) (tick (yieldNow t)) :=
    sameVisible_tick (sameVisible_emit h _) (kept_soundRing.yield s hs) (kept_soundRing.yield t ht)
  simp only [waitIteration, ← bufferEmpty_of_sameVisible htick]
  cases hempty : bufferEmpty (tick (yieldNow s)) with
  | true => exact sameVisible_timeoutTest htick (by simpa using hw) m
  | false =>
    rw [(oldest_and_rest_of_sameVisible htick (ring hs) (ring ht) hempty).1]
    exact sameVisible_respond (sameVisible_dropOldest htick (ring hs) (ring ht) hempty) _ _

end

/-- An outcome that goes on to a state which agrees with `s` but for the hidden values. -/
def GoesOnLike (s : State) (o : Host.Outcome State Fault Refusal) : Prop :=
  ∃ t, o = .next t ∧ SameVisible s t

theorem goesOnLike_of_next {s s' t : State}
    (e : Host.Outcome.next (φ := Fault) (ρ := Refusal) s = .next s')
    (h : SameVisible s t) : GoesOnLike s' (.next t) :=
  ⟨t, rfl, Host.Outcome.next.inj e ▸ h⟩

/-- An instruction run from two such states goes on alike (R46). -/
theorem goesOnLike_exec {i : Instr} {s t s' : State} (h : SameVisible s t) (hs : SoundRing s)
    (ht : SoundRing t) (e : exec i s = .next s') : GoesOnLike s' (exec i t) := by
  have htick : SameVisible (tick s) (tick t) := sameVisible_tick h hs ht
  have ring : ∀ {u : State}, SoundRing u → SoundRing (tick u) := tick_keeps kept_soundRing
  cases i with
  | begin arg =>
    refine goesOnLike_of_next e (sameVisible_respond (sameVisible_captureStart ?_) _ _)
    rw [← h.cfg]
    exact sameVisible_portWrites _ h
  | tick arg => exact goesOnLike_of_next e (sameVisible_respond htick _ _)
  | count arg =>
    refine goesOnLike_of_next e ?_
    rw [← unreadCount_of_sameVisible htick]
    exact sameVisible_respond htick _ _
  | peek arg => exact goesOnLike_of_next e (sameVisible_peekOrEmpty htick (ring hs) (ring ht))
  | pop arg => exact goesOnLike_of_next e (sameVisible_popOrEmpty htick (ring hs) (ring ht))
  | flush arg =>
    exact goesOnLike_of_next e
      (sameVisible_respond (sameVisible_flush htick (ring hs) (ring ht)) _ _)
  | popBlocking m =>
    exact goesOnLike_of_next e (sameVisible_waitIteration (sameVisible_enterWait h m)
      (enterWait_keeps kept_soundRing m hs) (enterWait_keeps kept_soundRing m ht) nofun m)
  | reserved7 arg => exact goesOnLike_of_next e (sameVisible_respond h _ _)
  | readRegister a v =>
    obtain ⟨hmapped, rfl⟩ := execReadRegister_next (v := v) e
    exact ⟨_, exec_readRegister_of_mapped v t hmapped, sameVisible_portRead h a⟩
  | writeRegister a v =>
    obtain ⟨hwritable, rfl⟩ := execWriteRegister_next e
    exact ⟨_, exec_writeRegister_of_writable v t hwritable, sameVisible_portWrite h a v⟩

theorem goesOnLike_proceed {s t s' : State} (h : SameVisible s t) (hs : SoundRing s)
    (ht : SoundRing t) (e : proceed s = .next s') : GoesOnLike s' (proceed t) := by
  rcases proceed_cases e with
    ⟨m, hw, rfl⟩ | ⟨hw, hp, hi, rfl⟩ | ⟨w, hw, hp, e⟩ | ⟨w, rest, hw, hp, hi, e⟩
  · rw [proceed_of_waiting (h.waiting ▸ hw)]
    exact ⟨_, rfl, sameVisible_waitIteration h hs ht (hw ▸ nofun) m⟩
  · rw [proceed_of_idle (h.waiting ▸ hw) (h.portWord ▸ hp) (h.inbox ▸ hi)]
    exact ⟨t, rfl, h⟩
  · rw [proceed_of_transaction (h.waiting ▸ hw) (h.portWord ▸ hp)]
    exact goesOnLike_exec (sameVisible_takeTransaction h) (soundRing_congr hs rfl rfl rfl rfl)
      (soundRing_congr ht rfl rfl rfl rfl) e
  · rw [proceed_of_command (h.waiting ▸ hw) (h.portWord ▸ hp) (h.inbox ▸ hi)]
    exact goesOnLike_exec (sameVisible_takeCommand h w rest) (soundRing_congr hs rfl rfl rfl rfl)
      (soundRing_congr ht rfl rfl rfl rfl) e

/-! ### A reset of two such states -/

theorem sameVisible_refl (s : State) : SameVisible s s :=
  ⟨rfl, rfl, rfl, rfl, rfl, rfl, rfl, rfl, rfl, rfl, rfl, fun _ => rfl, fun _ => rfl, rfl⟩

/-- Reset gives the hidden values the same reset values. -/
theorem resetBlock_of_sameVisible {s t : State} (h : SameVisible s t) :
    resetBlock s = resetBlock t := by
  simp only [resetBlock, h.cfg, h.env, h.inbox, h.portWord, h.trace]

theorem sameVisible_resetWithin {s t s' t' : State} (n : Nat) (h : SameVisible s t)
    (h' : SameVisible s' t') : SameVisible (resetWithin n s s') (resetWithin n t t') := by
  have hevents : newEvents s s' = newEvents t t' := by simp only [newEvents, h.trace, h'.trace]
  unfold resetWithin
  rw [hevents]
  split
  · have habandon : abandon n s s' = abandon n t t' := by
      unfold abandon
      rw [hevents]
      refine resetBlock_of_sameVisible { h with
        env := congrArg (Env.replay · _) h.env
        inbox := h'.inbox
        portWord := h'.portWord
        trace := congrArg (· ++ _) h.trace }
    rw [habandon]
    exact sameVisible_refl _
  · exact { h' with resetIn := rfl }

/-- A step of two such states, resets included, goes on alike (R46). -/
theorem goesOnLike_step {s t s' : State} (h : SameVisible s t) (hs : SoundRing s)
    (ht : SoundRing t) (e : step s = .next s') : GoesOnLike s' (step t) := by
  rcases step_cases e with ⟨hr, hquiet⟩ | ⟨hr, rfl⟩ | ⟨n, u, hr, hrun, rfl⟩
  · rw [step_of_quiet (h.resetIn ▸ hr)]
    exact goesOnLike_proceed h hs ht hquiet
  · rw [step_of_reset (h.resetIn ▸ hr), resetBlock_of_sameVisible h]
    exact ⟨_, rfl, sameVisible_refl _⟩
  · obtain ⟨v, hv, hlike⟩ := goesOnLike_proceed h hs ht hrun
    rw [step_of_later_reset (h.resetIn ▸ hr) hv]
    exact ⟨_, rfl, sameVisible_resetWithin (n + 1) h hlike⟩

end Sys2Proof.Machine

/-! ### The statements -/

namespace Sys2Proof.Proofs

open Sys2Proof Sys2Proof.Machine

/-- Settles O16, part by part: no step changes the configuration, every update keeps the ring, and the
expander follows the step's events. -/
theorem stepKeepsTheInvariant : Obligations.StepKeepsTheInvariant := by
  intro s t hs h
  exact sound_of_parts ((step_cfg h).symm ▸ hs.configured) (soundRing_step (sound_ring hs) h)
    (soundMemory_step (sound_memory hs) h)

/-- Settles O21: every update of two states that agree but for the hidden values keeps the agreement,
and no update's guard reads one. -/
theorem hiddenValuesStayHidden : Obligations.HiddenValuesStayHidden := by
  intro s t s' hs ht h hstep
  exact goesOnLike_step h (sound_ring hs) (sound_ring ht) hstep

/-- Settles O18: no update writes the configuration. -/
theorem stepKeepsTheConfiguration : Obligations.StepKeepsTheConfiguration := by
  intro s t h
  exact step_cfg h

/-- Settles O38: only a tick that confirms a press moves `head`. -/
theorem headMovesOnlyOnAConfirmedPress : Obligations.HeadMovesOnlyOnAConfirmedPress := by
  intro s t hquiet h hmoved
  rw [step_of_quiet hquiet] at h
  exact (headMovesByPress_proceed h).resolve_left hmoved

/-- Settles O13: the step is `resetBlock`, which sets the named values and keeps the rest. -/
theorem resetTakesTheResetValues : Obligations.ResetTakesTheResetValues := by
  intro s h
  exact ⟨resetBlock s, step_of_reset h, rfl, rfl, rfl, rfl, rfl, rfl, List.length_replicate,
    rfl, rfl, rfl, rfl, rfl⟩

/-- Settles O17: `State.reset` is the state after reset of K44, a well-formed configuration. -/
theorem resetStateIsSound : Obligations.ResetStateIsSound :=
  ⟨sound_resetWith (by decide), fun _ hk => sound_resetWith hk⟩

/-- Settles O23: the read is one `portRead`, whose answer and effect the healthy answer gives. -/
theorem healthyReadReturnsTheRegister : Obligations.HealthyReadReturnsTheRegister := by
  intro s a v floats closed reads ha hreads
  refine ⟨portRead a s, exec_readRegister_of_mapped v s (decide_eq_true ha), ?_, fun x => ?_⟩
  · have hexp : (portRead a s).env.expander = clearPending a s.env.expander := by
      rw [portRead_env, afterRead_of_healthy hreads]
    rw [hexp, ← afterRead_of_healthy hreads a, ← healthyRead, ← answer_of_healthy hreads]
    rfl
  · rw [portRead_env, afterRead_of_healthy hreads]
    exact memory_read_clearPending a s.env.expander x

end Sys2Proof.Proofs
end

section
/-! PROOFS. The statements about register accesses, about the transactions of the commands and about
what the reference environment answers (20_memory.md). -/

namespace Sys2Proof.Machine

/-! ### What one transaction does to the expander -/

theorem mappedAddress_iff (a : Byte) : mappedAddress a = true ↔ a.toNat ≤ 0x0A :=
  decide_eq_true_iff

/-- The registers that may be written: those of the map but the two read-only ones (R36, R42). -/
theorem writableAddress_iff (a : Byte) :
    writableAddress a = true ↔ a.toNat ≤ 0x0A ∧ a ≠ 0x07 ∧ a ≠ 0x08 := by
  simp only [writableAddress, Bool.and_eq_true, bne_iff_ne, mappedAddress_iff, and_assoc]

/-- The address at which a write to `a` is stored: `GPIO` at `OLAT` (R43). -/
def storedAt (a : Byte) : Nat := if a = 0x09 then 0x0A else a.toNat

/-- The byte that a write of `v` to `a` stores: `IOCON` without its unimplemented bits (R40). -/
def storedValue (a v : Byte) : Byte := if a = 0x05 then v &&& 0x3E else v

/-- A write to a register that may be written is stored at its address and nowhere else. -/
theorem storeRegister_of_writable {a : Byte} (h : writableAddress a = true) (v : Byte)
    (regs : Memory) : storeRegister a v regs = Memory.write regs (storedAt a) (storedValue a v) := by
  unfold storeRegister storedAt storedValue
  by_cases h9 : a = 0x09
  · subst h9; rfl
  · by_cases h5 : a = 0x05
    · subst h5; rfl
    · simp only [h9, h5, h, if_true, if_false]

theorem memory_read_storeRegister {a : Byte} (h : writableAddress a = true) (v : Byte)
    (regs : Memory) (x : Nat) : Memory.read (storeRegister a v regs) x =
      if x = storedAt a then storedValue a v else Memory.read regs x := by
  rw [storeRegister_of_writable h, memory_read_write]

theorem afterWrite_of_performed {e : Env} {writes : List Bool} (h : e.writes = true :: writes)
    (a v : Byte) : e.afterWrite a v =
      { e with expander := storeRegister a v e.expander, writes := writes, draws := e.draws + 1 } := by
  simp only [Env.afterWrite, Env.performs, h, List.tail_cons, if_true]

theorem afterWrite_of_lost {e : Env} {writes : List Bool} (h : e.writes = false :: writes)
    (a v : Byte) : e.afterWrite a v = { e with writes := writes, draws := e.draws + 1 } := by
  simp only [Env.afterWrite, Env.performs, h, List.tail_cons, Bool.false_eq_true, if_false]

theorem answer_of_drawn {e : Env} {b : Byte} {reads : List ReadAnswer}
    (h : e.reads = .drawn b :: reads) (k : Keypad) (a : Byte) : e.answer k a = b := by
  simp only [Env.answer, h]

theorem afterRead_of_drawn {e : Env} {b : Byte} {reads : List ReadAnswer}
    (h : e.reads = .drawn b :: reads) (a : Byte) :
    e.afterRead a = { e with reads := reads, draws := e.draws + 1 } := by
  simp only [Env.afterRead, h, List.tail_cons]

/-- A write is stored or lost (R53). -/
theorem afterWrite_expander_cases (e : Env) (a v : Byte) :
    (e.afterWrite a v).expander = storeRegister a v e.expander ∨
      (e.afterWrite a v).expander = e.expander := by
  cases h : e.performs
  · exact .inr (by simp [Env.afterWrite, h])
  · exact .inl (by simp [Env.afterWrite, h])

/-- A read leaves the expander alone, but for a pending interrupt that it clears (R58). -/
theorem afterRead_expander_cases (e : Env) (a : Byte) :
    (e.afterRead a).expander = clearPending a e.expander ∨ (e.afterRead a).expander = e.expander := by
  match h : e.reads with
  | [] => exact .inr (by simp [Env.afterRead, h])
  | .drawn _ :: _ => exact .inr (by simp [Env.afterRead, h])
  | .healthy _ _ :: _ => exact .inl (by simp [Env.afterRead, h])

/-- Only a transaction reaches the expander. -/
theorem afterEvent_expander_of_not_transaction (e : Env) {x : Event}
    (h : x.isTransaction = false) : (e.afterEvent x).expander = e.expander := by
  cases x with
  | read a v => exact absurd h (by simp [Event.isTransaction])
  | write a v => exact absurd h (by simp [Event.isTransaction])
  | _ => rfl

/-! ### Accesses that the environment refuses -/

theorem exec_readRegister_of_not_mapped {a : Byte} (v : Byte) (s : State)
    (h : ¬ mappedAddress a = true) :
    exec (.readRegister a v) s = .refused (.noSuchRegister a) := by
  simp [exec, execReadRegister, readRegister, readRefusal, h]

theorem exec_writeRegister_of_not_mapped {a : Byte} (v : Byte) (s : State)
    (h : ¬ mappedAddress a = true) :
    exec (.writeRegister a v) s = .refused (.noSuchRegister a) := by
  simp [exec, execWriteRegister, writeRegister, writeRefusal, writableAddress, h]

theorem exec_writeRegister_of_readOnly {a : Byte} (v : Byte) (s : State)
    (hm : mappedAddress a = true) (hw : ¬ writableAddress a = true) :
    exec (.writeRegister a v) s = .refused (.readOnlyRegister a) := by
  simp [exec, execWriteRegister, writeRegister, writeRefusal, hm, hw]

/-! ### The events of the commands -/

/-- The events of a tick and of what surrounds it in a command: those of a scan, and no other
transaction (R64). -/
def TickEvent (k : Keypad) (x : Event) : Prop := ScanEvent k x ∨ x.isTransaction = false

/-- The events of `BEGIN`: its eight writes, and no other transaction (R64, R191). -/
def BeginEvent (k : Keypad) (x : Event) : Prop :=
  (∃ w ∈ beginWrites k, x = .write w.1 w.2) ∨ x.isTransaction = false

theorem allowed_of_not_transaction (k : Keypad) {x : Event} (h : x.isTransaction = false) :
    x.allowed k := by
  cases x with
  | read a v => exact absurd h (by simp [Event.isTransaction])
  | write a v => exact absurd h (by simp [Event.isTransaction])
  | _ => trivial

theorem inputMask_write_mem_beginWrites (k : Keypad) : (0x00, inputMask k) ∈ beginWrites k := by
  simp [beginWrites]

theorem tickEvent_allowed {k : Keypad} {x : Event} (h : TickEvent k x) : x.allowed k := by
  rcases h with (rfl | ⟨v, rfl⟩ | rfl | ⟨l, hl, rfl⟩) | h
  · trivial
  · rfl
  · exact .inl (inputMask_write_mem_beginWrites k)
  · exact .inr ⟨rfl, l, hl, rfl⟩
  · exact allowed_of_not_transaction k h

theorem beginEvent_allowed {k : Keypad} {x : Event} (h : BeginEvent k x) : x.allowed k := by
  rcases h with ⟨w, hw, rfl⟩ | h
  · exact .inl hw
  · exact allowed_of_not_transaction k h

theorem follows_tick_tickEvent (s : State) : Follows (TickEvent s.cfg) s (tick s) :=
  follows_tick s (fun _ => .inr rfl) fun _ => .inl

theorem follows_respond_tickEvent (k : Keypad) (st : Status) (d : BitVec 32) (s : State) :
    Follows (TickEvent k) s (respond st d s) := follows_respond _ _ _ (.inr rfl)

theorem follows_dropOldest (P : Event → Prop) (s : State) : Follows P s (dropOldest s) :=
  follows_congr (follows_refl P s) rfl rfl rfl rfl

theorem follows_peekOrEmpty (k : Keypad) (s : State) : Follows (TickEvent k) s (peekOrEmpty s) := by
  unfold peekOrEmpty
  split <;> exact follows_respond_tickEvent k _ _ _

theorem follows_popOrEmpty (k : Keypad) (s : State) : Follows (TickEvent k) s (popOrEmpty s) := by
  unfold popOrEmpty
  split
  · exact follows_respond_tickEvent k _ _ _
  · exact follows_trans (follows_dropOldest _ s) (follows_respond_tickEvent k _ _ _)

theorem follows_timeoutTest (k : Keypad) (m : Millis) (s : State) :
    Follows (TickEvent k) s (timeoutTest m s) := by
  have hclock : Follows (TickEvent k) s (readClock s) := follows_readClock s fun _ => .inr rfl
  rcases timeoutTest_cases m s with ⟨-, e⟩ | ⟨-, -, e⟩ | ⟨-, -, e⟩ <;> rw [e]
  · exact follows_refl _ s
  · exact follows_trans hclock (follows_respond_tickEvent k _ _ _)
  · exact hclock

/-- An iteration of the blocking read yields, ticks, and looks at the buffer and the clock (R174). -/
theorem follows_waitIteration (m : Millis) (s : State) :
    Follows (TickEvent s.cfg) s (waitIteration m s) := by
  have htick : Follows (TickEvent s.cfg) s (tick (yieldNow s)) :=
    follows_trans (follows_yieldNow s (.inr rfl)) (follows_tick_tickEvent (yieldNow s))
  rcases waitIteration_cases m s with ⟨-, e⟩ | ⟨-, e⟩ <;> rw [e]
  · exact follows_trans htick (follows_timeoutTest _ m _)
  · exact follows_trans htick
      (follows_trans (follows_dropOldest _ _) (follows_respond_tickEvent _ _ _ _))

theorem follows_enterWait (k : Keypad) (m : Millis) (s : State) :
    Follows (TickEvent k) s (enterWait m s) :=
  follows_congr (follows_readClock s fun _ => .inr rfl) rfl rfl rfl rfl

theorem follows_portWrites {P : Event → Prop} (ws : List (Byte × Byte)) (s : State)
    (h : ∀ w ∈ ws, P (.write w.1 w.2)) : Follows P s (portWrites ws s) := by
  induction ws generalizing s with
  | nil => exact follows_refl P s
  | cons w ws ih =>
    exact follows_trans (follows_portWrite _ _ s (h w List.mem_cons_self))
      (ih _ fun v hv => h v (List.mem_cons_of_mem _ hv))

/-- `BEGIN` goes on by its eight writes, a clock read and the response (R195). -/
theorem follows_begin (s : State) : Follows (BeginEvent s.cfg) s
    (respond .ok 0 (captureStart (portWrites (beginWrites s.cfg) s))) := by
  refine follows_trans (follows_portWrites _ s fun w hw => .inl ⟨w, hw, rfl⟩) ?_
  refine follows_trans (t := captureStart _) ?_ (follows_respond _ _ _ (.inr rfl))
  exact follows_congr (follows_readClock _ fun _ => .inr rfl) rfl rfl rfl rfl

/-- What a command word can do to the history and the environment: `BEGIN` its own events, the
reserved code a response, every other command a tick's events. -/
def CommandEffect (s t : State) : Instr → Prop
  | .begin _ => Follows (BeginEvent s.cfg) s t
  | .reserved7 _ => t = respond .invalid 0 s
  | _ => Follows (TickEvent s.cfg) s t

/-- No command word decodes to a register transaction (R221). -/
theorem decode_command_ne_transaction (w : BitVec 35) (a v : Byte) :
    decode (.command w) ≠ .readRegister a v ∧ decode (.command w) ≠ .writeRegister a v := by
  simp only [decode, decodeCommand]
  split <;> simp

theorem commandEffect_exec {w : BitVec 35} {s t : State}
    (h : exec (decode (.command w)) s = .next t) : CommandEffect s t (decode (.command w)) := by
  have htick : Follows (TickEvent s.cfg) s (tick s) := follows_tick_tickEvent s
  cases hi : decode (.command w) <;> rw [hi] at h
  case readRegister a v => exact absurd hi (decode_command_ne_transaction w a v).1
  case writeRegister a v => exact absurd hi (decode_command_ne_transaction w a v).2
  all_goals obtain rfl := Host.Outcome.next.inj h
  case begin => exact follows_begin s
  case reserved7 => rfl
  case tick => exact follows_trans htick (follows_respond_tickEvent _ _ _ _)
  case count => exact follows_trans htick (follows_respond_tickEvent _ _ _ _)
  case peek => exact follows_trans htick (follows_peekOrEmpty _ _)
  case pop => exact follows_trans htick (follows_popOrEmpty _ _)
  case flush =>
    exact follows_trans (follows_congr htick rfl rfl rfl rfl) (follows_respond_tickEvent _ _ _ _)
  case popBlocking m =>
    exact follows_trans (follows_enterWait _ m s) (follows_waitIteration m (enterWait m s))

/-- A later iteration of a blocking read goes on by a tick's events. -/
theorem follows_step_of_waiting {s t : State} {m : Millis} (hw : s.waiting = some m)
    (hr : s.resetIn = none) (h : step s = .next t) : Follows (TickEvent s.cfg) s t := by
  rw [step_of_quiet hr, proceed_of_waiting hw] at h
  exact Host.Outcome.next.inj h ▸ follows_waitIteration m s

theorem follows_allowed_of_commandEffect {s t : State} {i : Instr} (h : CommandEffect s t i) :
    Follows (Event.allowed s.cfg) s t := by
  cases i with
  | begin => exact follows_mono h fun _ => beginEvent_allowed
  | reserved7 => exact h ▸ follows_respond _ _ _ trivial
  | _ => exact follows_mono h fun _ => tickEvent_allowed

/-! ### The registers of the expander after the commands -/

/-- What every event of a run keeps of the expander, the run keeps. -/
theorem follows_expander_keeps {P : Event → Prop} {Q : Memory → Prop}
    (keep : ∀ (e : Env) (x : Event), P x → Q e.expander → Q (e.afterEvent x).expander)
    {s t : State} (h : Follows P s t) (hs : Q s.env.expander) : Q t.env.expander := by
  obtain ⟨events, -, henv, hevents⟩ := h
  rw [henv]
  clear henv
  generalize s.env = e at hs
  induction events generalizing e with
  | nil => exact hs
  | cons x xs ih =>
    exact ih (fun y hy => hevents y (List.mem_cons_of_mem _ hy)) _
      (keep e x (hevents x List.mem_cons_self) hs)

theorem tickFrame_refl (k : Keypad) (m : Memory) : TickFrame k m m :=
  ⟨fun _ _ _ => rfl, .inl rfl, .inl rfl⟩

/-- A read of `GPIO` clears `INTF` and leaves the rest. -/
theorem tickFrame_clearPending {k : Keypad} {before regs : Memory} (h : TickFrame k before regs) :
    TickFrame k before (clearPending 0x09 regs) where
  others x h0 h7 := by
    rw [memory_read_clearPending, if_neg fun hx => h7 hx.2]
    exact h.others x h0 h7
  intf := .inr (by simp [memory_read_clearPending])
  iodir := by
    rw [memory_read_clearPending, if_neg fun hx => absurd hx.2 (by decide)]
    exact h.iodir

theorem memory_read_storeIodir (v : Byte) (regs : Memory) (x : Nat) :
    Memory.read (storeRegister 0x00 v regs) x = if x = 0 then v else Memory.read regs x :=
  memory_read_storeRegister (a := 0x00) (by decide) v regs x

/-- A write of a restored or column value to `IODIR` leaves the rest. -/
theorem tickFrame_storeIodir {k : Keypad} {before regs : Memory} (h : TickFrame k before regs)
    {v : Byte} (hv : v = inputMask k ∨ ∃ l ∈ k.colLine, v = columnDrive l) :
    TickFrame k before (storeRegister 0x00 v regs) where
  others x h0 h7 := by
    rw [memory_read_storeIodir, if_neg h0]
    exact h.others x h0 h7
  intf := by
    rw [memory_read_storeIodir, if_neg (by decide)]
    exact h.intf
  iodir := by
    rw [memory_read_storeIodir, if_pos rfl]
    exact .inr hv

theorem tickFrame_afterWrite {k : Keypad} {before : Memory} {e : Env}
    (h : TickFrame k before e.expander) {v : Byte}
    (hv : v = inputMask k ∨ ∃ l ∈ k.colLine, v = columnDrive l) :
    TickFrame k before (e.afterWrite 0x00 v).expander := by
  rcases afterWrite_expander_cases e 0x00 v with he | he <;> rw [he]
  · exact tickFrame_storeIodir h hv
  · exact h

theorem tickFrame_afterEvent {k : Keypad} {before : Memory} (e : Env) (x : Event)
    (hx : TickEvent k x) (h : TickFrame k before e.expander) :
    TickFrame k before (e.afterEvent x).expander := by
  rcases hx with (rfl | ⟨v, rfl⟩ | rfl | ⟨l, hl, rfl⟩) | hx
  · exact h
  · rcases afterRead_expander_cases e 0x09 with he | he <;> rw [Env.afterEvent, he]
    · exact tickFrame_clearPending h
    · exact h
  · exact tickFrame_afterWrite h (.inl rfl)
  · exact tickFrame_afterWrite h (.inr ⟨l, hl, rfl⟩)
  · rw [afterEvent_expander_of_not_transaction e hx]
    exact h

theorem tickFrame_of_follows {k : Keypad} {s t : State} (h : Follows (TickEvent k) s t) :
    TickFrame k s.env.expander t.env.expander :=
  follows_expander_keeps (Q := TickFrame k s.env.expander) tickFrame_afterEvent h
    (tickFrame_refl k _)

/-- `BEGIN` writes each of the addresses 0x00 to 0x06 and 0x0A, and no other (R191). -/
theorem beginWrites_addresses {k : Keypad} {w : Byte × Byte} (h : w ∈ beginWrites k) :
    writableAddress w.1 = true ∧ (storedAt w.1 ≤ 0x06 ∨ storedAt w.1 = 0x0A) := by
  have haddresses : ∀ a ∈ ([0x05, 0x01, 0x02, 0x03, 0x04, 0x06, 0x0A, 0x00] : List Byte),
      writableAddress a = true ∧ (storedAt a ≤ 0x06 ∨ storedAt a = 0x0A) := by decide
  exact haddresses w.1 (List.mem_map_of_mem (f := Prod.fst) h)

/-- Events of `BEGIN` keep what the addresses it does not write read as. -/
theorem memory_read_afterEvent_of_beginEvent {k : Keypad} (e : Env) (x : Event)
    (hx : BeginEvent k x) {a : Nat} (ha : ¬ (a ≤ 0x06 ∨ a = 0x0A)) :
    Memory.read (e.afterEvent x).expander a = Memory.read e.expander a := by
  rcases hx with ⟨w, hw, rfl⟩ | hx
  · obtain ⟨hwritable, hstored⟩ := beginWrites_addresses hw
    rcases afterWrite_expander_cases e w.1 w.2 with he | he <;> rw [Env.afterEvent, he]
    rw [memory_read_storeRegister hwritable, if_neg]
    rintro rfl
    exact ha hstored
  · rw [afterEvent_expander_of_not_transaction e hx]

theorem memory_read_of_follows_begin {k : Keypad} {s t : State} (h : Follows (BeginEvent k) s t)
    {a : Nat} (ha : ¬ (a ≤ 0x06 ∨ a = 0x0A)) :
    Memory.read t.env.expander a = Memory.read s.env.expander a :=
  follows_expander_keeps (Q := fun m => Memory.read m a = Memory.read s.env.expander a)
    (fun e x hx hm => (memory_read_afterEvent_of_beginEvent e x hx ha).trans hm) h rfl

/-! ### Bytes as sets of lines -/

/-- A byte is not 0 exactly if one of its eight bits is set. -/
theorem byte_ne_zero_iff (b : Byte) : b ≠ 0 ↔ ∃ i < 8, b.getLsbD i = true := by
  refine ⟨fun h => ?_, ?_⟩
  · by_contra hnone
    push Not at hnone
    refine h (BitVec.eq_of_getLsbD_eq fun i hi => ?_)
    rw [Bool.eq_false_iff.2 (hnone i hi)]
    exact BitVec.getLsbD_zero.symm
  · rintro ⟨i, -, hi⟩ rfl
    simp at hi

theorem getLsbD_packBits (f : Nat → Bool) {n : Nat} (hn : n ≤ 8) (i : Nat) :
    (packBits f n).getLsbD i = (decide (i < n) && f i) := by
  induction n with
  | zero => simp [packBits]
  | succ n ih =>
    have hbit : (packBits f (n + 1)).getLsbD i =
        ((packBits f n).getLsbD i || (f n && (lineBit n).getLsbD i)) := by
      cases h : f n <;> simp [packBits, h]
    rw [hbit, ih (by omega), getLsbD_lineBit]
    by_cases hi : i = n
    · subst hi
      simp [show i < 8 by omega]
    · simp [hi, show i < n + 1 ↔ i < n by omega]

/-! ### The lines of a well-formed configuration -/

theorem lines_lt {k : Keypad} (h : k.wf = true) : ∀ l ∈ k.rowLine ++ k.colLine, l < 8 := by
  obtain ⟨-, -, hlt, -⟩ := (keypad_wf_iff k).1 h
  exact hlt

theorem rowLine_lt {k : Keypad} (h : k.wf = true) {l : Nat} (hl : l ∈ k.rowLine) : l < 8 :=
  lines_lt h l (List.mem_append_left _ hl)

theorem colLine_lt {k : Keypad} (h : k.wf = true) {l : Nat} (hl : l ∈ k.colLine) : l < 8 :=
  lines_lt h l (List.mem_append_right _ hl)

theorem lines_nodup {k : Keypad} (h : k.wf = true) : (k.rowLine ++ k.colLine).Nodup := by
  obtain ⟨-, -, -, hnodup, -⟩ := (keypad_wf_iff k).1 h
  exact hnodup

theorem rowLine_ne_colLine {k : Keypad} (h : k.wf = true) {a b : Nat} (ha : a ∈ k.rowLine)
    (hb : b ∈ k.colLine) : a ≠ b := by
  rintro rfl
  exact List.disjoint_of_nodup_append (lines_nodup h) ha hb

theorem rowLine_index_eq {k : Keypad} (h : k.wf = true) {r r' l : Nat}
    (hr : k.rowLine[r]? = some l) (hr' : k.rowLine[r']? = some l) : r = r' := by
  obtain ⟨hlt, -⟩ := List.getElem?_eq_some_iff.1 hr
  exact (List.getElem?_inj hlt (lines_nodup h).of_append_left).1 (hr.trans hr'.symm)

theorem colLine_index_eq {k : Keypad} (h : k.wf = true) {c c' l : Nat}
    (hc : k.colLine[c]? = some l) (hc' : k.colLine[c']? = some l) : c = c' := by
  obtain ⟨hlt, -⟩ := List.getElem?_eq_some_iff.1 hc
  exact (List.getElem?_inj hlt (lines_nodup h).of_append_right).1 (hc.trans hc'.symm)

/-- The wires are the pairs of lines at the closed positions (R66). -/
theorem mem_wiring_iff {k : Keypad} {closed : List (Nat × Nat)} {a b : Nat} :
    (a, b) ∈ wiring k closed ↔
      ∃ r c, (r, c) ∈ closed ∧ k.rowLine[r]? = some a ∧ k.colLine[c]? = some b := by
  simp only [wiring, List.mem_filterMap, Prod.exists]
  refine exists_congr fun r => exists_congr fun c => and_congr_right fun _ => ?_
  cases k.rowLine[r]? <;> cases k.colLine[c]? <;> simp

/-! ### The test of the fast path (R121) -/

/-- The fast-path test: every row line reads high (R121). -/
theorem allRowsHigh_iff (k : Keypad) (g : Byte) :
    allRowsHigh k g = true ↔ g &&& inputMask k = inputMask k := by
  simp [allRowsHigh, BitVec.xor_eq_zero_iff]

theorem and_inputMask_eq_iff {k : Keypad} (h : k.wf = true) (g : Byte) :
    g &&& inputMask k = inputMask k ↔ ∀ l ∈ k.rowLine, g.getLsbD l = true := by
  refine ⟨fun he l hl => ?_, fun hall => BitVec.eq_of_getLsbD_eq fun i hi => ?_⟩
  · have hbit := (getLsbD_maskOf_iff k.rowLine (rowLine_lt h hl)).2 hl
    rw [← inputMask, ← he, BitVec.getLsbD_and, Bool.and_eq_true] at hbit
    exact hbit.1
  · rw [BitVec.getLsbD_and]
    cases hm : (inputMask k).getLsbD i
    · exact Bool.and_false _
    · rw [hall i ((getLsbD_maskOf_iff k.rowLine hi).1 hm), Bool.and_true]

/-! ### The net of a line (R66) -/

theorem getLsbD_joinWire_of_getLsbD {net : Byte} {i : Nat} (w : Nat × Nat)
    (h : net.getLsbD i = true) : (joinWire net w).getLsbD i = true := by
  unfold joinWire
  split
  · simp [h]
  · exact h

theorem getLsbD_foldl_joinWire {wires : List (Nat × Nat)} {net : Byte} {i : Nat}
    (h : net.getLsbD i = true) : (wires.foldl joinWire net).getLsbD i = true := by
  induction wires generalizing net with
  | nil => exact h
  | cons w ws ih => exact ih (getLsbD_joinWire_of_getLsbD w h)

theorem getLsbD_growNet {wires : List (Nat × Nat)} {net : Byte} {i : Nat} (n : Nat)
    (h : net.getLsbD i = true) : (growNet wires n net).getLsbD i = true := by
  induction n generalizing net with
  | zero => exact h
  | succ n ih => exact ih (getLsbD_foldl_joinWire h)

/-- One pass joins the line at the other end of a wire. -/
theorem getLsbD_foldl_joinWire_of_mem {wires : List (Nat × Nat)} {net : Byte} {a b : Nat}
    (hw : (a, b) ∈ wires) (hb : b < 8) (h : net.getLsbD a = true) :
    (wires.foldl joinWire net).getLsbD b = true := by
  induction wires generalizing net with
  | nil => exact absurd hw List.not_mem_nil
  | cons w ws ih =>
    rcases List.mem_cons.1 hw with rfl | hw
    · refine getLsbD_foldl_joinWire (wires := ws) ?_
      simp only [joinWire, h, Bool.true_or, if_true, BitVec.getLsbD_or, getLsbD_lineBit, hb,
        decide_true, Bool.and_self, Bool.or_true]
    · exact ih hw (getLsbD_joinWire_of_getLsbD w h)

/-- A line is in its own net. -/
theorem getLsbD_netOf_self (wires : List (Nat × Nat)) {l : Nat} (hl : l < 8) :
    (netOf wires l).getLsbD l = true :=
  getLsbD_growNet 8 (by simp [getLsbD_lineBit, hl])

/-- A line joined by one wire is in the net. -/
theorem getLsbD_netOf_of_wire {wires : List (Nat × Nat)} {a b : Nat} (hw : (a, b) ∈ wires)
    (ha : a < 8) (hb : b < 8) : (netOf wires a).getLsbD b = true :=
  getLsbD_growNet 7 (getLsbD_foldl_joinWire_of_mem hw hb (by simp [getLsbD_lineBit, ha]))

/-- No wire joins a line of the set `S` to a line outside. -/
def Separate (wires : List (Nat × Nat)) (S : Nat → Prop) : Prop := ∀ w ∈ wires, S w.1 ↔ S w.2

theorem joinWire_within {S : Nat → Prop} {net : Byte} {w : Nat × Nat} (hw : S w.1 ↔ S w.2)
    (h : ∀ i, net.getLsbD i = true → S i) (i : Nat) (hi : (joinWire net w).getLsbD i = true) :
    S i := by
  unfold joinWire at hi
  split at hi
  · rename_i hjoined
    have hends : S w.1 ∧ S w.2 := by
      rcases Bool.or_eq_true_iff.1 hjoined with hend | hend
      · exact ⟨h _ hend, hw.1 (h _ hend)⟩
      · exact ⟨hw.2 (h _ hend), h _ hend⟩
    simp only [BitVec.getLsbD_or, getLsbD_lineBit, Bool.or_eq_true, Bool.and_eq_true,
      decide_eq_true_eq] at hi
    rcases hi with (hi | ⟨-, rfl⟩) | ⟨-, rfl⟩
    · exact h i hi
    · exact hends.1
    · exact hends.2
  · exact h i hi

theorem foldl_joinWire_within {S : Nat → Prop} {wires : List (Nat × Nat)}
    (hS : Separate wires S) {net : Byte} (h : ∀ i, net.getLsbD i = true → S i) :
    ∀ i, (wires.foldl joinWire net).getLsbD i = true → S i := by
  induction wires generalizing net with
  | nil => exact h
  | cons w ws ih =>
    exact ih (fun v hv => hS v (List.mem_cons_of_mem _ hv))
      (joinWire_within (hS w List.mem_cons_self) h)

theorem growNet_within {S : Nat → Prop} {wires : List (Nat × Nat)} (hS : Separate wires S)
    (n : Nat) {net : Byte} (h : ∀ i, net.getLsbD i = true → S i) :
    ∀ i, (growNet wires n net).getLsbD i = true → S i := by
  induction n generalizing net with
  | zero => exact h
  | succ n ih => exact ih (foldl_joinWire_within hS h)

/-- A net stays within every separate set of lines that holds its line. -/
theorem netOf_within {S : Nat → Prop} {wires : List (Nat × Nat)} {l : Nat} (hS : Separate wires S)
    (hl : S l) {i : Nat} (hi : (netOf wires l).getLsbD i = true) : S i := by
  refine growNet_within hS 8 (fun j hj => ?_) i hi
  rw [getLsbD_lineBit, Bool.and_eq_true, decide_eq_true_eq, decide_eq_true_eq] at hj
  exact hj.2 ▸ hl

/-- A line at the end of no wire is a net of its own. -/
theorem eq_of_mem_netOf_of_no_wire {wires : List (Nat × Nat)} {l i : Nat}
    (h : ∀ w ∈ wires, w.1 ≠ l ∧ w.2 ≠ l) (hi : (netOf wires l).getLsbD i = true) : i = l :=
  netOf_within (S := fun j => j = l) (fun w hw => iff_of_false (h w hw).1 (h w hw).2) rfl hi

/-- One wire joins its two ends and nothing else. -/
theorem mem_netOf_single_wire {a b l i : Nat} (hb : b ≠ l)
    (hi : (netOf [(a, b)] l).getLsbD i = true) : i = l ∨ (l = a ∧ i = b) := by
  refine netOf_within (S := fun j => j = l ∨ (l = a ∧ j = b)) (fun w hw => ?_) (.inl rfl) hi
  obtain rfl := List.mem_singleton.1 hw
  constructor
  · rintro (rfl | ⟨rfl, -⟩) <;> exact .inr ⟨rfl, rfl⟩
  · rintro (h | ⟨rfl, -⟩)
    · exact absurd h hb
    · exact .inl rfl

/-! ### What the reference environment answers -/

/-- With `OLAT` 0 and the pull-ups of the row lines on, the net of a row line that is an input is low
exactly if it holds an output (R67). -/
theorem netLevel_eq_false_iff {k : Keypad} {regs : Memory} {net : Byte} {l : Nat} (floats : Byte)
    (hp : PortPrepared k regs) (hl : l ∈ k.rowLine) (h8 : l < 8) (hnet : net.getLsbD l = true)
    (hin : (Memory.read regs 0x00).getLsbD l = true) :
    netLevel regs floats net = false ↔
      ∃ i < 8, net.getLsbD i = true ∧ (Memory.read regs 0x00).getLsbD i = false := by
  have hlow : net &&& ~~~(Memory.read regs 0x00) &&& ~~~(Memory.read regs 0x0A) ≠ 0 ↔
      ∃ i < 8, net.getLsbD i = true ∧ (Memory.read regs 0x00).getLsbD i = false := by
    have holat : ~~~(Memory.read regs 0x0A) = BitVec.allOnes 8 := by rw [hp.olat]; rfl
    rw [holat, BitVec.and_allOnes, byte_ne_zero_iff]
    refine exists_congr fun i => and_congr_right fun hi => ?_
    rw [BitVec.getLsbD_and, BitVec.getLsbD_not, Bool.and_eq_true]
    simp only [hi, decide_true, Bool.true_and, Bool.not_eq_true']
  have hpulled : net &&& ((~~~(Memory.read regs 0x00) &&& Memory.read regs 0x0A) |||
      (Memory.read regs 0x00 &&& Memory.read regs 0x06)) ≠ 0 := by
    refine (byte_ne_zero_iff _).2 ⟨l, h8, ?_⟩
    simp [hnet, hin, hp.gppu, inputMask, getLsbD_maskOf, h8, hl]
  unfold netLevel
  by_cases h : net &&& ~~~(Memory.read regs 0x00) &&& ~~~(Memory.read regs 0x0A) ≠ 0
  · simp only [if_pos h, true_iff]
    exact hlow.1 h
  · simp only [if_neg h, if_pos hpulled, Bool.true_eq_false, false_iff]
    exact fun hex => h (hlow.2 hex)

/-- A row line that is an input reads 0 exactly if its net holds an output (R67, R68). -/
theorem healthyRead_row_eq_false_iff {k : Keypad} {regs : Memory} (hk : k.wf = true)
    (hp : PortPrepared k regs) (closed : List (Nat × Nat)) (floats : Byte) {l : Nat}
    (hl : l ∈ k.rowLine) (hin : (Memory.read regs 0x00).getLsbD l = true) :
    (healthyRead k regs closed floats 0x09).getLsbD l = false ↔
      ∃ i < 8, (netOf (wiring k closed) l).getLsbD i = true ∧
        (Memory.read regs 0x00).getLsbD i = false := by
  have h8 : l < 8 := rowLine_lt hk hl
  have hbit : (healthyRead k regs closed floats 0x09).getLsbD l =
      netLevel regs floats (netOf (wiring k closed) l) := by
    have hgpio : healthyRead k regs closed floats 0x09 =
        packBits (fun i => netLevel regs floats (netOf (wiring k closed) i)) 8 := by
      simp [healthyRead, gpioLevels, hp.ipol]
    rw [hgpio, getLsbD_packBits _ le_rfl, decide_eq_true h8, Bool.true_and]
  rw [hbit]
  exact netLevel_eq_false_iff floats hp hl h8 (getLsbD_netOf_self _ h8) hin

/-- The lines at a closed position are in one net. -/
theorem getLsbD_netOf_of_closed {k : Keypad} (hk : k.wf = true) {closed : List (Nat × Nat)}
    {r c a b : Nat} (h : (r, c) ∈ closed) (ha : k.rowLine[r]? = some a)
    (hb : k.colLine[c]? = some b) : (netOf (wiring k closed) a).getLsbD b = true :=
  getLsbD_netOf_of_wire (mem_wiring_iff.2 ⟨r, c, h, ha, hb⟩)
    (rowLine_lt hk (List.mem_of_getElem? ha)) (colLine_lt hk (List.mem_of_getElem? hb))

/-- The net of a row line with no closed switch is the line alone. -/
theorem eq_of_mem_netOf_of_open_row {k : Keypad} (hk : k.wf = true) {closed : List (Nat × Nat)}
    {r l i : Nat} (hr : k.rowLine[r]? = some l) (hopen : ∀ c, (r, c) ∉ closed)
    (hi : (netOf (wiring k closed) l).getLsbD i = true) : i = l := by
  refine eq_of_mem_netOf_of_no_wire (fun w hw => ?_) hi
  obtain ⟨r', c, hclosed, ha, hb⟩ := mem_wiring_iff.1 hw
  refine ⟨fun he => ?_, fun he => ?_⟩
  · obtain rfl := rowLine_index_eq hk hr (he ▸ ha)
    exact hopen c hclosed
  · exact rowLine_ne_colLine hk (List.mem_of_getElem? hr) (List.mem_of_getElem? hb) he.symm

/-- In the fast-path configuration a row line reads 0 exactly when a switch of its row is closed
(R68): every column line drives low, and no row line does. -/
theorem fastPath_row_eq_false_iff {k : Keypad} {regs : Memory} (hk : k.wf = true)
    (hf : FastPath k regs) {closed : List (Nat × Nat)} (hin : ∀ p ∈ closed, inMatrix k p)
    (floats : Byte) {r l : Nat} (hr : k.rowLine[r]? = some l) :
    (healthyRead k regs closed floats 0x09).getLsbD l = false ↔ ∃ c, (r, c) ∈ closed := by
  have hl : l ∈ k.rowLine := List.mem_of_getElem? hr
  have hinput : ∀ {i}, i < 8 → ((Memory.read regs 0x00).getLsbD i = true ↔ i ∈ k.rowLine) := by
    intro i hi
    rw [hf.iodir]
    exact getLsbD_maskOf_iff k.rowLine hi
  rw [healthyRead_row_eq_false_iff hk hf.toPortPrepared closed floats hl
    ((hinput (rowLine_lt hk hl)).2 hl)]
  constructor
  · rintro ⟨i, h8, hnet, hout⟩
    by_contra hopen
    obtain rfl := eq_of_mem_netOf_of_open_row hk hr (not_exists.1 hopen) hnet
    exact Bool.eq_false_iff.1 hout ((hinput h8).2 hl)
  · rintro ⟨c, hclosed⟩
    have hc : k.colLine[c]? = some (k.colLine[c]'(hin _ hclosed).2) := List.getElem?_eq_getElem _
    have hb := List.mem_of_getElem? hc
    refine ⟨_, colLine_lt hk hb, getLsbD_netOf_of_closed hk hclosed hr hc, ?_⟩
    exact Bool.eq_false_iff.2 fun h =>
      rowLine_ne_colLine hk ((hinput (colLine_lt hk hb)).1 h) hb rfl

/-- While only the column line `d` is driven, a row line reads 0 exactly when it is in the net of `d`
(R68). -/
theorem driven_row_eq_false_iff {k : Keypad} {regs : Memory} (hk : k.wf = true)
    (hp : PortPrepared k regs) {d : Nat} (hd : d ∈ k.colLine)
    (hdrive : Memory.read regs 0x00 = columnDrive d) (closed : List (Nat × Nat)) (floats : Byte)
    {l : Nat} (hl : l ∈ k.rowLine) :
    (healthyRead k regs closed floats 0x09).getLsbD l = false ↔
      (netOf (wiring k closed) l).getLsbD d = true := by
  have hbit : ∀ i, (Memory.read regs 0x00).getLsbD i = (decide (i < 8) && decide (i ≠ d)) := by
    intro i
    rw [hdrive, getLsbD_columnDrive]
  rw [healthyRead_row_eq_false_iff hk hp closed floats hl
    (by simp [hbit, rowLine_lt hk hl, rowLine_ne_colLine hk hl hd])]
  constructor
  · rintro ⟨i, h8, hnet, hout⟩
    obtain rfl : i = d := by
      rwa [hbit, decide_eq_true h8, Bool.true_and, decide_eq_false_iff_not, not_ne_iff] at hout
    exact hnet
  · exact fun h => ⟨d, colLine_lt hk hd, h, by simp [hbit]⟩

/-! ### The result of a scan as a function of the bytes returned (R130) -/

/-- The positions of column `c` that read low in `g`, among the row lines `ls` whose first index is
`r`. -/
def lowRows (g : Byte) (c : Nat) (ls : List Nat) (r : Nat) : List (Nat × Nat) :=
  ((ls.zipIdx r).filter fun row => !(g.getLsbD row.1)).map fun row => (row.2, c)

theorem lowRows_cons (g : Byte) (c l : Nat) (ls : List Nat) (r : Nat) :
    lowRows g c (l :: ls) r =
      if g.getLsbD l then lowRows g c ls (r + 1) else (r, c) :: lowRows g c ls (r + 1) := by
  cases h : g.getLsbD l <;> simp [lowRows, h, -BitVec.getLsbD_eq_getElem]

/-- `lowPairs` of the columns from index `c` on. -/
def lowPairsFrom (k : Keypad) (c : Nat) (gs : List Byte) : List (Nat × Nat) :=
  (gs.zipIdx c).flatMap fun column => lowRows column.1 column.2 k.rowLine 0

theorem lowPairs_eq (k : Keypad) (gs : List Byte) : lowPairs k gs = lowPairsFrom k 0 gs := rfl

theorem lowPairsFrom_cons (k : Keypad) (c : Nat) (g : Byte) (gs : List Byte) :
    lowPairsFrom k c (g :: gs) = lowRows g c k.rowLine 0 ++ lowPairsFrom k (c + 1) gs := rfl

/-- The symbols of a list of positions. -/
def symbolsAt (k : Keypad) (ps : List (Nat × Nat)) : List Symbol :=
  ps.map fun p => symbolAt k p.1 p.2

/-- The candidate after positions with these symbols have read low, `none` if they are a conflict. -/
def candidateOf : List Symbol → Option (Option Symbol)
  | [] => some none
  | [x] => some (some x)
  | _ :: _ :: _ => none

/-- The result of a sweep in which positions with these symbols read low. -/
def classify : List Symbol → KeyResult
  | [] => .noKey
  | [x] => .key x
  | _ :: _ :: _ => .conflict

theorem eq_toList_of_candidateOf {xs : List Symbol} {f : Option Symbol}
    (h : candidateOf xs = some f) : xs = f.toList := by
  match xs, h with
  | [], h => obtain rfl := Option.some.inj h; rfl
  | [x], h => obtain rfl := Option.some.inj h; rfl

theorem classify_append_of_candidateOf {xs : List Symbol} (h : candidateOf xs = none)
    (ys : List Symbol) : classify (xs ++ ys) = .conflict := by
  match xs, h with
  | _ :: _ :: _, _ => rfl

theorem classify_toList (f : Option Symbol) : classify f.toList = resultOf f := by
  cases f <;> rfl

theorem classify_of_two_le {xs : List Symbol} (h : 2 ≤ xs.length) : classify xs = .conflict := by
  match xs, h with
  | _ :: _ :: _, _ => rfl

theorem testRows_of_high {g : Byte} {l : Nat} (h : g.getLsbD l = true) (k : Keypad) (c : Nat)
    (ls : List Nat) (r : Nat) (f : Option Symbol) :
    testRows k g c (l :: ls) r f = testRows k g c ls (r + 1) f := by
  cases f <;> simp only [testRows, h, if_true]

/-- A second low position is a conflict, the first the candidate (R126). -/
theorem testRows_of_low {g : Byte} {l : Nat} (h : g.getLsbD l = false) (k : Keypad) (c : Nat)
    (ls : List Nat) (r : Nat) (f : Option Symbol) :
    testRows k g c (l :: ls) r f =
      if f = none then testRows k g c ls (r + 1) (some (symbolAt k r c)) else none := by
  cases f <;> simp [testRows, h, -BitVec.getLsbD_eq_getElem]

/-- The row tests of a column add its low positions to the candidate (R124, R126). -/
theorem testRows_eq (k : Keypad) (g : Byte) (c : Nat) (ls : List Nat) (r : Nat)
    (f : Option Symbol) : testRows k g c ls r f =
      candidateOf (f.toList ++ symbolsAt k (lowRows g c ls r)) := by
  induction ls generalizing r f with
  | nil => cases f <;> rfl
  | cons l ls ih =>
    rw [lowRows_cons]
    cases h : g.getLsbD l
    · rw [testRows_of_low h]
      cases f with
      | some x => rfl
      | none => exact ih (r + 1) (some (symbolAt k r c))
    · rw [testRows_of_high h]
      exact ih (r + 1) f

/-- The bytes that the columns on these lines return if all of them are swept from `s`. -/
def columnBytes : List Nat → State → List Byte
  | [], _ => []
  | l :: ls, s =>
    portByte 0x09 (driveColumn l s) :: columnBytes ls (portRead 0x09 (driveColumn l s))

/-- A sweep classifies the low positions of the columns' bytes and what was found before. -/
theorem sweep_result (ls : List Nat) (c : Nat) (f : Option Symbol) (s : State) :
    (sweep ls c f s).1 =
      classify (f.toList ++ symbolsAt s.cfg (lowPairsFrom s.cfg c (columnBytes ls s))) := by
  induction ls generalizing c f s with
  | nil => exact (classify_toList f).symm.trans (congrArg classify (List.append_nil _).symm)
  | cons l ls ih =>
    rw [columnBytes, lowPairsFrom_cons, symbolsAt, List.map_append, ← List.append_assoc, sweep]
    have htest := testRows_eq s.cfg (portByte 0x09 (driveColumn l s)) c s.cfg.rowLine 0 f
    cases hfound : testRows s.cfg (portByte 0x09 (driveColumn l s)) c s.cfg.rowLine 0 f with
    | none =>
      exact (classify_append_of_candidateOf (htest.symm.trans hfound) _).symm
    | some f' =>
      rw [← symbolsAt, eq_toList_of_candidateOf (htest.symm.trans hfound)]
      exact ih (c + 1) f' _

theorem scanResult_of_low {k : Keypad} {g0 : Byte} (h : g0 &&& inputMask k ≠ inputMask k)
    (gs : List Byte) : scanResult k g0 gs = classify (symbolsAt k (lowPairs k gs)) := by
  rw [scanResult, if_neg h]
  match lowPairs k gs with
  | [] => rfl
  | [_] => rfl
  | _ :: _ :: _ => rfl

/-- The result of a scan is R130's function of the byte of the fast path and the columns' bytes. -/
theorem scanOnce_result (s : State) : (scanOnce s).1 =
    scanResult s.cfg (portByte 0x09 s) (columnBytes s.cfg.colLine (portRead 0x09 s)) := by
  by_cases h : portByte 0x09 s &&& inputMask s.cfg = inputMask s.cfg
  · rw [scanOnce, if_pos ((allRowsHigh_iff _ _).2 h), scanResult, if_pos h]
  · rw [scanOnce, if_neg (mt (allRowsHigh_iff _ _).1 h), scanResult_of_low h]
    exact sweep_result _ 0 none _

/-! ### The positions that read low -/

theorem mem_lowRows_iff {g : Byte} {c : Nat} {ls : List Nat} {p : Nat × Nat} :
    p ∈ lowRows g c ls 0 ↔ p.2 = c ∧ ∃ l, ls[p.1]? = some l ∧ g.getLsbD l = false := by
  obtain ⟨r, c'⟩ := p
  simp only [lowRows, List.mem_map, List.mem_filter, Prod.exists, List.mem_zipIdx_iff_getElem?,
    Bool.not_eq_true', Prod.mk.injEq]
  constructor
  · rintro ⟨l, r', ⟨hl, hg⟩, rfl, rfl⟩
    exact ⟨rfl, l, hl, hg⟩
  · rintro ⟨rfl, l, hl, hg⟩
    exact ⟨l, r, ⟨hl, hg⟩, rfl, rfl⟩

theorem mem_lowPairs_iff {k : Keypad} {gs : List Byte} {r c : Nat} :
    (r, c) ∈ lowPairs k gs ↔
      ∃ g l, gs[c]? = some g ∧ k.rowLine[r]? = some l ∧ g.getLsbD l = false := by
  simp only [lowPairs_eq, lowPairsFrom, List.mem_flatMap, Prod.exists,
    List.mem_zipIdx_iff_getElem?, mem_lowRows_iff]
  constructor
  · rintro ⟨g, _, hg, rfl, l, hl, hlow⟩
    exact ⟨g, l, hg, hl, hlow⟩
  · rintro ⟨g, l, hg, hl, hlow⟩
    exact ⟨g, c, hg, rfl, l, hl, hlow⟩

theorem lowRows_nodup (g : Byte) (c : Nat) (ls : List Nat) : (lowRows g c ls 0).Nodup := by
  refine List.Nodup.of_map Prod.fst ?_
  rw [lowRows, List.map_map]
  exact (List.nodup_zipIdx_map_snd ls).sublist (List.filter_sublist.map Prod.snd)

/-- No position is listed twice. -/
theorem lowPairs_nodup (k : Keypad) (gs : List Byte) : (lowPairs k gs).Nodup := by
  rw [lowPairs_eq]
  refine List.nodup_flatMap.2 ⟨fun _ _ => lowRows_nodup _ _ _, ?_⟩
  refine (List.pairwise_map.1 (List.nodup_zipIdx_map_snd gs)).imp fun hne p hp hq => ?_
  exact hne ((mem_lowRows_iff.1 hp).1.symm.trans (mem_lowRows_iff.1 hq).1)

/-! ### A sweep with a healthy expander and the switches held still -/

/-- The byte `g` shows on each row line whether it is in one net with the column line `d`. -/
def ShowsNet (k : Keypad) (closed : List (Nat × Nat)) (d : Nat) (g : Byte) : Prop :=
  ∀ l ∈ k.rowLine, g.getLsbD l = false ↔ (netOf (wiring k closed) l).getLsbD d = true

/-- The expander is prepared, its next `n` reads are healthy with the switches `closed`, and its next
`n` writes are performed. -/
structure HealthyAhead (k : Keypad) (closed : List (Nat × Nat)) (n : Nat) (s : State) : Prop where
  prepared : PortPrepared k s.env.expander
  reads : ∃ answers rest, s.env.reads = answers ++ rest ∧ answers.length = n ∧
    ∀ a ∈ answers, ∃ floats, a = .healthy closed floats
  writes : ∃ rest, s.env.writes = List.replicate n true ++ rest

/-- What a tick does to the expander keeps it prepared. -/
theorem portPrepared_of_tickFrame {k : Keypad} {before after : Memory}
    (h : PortPrepared k before) (hf : TickFrame k before after) : PortPrepared k after where
  ipol := (hf.others _ (by decide) (by decide)).trans h.ipol
  gpinten := (hf.others _ (by decide) (by decide)).trans h.gpinten
  defval := (hf.others _ (by decide) (by decide)).trans h.defval
  intcon := (hf.others _ (by decide) (by decide)).trans h.intcon
  iocon := (hf.others _ (by decide) (by decide)).trans h.iocon
  gppu := (hf.others _ (by decide) (by decide)).trans h.gppu
  olat := (hf.others _ (by decide) (by decide)).trans h.olat

theorem portPrepared_of_follows {k : Keypad} {s t : State} (h : PortPrepared k s.env.expander)
    (hst : Follows (TickEvent k) s t) : PortPrepared k t.env.expander :=
  portPrepared_of_tickFrame h (tickFrame_of_follows hst)

theorem follows_portRead_gpio (k : Keypad) (s : State) :
    Follows (TickEvent k) s (portRead 0x09 s) :=
  follows_portRead _ s fun v => .inl (.inr (.inl ⟨v, rfl⟩))

section
variable {k : Keypad} {closed : List (Nat × Nat)} {n : Nat} {s : State} {d : Nat}

/-- The next read is healthy, and after it the healthy reads are one fewer. -/
theorem reads_of_healthyAhead (h : HealthyAhead k closed (n + 1) s) :
    ∃ floats answers rest, s.env.reads = .healthy closed floats :: (answers ++ rest) ∧
      answers.length = n ∧ ∀ a ∈ answers, ∃ floats, a = .healthy closed floats := by
  obtain ⟨answers, rest, hreads, hlen, hall⟩ := h.reads
  obtain ⟨a, answers, rfl⟩ := List.exists_cons_of_length_eq_add_one hlen
  obtain ⟨floats, rfl⟩ := hall a List.mem_cons_self
  exact ⟨floats, answers, rest, hreads, Nat.succ.inj hlen,
    fun b hb => hall b (List.mem_cons_of_mem _ hb)⟩

/-- The next write is performed, and after it the performed writes are one fewer. -/
theorem writes_of_healthyAhead (h : HealthyAhead k closed (n + 1) s) :
    ∃ rest, s.env.writes = true :: (List.replicate n true ++ rest) := by
  obtain ⟨rest, hwrites⟩ := h.writes
  exact ⟨rest, hwrites⟩

theorem portPrepared_driveColumn (h : HealthyAhead k closed n s) (hd : d ∈ k.colLine) :
    PortPrepared k (driveColumn d s).env.expander :=
  portPrepared_of_follows h.prepared (follows_mono (follows_driveColumn hd s) fun _ => .inl)

/-- A performed column write drives that column alone (R122). -/
theorem memory_read_iodir_driveColumn (h : HealthyAhead k closed (n + 1) s) :
    Memory.read (driveColumn d s).env.expander 0x00 = columnDrive d := by
  obtain ⟨rest, hwrites⟩ := writes_of_healthyAhead h
  have henv : (driveColumn d s).env = s.env.afterWrite 0x00 (columnDrive d) := rfl
  rw [henv, afterWrite_of_performed hwrites]
  exact (memory_read_storeIodir _ _ _).trans (if_pos rfl)

/-- The read of a driven column shows the net of that column (R68). -/
theorem showsNet_portByte (hk : k.wf = true) (h : HealthyAhead k closed (n + 1) s)
    (hs : s.cfg = k) (hd : d ∈ k.colLine) :
    ShowsNet k closed d (portByte 0x09 (driveColumn d s)) := by
  intro l hl
  obtain ⟨floats, answers, rest, hreads, -⟩ := reads_of_healthyAhead h
  have hdriven : (driveColumn d s).env.reads = .healthy closed floats :: (answers ++ rest) := hreads
  have hcfg : (driveColumn d s).cfg = k := hs
  rw [portByte_eq, hcfg, answer_of_healthy hdriven]
  exact driven_row_eq_false_iff hk (portPrepared_driveColumn h hd) hd
    (memory_read_iodir_driveColumn h) closed floats hl

theorem healthyAhead_after_read (h : HealthyAhead k closed (n + 1) s) :
    HealthyAhead k closed n (portRead 0x09 s) where
  prepared := portPrepared_of_follows h.prepared (follows_portRead_gpio k s)
  reads := by
    obtain ⟨_, answers, rest, hreads, hlen, hall⟩ := reads_of_healthyAhead h
    exact ⟨answers, rest, congrArg List.tail hreads, hlen, hall⟩
  writes := by
    obtain ⟨rest, hwrites⟩ := h.writes
    exact ⟨true :: rest, hwrites.trans (by rw [List.replicate_succ', List.append_assoc]; rfl)⟩

theorem healthyAhead_next_column (h : HealthyAhead k closed (n + 1) s) (hd : d ∈ k.colLine) :
    HealthyAhead k closed n (portRead 0x09 (driveColumn d s)) where
  prepared := portPrepared_of_follows (portPrepared_driveColumn h hd) (follows_portRead_gpio k _)
  reads := by
    obtain ⟨_, answers, rest, hreads, hlen, hall⟩ := reads_of_healthyAhead h
    exact ⟨answers, rest, congrArg List.tail hreads, hlen, hall⟩
  writes := by
    obtain ⟨rest, hwrites⟩ := writes_of_healthyAhead h
    exact ⟨rest, congrArg List.tail hwrites⟩

end

/-- Each column that is swept shows its net. -/
theorem showsNet_columnBytes {k : Keypad} {closed : List (Nat × Nat)} (hk : k.wf = true)
    (ls : List Nat) (s : State) (hs : s.cfg = k) (hls : ∀ d ∈ ls, d ∈ k.colLine)
    (h : HealthyAhead k closed ls.length s) :
    List.Forall₂ (ShowsNet k closed) ls (columnBytes ls s) := by
  induction ls generalizing s with
  | nil => exact .nil
  | cons d ls ih =>
    have hd : d ∈ k.colLine := hls d List.mem_cons_self
    exact .cons (showsNet_portByte hk h hs hd)
      (ih _ hs (fun d' hd' => hls d' (List.mem_cons_of_mem _ hd')) (healthyAhead_next_column h hd))

/-- The positions that read low in such a sweep are those whose two lines are in one net. -/
theorem mem_lowPairs_iff_of_showsNet {k : Keypad} {closed : List (Nat × Nat)} {gs : List Byte}
    (h : List.Forall₂ (ShowsNet k closed) k.colLine gs) {r c : Nat} :
    (r, c) ∈ lowPairs k gs ↔ ∃ l d, k.rowLine[r]? = some l ∧ k.colLine[c]? = some d ∧
      (netOf (wiring k closed) l).getLsbD d = true := by
  obtain ⟨hlen, hall⟩ := List.forall₂_iff_get.1 h
  rw [mem_lowPairs_iff]
  constructor
  · rintro ⟨g, l, hg, hl, hlow⟩
    obtain ⟨hc, rfl⟩ := List.getElem?_eq_some_iff.1 hg
    exact ⟨l, k.colLine[c]'(hlen ▸ hc), hl, List.getElem?_eq_getElem _,
      (hall c (hlen ▸ hc) hc l (List.mem_of_getElem? hl)).1 hlow⟩
  · rintro ⟨l, d, hl, hd, hnet⟩
    obtain ⟨hc, rfl⟩ := List.getElem?_eq_some_iff.1 hd
    exact ⟨gs[c]'(hlen ▸ hc), l, List.getElem?_eq_getElem _, hl,
      (hall c hc (hlen ▸ hc) l (List.mem_of_getElem? hl)).2 hnet⟩

/-- A closed position reads low in its column, ghosts or not. -/
theorem closed_subset_lowPairs {k : Keypad} (hk : k.wf = true) {closed : List (Nat × Nat)}
    (hin : ∀ p ∈ closed, inMatrix k p) {gs : List Byte}
    (h : List.Forall₂ (ShowsNet k closed) k.colLine gs) : closed ⊆ lowPairs k gs := by
  rintro ⟨r, c⟩ hp
  obtain ⟨hr, hc⟩ := hin _ hp
  have hrow : k.rowLine[r]? = some (k.rowLine[r]'hr) := List.getElem?_eq_getElem _
  have hcol : k.colLine[c]? = some (k.colLine[c]'hc) := List.getElem?_eq_getElem _
  exact (mem_lowPairs_iff_of_showsNet h).2
    ⟨_, _, hrow, hcol, getLsbD_netOf_of_closed hk hp hrow hcol⟩

/-- With one switch closed no other position reads low: its wire joins its two lines alone. -/
theorem lowPairs_of_one_closed {k : Keypad} (hk : k.wf = true) {p : Nat × Nat}
    (hin : inMatrix k p) {gs : List Byte}
    (h : List.Forall₂ (ShowsNet k [p]) k.colLine gs) : lowPairs k gs = [p] := by
  obtain ⟨r, c⟩ := p
  have hlow : (r, c) ∈ lowPairs k gs :=
    closed_subset_lowPairs hk (by simpa using hin) h List.mem_cons_self
  obtain ⟨a, b, ha, hb, -⟩ := (mem_lowPairs_iff_of_showsNet h).1 hlow
  have hwiring : wiring k [(r, c)] = [(a, b)] := by simp [wiring, ha, hb]
  refine List.perm_singleton.1 ((List.perm_ext_iff_of_nodup (lowPairs_nodup k gs)
    (List.nodup_singleton _)).2 fun q => ⟨fun hq => ?_, fun hq => List.mem_singleton.1 hq ▸ hlow⟩)
  obtain ⟨r', c'⟩ := q
  obtain ⟨l, d, hl, hd, hnet⟩ := (mem_lowPairs_iff_of_showsNet h).1 hq
  have hrow : l ∈ k.rowLine := List.mem_of_getElem? hl
  rw [hwiring] at hnet
  rcases mem_netOf_single_wire (rowLine_ne_colLine hk hrow (List.mem_of_getElem? hb)).symm hnet
    with he | ⟨rfl, rfl⟩
  · exact absurd he.symm (rowLine_ne_colLine hk hrow (List.mem_of_getElem? hd))
  · rw [rowLine_index_eq hk hl ha, colLine_index_eq hk hd hb]
    exact List.mem_cons_self

/-! ### A scan with a healthy expander and the switches held still -/

/-- The fast path sees no row low exactly when no switch is closed (R68, R121). -/
theorem fastPath_and_inputMask_iff {k : Keypad} {regs : Memory} (hk : k.wf = true)
    (hf : FastPath k regs) {closed : List (Nat × Nat)} (hin : ∀ p ∈ closed, inMatrix k p)
    (floats : Byte) :
    healthyRead k regs closed floats 0x09 &&& inputMask k = inputMask k ↔ closed = [] := by
  rw [and_inputMask_eq_iff hk]
  constructor
  · intro hall
    refine List.eq_nil_iff_forall_not_mem.2 fun ⟨r, c⟩ hp => ?_
    have hr : k.rowLine[r]? = some (k.rowLine[r]'(hin _ hp).1) := List.getElem?_eq_getElem _
    have hlow := (fastPath_row_eq_false_iff hk hf hin floats hr).2 ⟨c, hp⟩
    exact Bool.eq_false_iff.1 hlow (hall _ (List.mem_of_getElem? hr))
  · rintro rfl l hl
    obtain ⟨r, hr⟩ := List.getElem?_of_mem hl
    rw [← Bool.not_eq_false, fastPath_row_eq_false_iff hk hf hin floats hr]
    exact fun ⟨_, hp⟩ => List.not_mem_nil hp

/-- What R242 says a healthy scan sees with these switches closed. -/
def healthyResult (k : Keypad) : List (Nat × Nat) → KeyResult
  | [] => .noKey
  | [(r, c)] => .key (k.table.getD (r * k.cols + c) 0)
  | _ => .conflict

/-- The sweep's low positions classify the closed switches: one alone reads low alone, and of more
each reads low. -/
theorem classify_lowPairs {k : Keypad} (hk : k.wf = true) {closed : List (Nat × Nat)}
    (hne : closed ≠ []) (hnodup : closed.Nodup) (hin : ∀ p ∈ closed, inMatrix k p) {gs : List Byte}
    (h : List.Forall₂ (ShowsNet k closed) k.colLine gs) :
    classify (symbolsAt k (lowPairs k gs)) = healthyResult k closed := by
  match closed with
  | [] => exact absurd rfl hne
  | [p] =>
    rw [lowPairs_of_one_closed hk (hin p List.mem_cons_self) h]
    rfl
  | p :: q :: closed =>
    have hlen := (hnodup.subperm (closed_subset_lowPairs hk hin h)).length_le
    refine classify_of_two_le ?_
    rw [symbolsAt, List.length_map]
    exact (Nat.le_add_left 2 closed.length).trans hlen

end Sys2Proof.Machine

/-! ### The statements -/

namespace Sys2Proof.Proofs

open Sys2Proof Sys2Proof.Machine

/-- Settles O24: the write is one `portWrite`, and the coming answer says whether it is stored. -/
theorem writeTransactionStoresOnce : Obligations.WriteTransactionStoresOnce := by
  intro s a v ha h7 h8
  have hw : writableAddress a = true := (writableAddress_iff a).2 ⟨ha, h7, h8⟩
  refine ⟨portWrite a v s, exec_writeRegister_of_writable v s hw, rfl, ?_, ?_⟩
  · intro writes hwrites x
    rw [portWrite_env, afterWrite_of_performed hwrites]
    exact memory_read_storeRegister hw v s.env.expander x
  · intro writes hwrites
    rw [portWrite_env, afterWrite_of_lost hwrites]

/-- Settles O32: the net of a row line holds a column line, all of which drive low, exactly if a switch
of the row is closed. -/
theorem fastPathReadShowsClosedRows : Obligations.FastPathReadShowsClosedRows := by
  intro k regs closed floats r l hk hf hin hr
  exact fastPath_row_eq_false_iff hk hf hin floats hr

/-- Settles O33: the scan is R130's function of the bytes; the fast path shows whether a switch is
closed, and the columns show which positions read low. -/
theorem healthyScanClassifiesTheSwitches : Obligations.HealthyScanClassifiesTheSwitches := by
  intro s closed answers reads writes hk hf hnodup hin hlen hall hreads hwrites
  show (scanOnce s).1 = healthyResult s.cfg closed
  have hahead : HealthyAhead s.cfg closed (s.cfg.cols + 1) s :=
    ⟨hf.toPortPrepared, ⟨answers, reads, hreads, hlen, hall⟩, ⟨writes, hwrites⟩⟩
  obtain ⟨floats, _, _, hhead, -⟩ := reads_of_healthyAhead hahead
  have hfast := fastPath_and_inputMask_iff hk hf hin floats
  rw [scanOnce_result, portByte_eq, answer_of_healthy hhead]
  by_cases hclosed : closed = []
  · rw [scanResult, if_pos (hfast.2 hclosed), hclosed]
    rfl
  · rw [scanResult_of_low (mt hfast.1 hclosed)]
    exact classify_lowPairs hk hclosed hnodup hin
      (showsNet_columnBytes hk s.cfg.colLine (portRead 0x09 s) rfl (fun _ hd => hd)
        (healthyAhead_after_read hahead))

/-- Settles O55, by what a command word can do and what a later iteration can do. -/
theorem commandsIssueOnlyTheseTransactions : Obligations.CommandsIssueOnlyTheseTransactions := by
  refine ⟨fun w s t h => ?_, fun s t m hw hr h => ?_⟩
  · obtain ⟨events, htrace, -, hevents⟩ := follows_allowed_of_commandEffect (commandEffect_exec h)
    exact ⟨events, htrace, hevents⟩
  · obtain ⟨events, htrace, -, hevents⟩ := follows_step_of_waiting hw hr h
    exact ⟨events, htrace, fun e he => tickEvent_allowed (hevents e he)⟩

/-- Settles O56: the frame of a command is kept by each event that the command can issue. -/
theorem commandsLeaveTheOtherRegisters : Obligations.CommandsLeaveTheOtherRegisters := by
  refine ⟨fun w s t h => ?_, fun s t m hw hr h => ?_⟩
  · have heffect := commandEffect_exec h
    generalize decode (.command w) = i at heffect
    cases i with
    | begin => exact fun x hx => memory_read_of_follows_begin heffect (by omega)
    | reserved7 =>
      have hreserved : t = respond .invalid 0 s := heffect
      exact hreserved ▸ rfl
    | _ => exact tickFrame_of_follows heffect
  · exact tickFrame_of_follows (follows_step_of_waiting hw hr h)

/-- Settles O22: the read is one `portRead`, which takes one answer. -/
theorem readTransactionReturnsTheDraw : Obligations.ReadTransactionReturnsTheDraw := by
  intro s a v ha
  have hread := exec_readRegister_of_mapped v s ((mappedAddress_iff a).2 ha)
  refine ⟨⟨portRead a s, _, hread, rfl⟩, fun b reads hreads => ?_⟩
  rw [hread, ← afterRead_of_drawn hreads a, ← answer_of_drawn hreads s.cfg a]
  rfl

/-- Settles O25: the environment refuses exactly the addresses named. -/
theorem environmentRefusesUnmappedAccesses : Obligations.EnvironmentRefusesUnmappedAccesses := by
  intro s a v
  refine ⟨fun ha => ?_, fun ha => ?_⟩
  · have hm : ¬ mappedAddress a = true := fun h => Nat.not_le_of_lt ha ((mappedAddress_iff a).1 h)
    exact ⟨exec_readRegister_of_not_mapped v s hm, exec_writeRegister_of_not_mapped v s hm⟩
  · have hw : ¬ writableAddress a = true := fun h => by
      obtain ⟨-, h7, h8⟩ := (writableAddress_iff a).1 h
      exact ha.elim h7 h8
    have hm : mappedAddress a = true := by rcases ha with rfl | rfl <;> rfl
    exact exec_writeRegister_of_readOnly v s hm hw

end Sys2Proof.Proofs
end

section
/-! PROOFS. The statements about the machine's words, and about what a command does with the word it
came in and how it answers (30_encoding.md). -/

namespace Sys2Proof

/-! ### Command words (R81, R82) -/

/-- R82's table: the command of an operation code and an argument. -/
def commandOf (op : BitVec 3) (arg : BitVec 32) : Instr :=
  match op.toNat with
  | 0 => .begin arg
  | 1 => .tick arg
  | 2 => .count arg
  | 3 => .peek arg
  | 4 => .pop arg
  | 5 => .flush arg
  | 6 => .popBlocking arg
  | _ => .reserved7 arg

theorem decode_command (w : BitVec 35) :
    decode (.command w) = commandOf (commandOp w) (commandArg w) := rfl

theorem decode_commandWord (op : BitVec 3) (arg : BitVec 32) :
    decode (commandWord op arg) = commandOf op arg := by
  obtain ⟨hop, harg⟩ := commandFields op arg
  exact (decode_command _).trans (by rw [hop, harg])

theorem opCode_cases (op : BitVec 3) :
    op = 0 ∨ op = 1 ∨ op = 2 ∨ op = 3 ∨ op = 4 ∨ op = 5 ∨ op = 6 ∨ op = 7 := by
  revert op
  decide

theorem encode_commandOf (op : BitVec 3) (arg : BitVec 32) :
    encode (commandOf op arg) = commandWord op arg := by
  rcases opCode_cases op with rfl | rfl | rfl | rfl | rfl | rfl | rfl | rfl <;> rfl

/-- The two fields of a command word are all of its bits (R81). -/
theorem commandWord_fields (w : BitVec 35) :
    commandWord (commandOp w) (commandArg w) = .command w :=
  congrArg Word.command (BitVec.extractLsb'_append_extractLsb' (w := 3) (len := 32))

/-! ### Register transactions (R91) -/

/-- The fields of a register transaction are the three it was written from. -/
theorem transactionFields (rw : BitVec 1) (a v : Byte) :
    transactionRw (rw ++ a ++ v) = rw.getLsbD 0 ∧ transactionAddr (rw ++ a ++ v) = a ∧
      transactionValue (rw ++ a ++ v) = v := by
  refine ⟨getLsbD_transactionWord rw a v 16, BitVec.eq_of_getLsbD_eq fun i hi => ?_,
    BitVec.eq_of_getLsbD_eq fun i hi => ?_⟩
  · have hhigh : ¬ 8 + i < 8 := by omega
    have hlow : 8 + i < 16 := by omega
    rw [transactionAddr, BitVec.getLsbD_extractLsb', getLsbD_transactionWord, if_neg hhigh,
      if_pos hlow, Nat.add_sub_cancel_left]
    simp [hi]
  · rw [transactionValue, BitVec.getLsbD_extractLsb', getLsbD_transactionWord]
    simp [hi]

theorem decode_transactionWord (rw : BitVec 1) (a v : Byte) :
    decode (transactionWord rw a v) =
      if rw.getLsbD 0 then .writeRegister a v else .readRegister a v := by
  obtain ⟨hrw, ha, hv⟩ := transactionFields rw a v
  show decodeTransaction (rw ++ a ++ v) = _
  rw [decodeTransaction, hrw, ha, hv]

/-- The three fields of a register transaction are all of its bits (R91). -/
theorem transactionWord_fields (w : BitVec 17) :
    transactionWord (BitVec.ofBool (transactionRw w)) (transactionAddr w) (transactionValue w) =
      .transaction w := by
  refine congrArg Word.transaction (BitVec.eq_of_getLsbD_eq fun i hi => ?_)
  rw [getLsbD_transactionWord, transactionRw, transactionAddr, transactionValue,
    BitVec.getLsbD_extractLsb', BitVec.getLsbD_extractLsb', BitVec.getLsbD_ofBool]
  split
  · simp [‹i < 8›]
  · split
    · have hlow : i - 8 < 8 := by omega
      have hi8 : 8 + (i - 8) = i := by omega
      simp [hlow, hi8]
    · obtain rfl : i = 16 := by omega
      simp

theorem encode_decodeTransaction (w : BitVec 17) :
    encode (decodeTransaction w) =
      transactionWord (BitVec.ofBool (transactionRw w)) (transactionAddr w) (transactionValue w) := by
  unfold decodeTransaction
  cases transactionRw w <;> rfl

/-! ### Both kinds of word -/

theorem decode_encode (i : Instr) : decode (encode i) = i := by
  cases i with
  | readRegister a v => exact decode_transactionWord 0 a v
  | writeRegister a v => exact decode_transactionWord 1 a v
  | _ => exact decode_commandWord _ _

theorem encode_decode (w : Word) : encode (decode w) = w := by
  cases w with
  | command w => rw [decode_command, encode_commandOf, commandWord_fields]
  | transaction w => exact (encode_decodeTransaction w).trans (transactionWord_fields w)

end Sys2Proof

namespace Sys2Proof.Machine

/-! ### The response word (R85, R86) -/

theorem responseWord_data (r : Response) : (responseWord r).extractLsb' 0 32 = r.data :=
  BitVec.extractLsb'_append_eq_right

theorem responseWord_status (r : Response) :
    (responseWord r).extractLsb' 32 2 = statusCode r.status :=
  BitVec.extractLsb'_append_eq_left

theorem statusCode_injective : Function.Injective statusCode := by
  intro s t
  cases s <;> cases t <;> decide

theorem responseWord_injective : Function.Injective responseWord := by
  rintro ⟨s, d⟩ ⟨t, e⟩ h
  have hdata : d = e := by
    simpa only [responseWord_data] using congrArg (BitVec.extractLsb' 0 32) h
  have hstatus : s = t := statusCode_injective (by
    simpa only [responseWord_status] using congrArg (BitVec.extractLsb' 32 2) h)
  rw [hdata, hstatus]

/-! ### Removing every unread entry (R97) -/

/-- Removing the oldest entry `n` times only moves `tail`, by `n` slots around the ring. -/
theorem dropOldest_iterate {s : State} (h : s.tail < s.cfg.capacity) (n : Nat) :
    dropOldest^[n] s = { s with tail := (s.tail + n) % s.cfg.capacity } := by
  induction n with
  | zero => rw [Nat.add_zero, Nat.mod_eq_of_lt h]; rfl
  | succ n ih => rw [Function.iterate_succ_apply', ih, dropOldest, nextIndex, Nat.mod_add_mod]; rfl

/-! ### Taking a word (R96) -/

theorem takeCommand_eq (w : BitVec 35) (rest : List (BitVec 35)) (s : State) :
    takeCommand w rest s = { s with inbox := rest, trace := s.trace ++ [.accepted w] } := rfl

/-! ### A blocking read in progress accepts no word (R96, R238) -/

theorem scanEvent_not_accepted {k : Keypad} {e : Event} (h : ScanEvent k e) :
    e.isAccepted = false := by
  rcases h with rfl | ⟨v, rfl⟩ | rfl | ⟨l, -, rfl⟩ <;> rfl

/-- The host's words stay, and `t` goes on from `s` with no acceptance of a command. -/
structure AcceptsNothing (s t : State) : Prop where
  inbox : t.inbox = s.inbox
  portWord : t.portWord = s.portWord
  events : Follows (fun e => e.isAccepted = false) s t

/-- Only the taking of a word can accept one: every other update leaves the words and adds no
acceptance. -/
theorem kept_acceptsNothing (s : State) : Kept (AcceptsNothing s) where
  clock := fun _ ⟨hi, hp, he⟩ => ⟨hi, hp, follows_trans he (follows_readClock _ fun _ => rfl)⟩
  read := fun _ _ ⟨hi, hp, he⟩ => ⟨hi, hp, follows_trans he (follows_portRead _ _ fun _ => rfl)⟩
  write := fun _ _ _ ⟨hi, hp, he⟩ => ⟨hi, hp, follows_trans he (follows_portWrite _ _ _ rfl)⟩
  settle := fun _ ⟨hi, hp, he⟩ => ⟨hi, hp, follows_trans he (follows_settle _ rfl)⟩
  yield := fun _ ⟨hi, hp, he⟩ => ⟨hi, hp, follows_trans he (follows_yieldNow _ rfl)⟩
  respond := fun _ _ _ ⟨hi, hp, he⟩ => ⟨hi, hp, follows_trans he (follows_respond _ _ _ rfl)⟩
  push := fun _ _ ⟨hi, hp, he⟩ => ⟨hi, hp, follows_congr he rfl rfl rfl rfl⟩
  drop := fun _ ⟨hi, hp, he⟩ => ⟨hi, hp, follows_congr he rfl rfl rfl rfl⟩
  flush := fun _ ⟨hi, hp, he⟩ => ⟨hi, hp, follows_congr he rfl rfl rfl rfl⟩
  block := fun _ _ _ _ _ _ ⟨hi, hp, he⟩ => ⟨hi, hp, follows_congr he rfl rfl rfl rfl⟩

theorem acceptsNothing_waitIteration (m : Millis) (s : State) :
    AcceptsNothing s (waitIteration m s) :=
  waitIteration_keeps (kept_acceptsNothing s) m ⟨rfl, rfl, follows_refl _ s⟩

/-! ### How a command answers (R85, R178) -/

/-- An event that neither answers nor yields. -/
def Silent (e : Event) : Prop := e.isResponse = false ∧ e.isYield = false

theorem scanEvent_silent {k : Keypad} {e : Event} (h : ScanEvent k e) : Silent e := by
  rcases h with rfl | ⟨v, rfl⟩ | rfl | ⟨l, -, rfl⟩ <;> exact ⟨rfl, rfl⟩

theorem silent_tick (s : State) : Follows Silent s (tick s) :=
  follows_tick s (fun _ => ⟨rfl, rfl⟩) fun _ => scanEvent_silent

theorem silent_readClock (s : State) : Follows Silent s (readClock s) :=
  follows_readClock s fun _ => ⟨rfl, rfl⟩

theorem silent_enterWait (m : Millis) (s : State) : Follows Silent s (enterWait m s) :=
  follows_congr (silent_readClock s) rfl rfl rfl rfl

theorem silent_begin (s : State) :
    Follows Silent s (captureStart (portWrites (beginWrites s.cfg) s)) :=
  follows_trans (follows_portWrites _ s fun _ _ => ⟨rfl, rfl⟩)
    (follows_congr (silent_readClock _) rfl rfl rfl rfl)

/-- `t` goes on from `s` with `n` yields and, exactly when the command has ended in `t`, with one
response, the last event. -/
def AnswersOnce (n : Nat) (s t : State) : Prop :=
  ∃ before : List Event, before.countP Event.isResponse = 0 ∧ before.countP Event.isYield = n ∧
    ((t.waiting ≠ none ∧ t.trace = s.trace ++ before) ∨
      (t.waiting = none ∧ ∃ r, t.trace = s.trace ++ (before ++ [.response r])))

theorem answersOnce_of_waiting {s : State} (h : s.waiting ≠ none) : AnswersOnce 0 s s :=
  ⟨[], rfl, rfl, .inl ⟨h, (List.append_nil _).symm⟩⟩

theorem answersOnce_respond (st : Status) (d : BitVec 32) (s : State) :
    AnswersOnce 0 s (respond st d s) :=
  ⟨[], rfl, rfl, .inr ⟨rfl, _, rfl⟩⟩

/-- Events that do not answer may go first: their yields are added. -/
theorem answersOnce_append {n : Nat} {s u t : State} {xs : List Event}
    (hxs : xs.countP Event.isResponse = 0) (hu : u.trace = s.trace ++ xs) (h : AnswersOnce n u t) :
    AnswersOnce (xs.countP Event.isYield + n) s t := by
  obtain ⟨before, hresponse, hyield, hend⟩ := h
  refine ⟨xs ++ before, by rw [List.countP_append, hxs, hresponse],
    by rw [List.countP_append, hyield], ?_⟩
  simpa only [hu, List.append_assoc] using hend

theorem answersOnce_after_silence {n : Nat} {s u t : State} (hu : Follows Silent s u)
    (h : AnswersOnce n u t) : AnswersOnce n s t := by
  obtain ⟨xs, htrace, -, hxs⟩ := hu
  have hresponse : xs.countP Event.isResponse = 0 :=
    List.countP_eq_zero.2 fun e he => by simp [(hxs e he).1]
  have hyield : xs.countP Event.isYield = 0 :=
    List.countP_eq_zero.2 fun e he => by simp [(hxs e he).2]
  have hall := answersOnce_append hresponse htrace h
  rwa [hyield, Nat.zero_add] at hall

theorem answersOnce_after_yield {s t : State} (h : AnswersOnce 0 (yieldNow s) t) :
    AnswersOnce 1 s t :=
  answersOnce_append (xs := [.yield]) rfl rfl h

theorem answersOnce_dropOldest_respond (st : Status) (d : BitVec 32) (s : State) :
    AnswersOnce 0 s (respond st d (dropOldest s)) :=
  answersOnce_after_silence (follows_dropOldest Silent s) (answersOnce_respond st d _)

theorem answersOnce_timeoutTest {s : State} (m : Millis) (h : s.waiting ≠ none) :
    AnswersOnce 0 s (timeoutTest m s) := by
  rcases timeoutTest_cases m s with ⟨-, e⟩ | ⟨-, -, e⟩ | ⟨-, -, e⟩ <;> rw [e]
  · exact answersOnce_of_waiting h
  · exact answersOnce_after_silence (silent_readClock s) (answersOnce_respond _ _ _)
  · exact answersOnce_after_silence (silent_readClock s) (answersOnce_of_waiting h)

/-- One iteration of a blocking read yields once and answers when it ends the read (R171, R172). -/
theorem answersOnce_waitIteration {s : State} (m : Millis) (h : s.waiting ≠ none) :
    AnswersOnce 1 s (waitIteration m s) := by
  refine answersOnce_after_yield (answersOnce_after_silence (silent_tick _) ?_)
  rcases waitIteration_cases m s with ⟨-, e⟩ | ⟨-, e⟩ <;> rw [e]
  · exact answersOnce_timeoutTest m (by rwa [tick_waiting])
  · exact answersOnce_dropOldest_respond _ _ _

theorem answersOnce_peekOrEmpty (s : State) : AnswersOnce 0 s (peekOrEmpty s) := by
  unfold peekOrEmpty
  split <;> exact answersOnce_respond _ _ _

theorem answersOnce_popOrEmpty (s : State) : AnswersOnce 0 s (popOrEmpty s) := by
  unfold popOrEmpty
  split
  · exact answersOnce_respond _ _ _
  · exact answersOnce_dropOldest_respond _ _ _

@[simp] theorem peekOrEmpty_waiting (s : State) : (peekOrEmpty s).waiting = none := by
  unfold peekOrEmpty
  split <;> rfl

@[simp] theorem popOrEmpty_waiting (s : State) : (popOrEmpty s).waiting = none := by
  unfold popOrEmpty
  split <;> rfl

/-- How a command answers in the step that accepts it: `POPBLOCKING` yields once and may go on, every
other command ends without a yield. -/
def CommandAnswer (s t : State) : Instr → Prop
  | .popBlocking _ => AnswersOnce 1 s t
  | _ => AnswersOnce 0 s t ∧ t.waiting = none

theorem commandAnswer_exec {w : BitVec 35} {s t : State}
    (h : exec (decode (.command w)) s = .next t) : CommandAnswer s t (decode (.command w)) := by
  have after_tick : ∀ {u : State}, AnswersOnce 0 (tick s) u → AnswersOnce 0 s u :=
    answersOnce_after_silence (silent_tick s)
  cases hi : decode (.command w) <;> rw [hi] at h
  case readRegister a v => exact absurd hi (decode_command_ne_transaction w a v).1
  case writeRegister a v => exact absurd hi (decode_command_ne_transaction w a v).2
  all_goals obtain rfl := Host.Outcome.next.inj h
  case begin =>
    exact ⟨answersOnce_after_silence (silent_begin s) (answersOnce_respond _ _ _), rfl⟩
  case tick => exact ⟨after_tick (answersOnce_respond _ _ _), rfl⟩
  case count => exact ⟨after_tick (answersOnce_respond _ _ _), rfl⟩
  case peek => exact ⟨after_tick (answersOnce_peekOrEmpty _), peekOrEmpty_waiting _⟩
  case pop => exact ⟨after_tick (answersOnce_popOrEmpty _), popOrEmpty_waiting _⟩
  case flush => exact ⟨after_tick (answersOnce_respond _ _ _), rfl⟩
  case popBlocking m =>
    exact answersOnce_after_silence (silent_enterWait m s)
      (answersOnce_waitIteration m (by simp))
  case reserved7 => exact ⟨answersOnce_respond _ _ _, rfl⟩

/-- The events between `s` and `t` show the response at their end, and nowhere else, and the yields. -/
theorem events_of_answersOnce {n : Nat} {s t : State} {events : List Event}
    (h : AnswersOnce n s t) (ht : t.trace = s.trace ++ events) :
    (t.waiting = none ↔ ∃ r before, events = before ++ [.response r]) ∧
    events.countP Event.isResponse = (if t.waiting = none then 1 else 0) ∧
    events.countP Event.isYield = n := by
  obtain ⟨before, hresponse, hyield, ⟨hw, hb⟩ | ⟨hw, r, hb⟩⟩ := h
  · obtain rfl : events = before := List.append_cancel_left (ht.symm.trans hb)
    refine ⟨iff_of_false hw ?_, by rw [hresponse, if_neg hw], hyield⟩
    rintro ⟨r, xs, rfl⟩
    simp [Event.isResponse] at hresponse
  · obtain rfl : events = before ++ [.response r] := List.append_cancel_left (ht.symm.trans hb)
    refine ⟨iff_of_true hw ⟨r, before, rfl⟩, ?_, ?_⟩
    · rw [List.countP_append, hresponse, if_pos hw]; rfl
    · rw [List.countP_append, hyield]; rfl

end Sys2Proof.Machine

/-! ### The statements -/

namespace Sys2Proof.Proofs

open Sys2Proof Sys2Proof.Machine

/-- Settles O1: the fields of a word are all of its bits, and each direction goes through them. -/
theorem decodeAndEncodeAgree : Obligations.DecodeAndEncodeAgree :=
  ⟨decode_encode, encode_decode⟩

/-- Settles O2: a word written from its fields decodes to the command of R82's table. -/
theorem operationCodesSelectTheCommands : Obligations.OperationCodesSelectTheCommands := by
  intro arg
  exact ⟨decode_commandWord 0 arg, decode_commandWord 1 arg, decode_commandWord 2 arg,
    decode_commandWord 3 arg, decode_commandWord 4 arg, decode_commandWord 5 arg,
    decode_commandWord 6 arg, decode_commandWord 7 arg⟩

/-- Settles O4: the two fields of a response word determine the response. -/
theorem responseWordHoldsStatusAndData : Obligations.ResponseWordHoldsStatusAndData := by
  refine ⟨fun st d => ⟨responseWord_data ⟨st, d⟩, ?_⟩, fun r q h => responseWord_injective h⟩
  exact (responseWord_status ⟨st, d⟩).trans (by cases st <;> rfl)

/-- Settles O11: the step is one iteration, and no update of an iteration takes a word. -/
theorem waitingBlockAcceptsNothing : Obligations.WaitingBlockAcceptsNothing := by
  intro s m hw hr
  obtain ⟨hinbox, hport, events, htrace, -, hevents⟩ := acceptsNothing_waitIteration m s
  refine ⟨waitIteration m s, events, ?_, hinbox, hport, htrace, ?_⟩
  · rw [step_of_quiet hr, proceed_of_waiting hw]
  · exact List.all_eq_true.2 fun e he => by rw [hevents e he]; rfl

/-- Settles O48: `tail` moved on by the number of unread entries is `head`. -/
theorem flushEqualsRepeatedPops : Obligations.FlushEqualsRepeatedPops := by
  intro s h
  rw [dropOldest_iterate h.tailBelow, ring_index_unreadCount (sound_ring h)]

/-- Settles O58, by how a command answers and how a later iteration answers. -/
theorem oneAnswerForEachCommand : Obligations.OneAnswerForEachCommand := by
  refine ⟨fun w s t events h ht => ?_, fun s t m events hw hr h ht => ?_⟩
  · have hanswer := commandAnswer_exec h
    generalize decode (.command w) = i at hanswer
    cases i with
    | popBlocking m => exact events_of_answersOnce hanswer ht
    | _ =>
      obtain ⟨honce, hend⟩ := hanswer
      obtain ⟨hlast, hcount, hyield⟩ := events_of_answersOnce honce ht
      exact ⟨hlast, hcount, hend, hyield⟩
  · rw [step_of_quiet hr, proceed_of_waiting hw] at h
    obtain rfl := Host.Outcome.next.inj h
    exact events_of_answersOnce (answersOnce_waitIteration m (by simp [hw])) ht

/-- Settles O3: six closed words, decoded. -/
theorem writtenOutWordsDecode : Obligations.WrittenOutWordsDecode := by
  unfold Obligations.WrittenOutWordsDecode
  decide

/-- Settles O9: the idle block's step by the word it takes. -/
theorem stepRunsTheOfferedWord : Obligations.StepRunsTheOfferedWord := by
  intro s hw hr
  rw [step_of_quiet hr]
  refine ⟨fun w rest hp hi => ?_, fun w hp => ?_⟩
  · rw [proceed_of_command hw hp hi, takeCommand_eq]
  · rw [proceed_of_transaction hw hp, takeTransaction]

/-- Settles O54: no meaning of an operation code below 6 reads the argument, and code 7 is one
response. -/
theorem reservedCodeAnswersInvalid : Obligations.ReservedCodeAnswersInvalid :=
  fun _ _ _ => ⟨rfl, rfl, rfl, rfl, rfl, rfl, rfl⟩

end Sys2Proof.Proofs
end

section
/-! PROOFS. The statement about the bit operations of the Register Port (40_register_port.md). -/

namespace Sys2Proof.Machine

/-! ### One bit of a byte replaced -/

/-- R113: `withBit` sets the one bit as asked and keeps the others. -/
theorem getLsbD_withBit (v : Byte) (i : Nat) (b : Bool) {j : Nat} (hj : j < 8) :
    (withBit v i b).getLsbD j = if j = i then b else v.getLsbD j := by
  have hbit : (lineBit i).getLsbD j = decide (j = i) := by
    rw [getLsbD_lineBit, decide_eq_true hj, Bool.true_and]
  cases b with
  | true =>
    have hor : (withBit v i true).getLsbD j = (v.getLsbD j || decide (j = i)) :=
      hbit ▸ BitVec.getLsbD_or
    rw [hor]
    by_cases h : j = i <;> simp [h]
  | false =>
    have hand : (withBit v i false).getLsbD j = (v.getLsbD j && !decide (j = i)) := by
      rw [← hbit, withBit, if_neg Bool.false_ne_true, BitVec.getLsbD_and, BitVec.getLsbD_not,
        decide_eq_true hj, Bool.true_and]
    rw [hand]
    by_cases h : j = i <;> simp [h]

/-! ### The operations of the Register Port at an address that the environment takes -/

/-- R110: the byte returned is the one the transaction brings. -/
theorem readRegister_of_mapped {a : Byte} (s : State) (h : mappedAddress a = true) :
    readRegister a s = .next (portByte a s, portRead a s) := by
  simp only [readRegister, readRefusal, h, if_true]

/-- R111: alone or as the end of `writeBit`, a write is one transaction. -/
theorem writeRegister_of_writable {a : Byte} (v : Byte) (s : State)
    (h : writableAddress a = true) : writeRegister a v s = .next (portWrite a v s) :=
  exec_writeRegister_of_writable v s h

/-- R112: the bit is that of the byte read. -/
theorem readBit_of_mapped {a : Byte} {i : Nat} (s : State) (hi : i ≤ 7)
    (h : mappedAddress a = true) :
    readBit a i s = .next ((portByte a s).getLsbD i, portRead a s) := by
  rw [readBit, if_neg (Nat.not_lt.2 hi), readRegister_of_mapped s h]

/-- R113: read, modify, write. -/
theorem writeBit_of_writable {a : Byte} {i : Nat} (b : Bool) (s : State) (hi : i ≤ 7)
    (h : writableAddress a = true) :
    writeBit a i b s = .next (portWrite a (withBit (portByte a s) i b) (portRead a s)) := by
  have hm : mappedAddress a = true := (mappedAddress_iff a).2 ((writableAddress_iff a).1 h).1
  rw [writeBit, if_neg (Nat.not_lt.2 hi), readRegister_of_mapped s hm]
  exact writeRegister_of_writable _ _ h

end Sys2Proof.Machine

/-! ### The statement -/

namespace Sys2Proof.Proofs

open Sys2Proof Sys2Proof.Machine

/-- Settles O27: `readBit` is one `portRead`, and `writeBit` follows it with one `portWrite` of the
byte drawn with the bit replaced. -/
theorem bitOperationsReadModifyWrite : Obligations.BitOperationsReadModifyWrite := by
  intro s a v i reads hi ha hreads
  have hbyte : s.env.answer s.cfg a = v := answer_of_drawn hreads s.cfg a
  refine ⟨⟨portRead a s, ?_, ?_, rfl⟩, fun b h7 h8 => ?_⟩
  · rw [readBit_of_mapped s hi ((mappedAddress_iff a).2 ha), portByte_eq, hbyte]
  · rw [portRead_trace, hbyte]
  · have hw : writableAddress a = true := (writableAddress_iff a).2 ⟨ha, h7, h8⟩
    refine ⟨portWrite a (withBit v i b) (portRead a s), withBit v i b, ?_, ?_, rfl,
      fun j hj => getLsbD_withBit v i b hj⟩
    · rw [writeBit_of_writable b s hi hw, portByte_eq, hbyte]
    · rw [portWrite_trace, portRead_trace, hbyte, List.append_assoc, List.singleton_append]

end Sys2Proof.Proofs
end

section
/-! PROOFS. The statements about a scan: its result, its events and what it leaves behind
(41_matrix_scanner.md). -/

namespace Sys2Proof.Machine

/-! ### The columns that a sweep drives (R122 to R127) -/

/-- How many columns a sweep drives that goes on at column `c` with the candidate `f` while the
columns return `gs`: up to the one whose row tests meet the conflict exit. -/
def columnsDriven (k : Keypad) : Nat → Option Symbol → List Byte → Nat
  | _, _, [] => 0
  | c, f, g :: gs =>
    match testRows k g c k.rowLine 0 f with
    | none => 1
    | some f' => columnsDriven k (c + 1) f' gs + 1

theorem columnsDriven_of_conflict {k : Keypad} {c : Nat} {f : Option Symbol} {g : Byte}
    (h : testRows k g c k.rowLine 0 f = none) (gs : List Byte) :
    columnsDriven k c f (g :: gs) = 1 := by simp only [columnsDriven, h]

theorem columnsDriven_of_found {k : Keypad} {c : Nat} {f f' : Option Symbol} {g : Byte}
    (h : testRows k g c k.rowLine 0 f = some f') (gs : List Byte) :
    columnsDriven k c f (g :: gs) = columnsDriven k (c + 1) f' gs + 1 := by
  simp only [columnsDriven, h]

theorem columnsDriven_le (k : Keypad) (c : Nat) (f : Option Symbol) (gs : List Byte) :
    columnsDriven k c f gs ≤ gs.length := by
  induction gs generalizing c f with
  | nil => exact le_rfl
  | cons g gs ih =>
    cases h : testRows k g c k.rowLine 0 f with
    | none =>
      rw [columnsDriven_of_conflict h]
      exact Nat.succ_le_succ (Nat.zero_le _)
    | some f' =>
      rw [columnsDriven_of_found h]
      exact Nat.succ_le_succ (ih (c + 1) f')

theorem sweep_of_conflict {l c : Nat} {f : Option Symbol} {s : State}
    (h : testRows s.cfg (portByte 0x09 (driveColumn l s)) c s.cfg.rowLine 0 f = none)
    (ls : List Nat) :
    sweep (l :: ls) c f s = (.conflict, restorePort (portRead 0x09 (driveColumn l s))) := by
  simp only [sweep, h]

theorem sweep_of_found {l c : Nat} {f f' : Option Symbol} {s : State}
    (h : testRows s.cfg (portByte 0x09 (driveColumn l s)) c s.cfg.rowLine 0 f = some f')
    (ls : List Nat) :
    sweep (l :: ls) c f s = sweep ls (c + 1) f' (portRead 0x09 (driveColumn l s)) := by
  simp only [sweep, h]

/-! ### What a sweep does to the history and to the coming answers (R129) -/

theorem columnEvents_cons (l : Nat) (ls : List Nat) (g : Byte) (gs : List Byte) :
    columnEvents (l :: ls) (g :: gs) =
      [.write 0x00 (columnDrive l), .settle, .read 0x09 g] ++ columnEvents ls gs := rfl

/-- From `s` to `t` the first `m` of the columns on the lines `ls` are driven, which return the
first `m` of the bytes `gs`, and the port is restored. -/
structure SweptColumns (ls : List Nat) (gs : List Byte) (m : Nat) (s t : State) : Prop where
  trace : t.trace =
    s.trace ++ (columnEvents (ls.take m) gs ++ [.write 0x00 (inputMask s.cfg)])
  reads : t.env.reads = s.env.reads.drop m

theorem sweptColumns_restorePort (ls : List Nat) (gs : List Byte) (s : State) :
    SweptColumns ls gs 0 s (restorePort s) := ⟨rfl, rfl⟩

/-- A column driven before the others adds its three events and takes one answer. -/
theorem sweptColumns_cons {l m : Nat} {ls : List Nat} {gs : List Byte} {s t : State}
    (h : SweptColumns ls gs m (portRead 0x09 (driveColumn l s)) t) :
    SweptColumns (l :: ls) (portByte 0x09 (driveColumn l s) :: gs) (m + 1) s t where
  trace := by
    have hcolumn : (portRead 0x09 (driveColumn l s)).trace = s.trace ++
        [.write 0x00 (columnDrive l), .settle, .read 0x09 (portByte 0x09 (driveColumn l s))] := by
      simp [driveColumn]
    rw [h.trace, hcolumn, List.take_succ_cons, columnEvents_cons, List.append_assoc,
      List.append_assoc]
    rfl
  reads := by
    have hcolumn : (portRead 0x09 (driveColumn l s)).env.reads = s.env.reads.tail := rfl
    rw [h.reads, hcolumn, List.drop_tail]

/-- A sweep drives the columns that `columnsDriven` counts, and restores the port. -/
theorem sweptColumns_sweep (ls : List Nat) (c : Nat) (f : Option Symbol) (s : State) :
    SweptColumns ls (columnBytes ls s) (columnsDriven s.cfg c f (columnBytes ls s)) s
      (sweep ls c f s).2 := by
  induction ls generalizing c f s with
  | nil => exact sweptColumns_restorePort [] [] s
  | cons l ls ih =>
    rw [columnBytes]
    cases h : testRows s.cfg (portByte 0x09 (driveColumn l s)) c s.cfg.rowLine 0 f with
    | none =>
      rw [sweep_of_conflict h, columnsDriven_of_conflict h]
      exact sweptColumns_cons (sweptColumns_restorePort ls _ _)
    | some f' =>
      rw [sweep_of_found h, columnsDriven_of_found h]
      exact sweptColumns_cons (ih (c + 1) f' _)

/-! ### The column of the second low position (R129, R130) -/

/-- The number of columns up to the one of the second position of a list, or `n` when the list has
no second one. -/
def columnsToSecond (n : Nat) : List (Nat × Nat) → Nat
  | _ :: (_, c) :: _ => c + 1
  | _ => n

theorem columnsToSecond_of_short (n : Nat) {ps : List (Nat × Nat)} (h : ps.length ≤ 1) :
    columnsToSecond n ps = n := by
  match ps, h with
  | [], _ => rfl
  | [_], _ => rfl

/-- When the second position is one of `qs`, all of them in column `c`, it is in column `c`. -/
theorem columnsToSecond_of_column (n : Nat) {c : Nat} {ps qs : List (Nat × Nat)}
    (hps : ps.length ≤ 1) (hqs : ∀ q ∈ qs, q.2 = c) (h : 2 ≤ (ps ++ qs).length)
    (rs : List (Nat × Nat)) : columnsToSecond n (ps ++ qs ++ rs) = c + 1 := by
  match ps, qs, hps, h with
  | [], _ :: q :: _, _, _ => exact congrArg Nat.succ (hqs q (by simp))
  | [_], q :: _, _, _ => exact congrArg Nat.succ (hqs q (by simp))

theorem two_le_length_of_candidateOf {xs : List Symbol} (h : candidateOf xs = none) :
    2 ≤ xs.length := by
  match xs, h with
  | _ :: _ :: xs, _ => exact Nat.le_add_left 2 xs.length

theorem symbolsAt_append (k : Keypad) (ps qs : List (Nat × Nat)) :
    symbolsAt k (ps ++ qs) = symbolsAt k ps ++ symbolsAt k qs := List.map_append

theorem length_symbolsAt (k : Keypad) (ps : List (Nat × Nat)) :
    (symbolsAt k ps).length = ps.length := List.length_map _

/-- The positions behind a candidate are at most one. -/
theorem length_le_one_of_candidate {k : Keypad} {f : Option Symbol} {ps : List (Nat × Nat)}
    (h : f.toList = symbolsAt k ps) : ps.length ≤ 1 := by
  rw [← length_symbolsAt k, ← h]
  exact Option.length_toList_le

/-- A sweep stops at the column of the second low position: of `ps`, which gave the candidate `f`,
and of the positions still to come. -/
theorem add_columnsDriven (k : Keypad) (gs : List Byte) (c : Nat) (f : Option Symbol)
    (ps : List (Nat × Nat)) (hf : f.toList = symbolsAt k ps) :
    c + columnsDriven k c f gs =
      columnsToSecond (c + gs.length) (ps ++ lowPairsFrom k c gs) := by
  induction gs generalizing c f ps with
  | nil =>
    refine (columnsToSecond_of_short c ?_).symm
    rw [lowPairsFrom, List.zipIdx_nil, List.flatMap_nil, List.append_nil]
    exact length_le_one_of_candidate hf
  | cons g gs ih =>
    have htest := testRows_eq k g c k.rowLine 0 f
    rw [hf, ← symbolsAt_append] at htest
    rw [lowPairsFrom_cons, ← List.append_assoc]
    cases h : testRows k g c k.rowLine 0 f with
    | none =>
      have htwo := two_le_length_of_candidateOf (htest.symm.trans h)
      rw [length_symbolsAt] at htwo
      rw [columnsDriven_of_conflict h, columnsToSecond_of_column _ (length_le_one_of_candidate hf)
        (fun q hq => (mem_lowRows_iff.1 hq).1) htwo]
    | some f' =>
      have hf' := (eq_toList_of_candidateOf (htest.symm.trans h)).symm
      have hnext := ih (c + 1) f' _ hf'
      have hlen : c + (g :: gs).length = c + 1 + gs.length := by
        rw [List.length_cons]
        omega
      rw [columnsDriven_of_found h, hlen, ← hnext]
      omega

theorem columnsSwept_of_high {k : Keypad} {g0 : Byte} (h : g0 &&& inputMask k = inputMask k)
    (gs : List Byte) : columnsSwept k g0 gs = 0 := if_pos h

/-- Where the fast path saw a row low, R129's number of columns is that of the sweep. -/
theorem columnsSwept_of_low {k : Keypad} {g0 : Byte} (h : g0 &&& inputMask k ≠ inputMask k)
    {gs : List Byte} (hlen : gs.length = k.cols) :
    columnsSwept k g0 gs = columnsDriven k 0 none gs := by
  have hstop := add_columnsDriven k gs 0 none [] rfl
  rw [Nat.zero_add, Nat.zero_add, List.nil_append, ← lowPairs_eq, hlen] at hstop
  rw [columnsSwept, if_neg h, hstop]
  match lowPairs k gs with
  | [] => rfl
  | [_] => rfl
  | _ :: _ :: _ => rfl

theorem columnsSwept_le {k : Keypad} (g0 : Byte) {gs : List Byte} (hlen : gs.length = k.cols) :
    columnsSwept k g0 gs ≤ k.cols := by
  by_cases h : g0 &&& inputMask k = inputMask k
  · rw [columnsSwept_of_high h]
    exact Nat.zero_le _
  · rw [columnsSwept_of_low h hlen, ← hlen]
    exact columnsDriven_le k 0 none gs

/-! ### The whole scan (R128) -/

theorem scanOnce_of_high {s : State}
    (h : portByte 0x09 s &&& inputMask s.cfg = inputMask s.cfg) :
    scanOnce s = (.noKey, portRead 0x09 s) := by
  rw [scanOnce, if_pos ((allRowsHigh_iff _ _).2 h)]

theorem scanOnce_of_low {s : State}
    (h : portByte 0x09 s &&& inputMask s.cfg ≠ inputMask s.cfg) :
    scanOnce s = sweep s.cfg.colLine 0 none (portRead 0x09 s) := by
  rw [scanOnce, if_neg (mt (allRowsHigh_iff _ _).1 h)]

theorem length_columnBytes (ls : List Nat) (s : State) : (columnBytes ls s).length = ls.length := by
  induction ls generalizing s with
  | nil => rfl
  | cons l ls ih => rw [columnBytes, List.length_cons, List.length_cons, ih]

/-- A scan adds R129's events for the bytes that come back. -/
theorem scanOnce_trace (s : State) : (scanOnce s).2.trace = s.trace ++
    scanEvents s.cfg (portByte 0x09 s) (columnBytes s.cfg.colLine (portRead 0x09 s)) := by
  by_cases h : portByte 0x09 s &&& inputMask s.cfg = inputMask s.cfg
  · rw [scanOnce_of_high h, scanEvents, if_pos h]
    rfl
  · rw [scanOnce_of_low h, scanEvents, if_neg h, columnsSwept_of_low h (length_columnBytes _ _),
      (sweptColumns_sweep _ _ _ _).trace, portRead_trace, List.append_assoc]
    rfl

/-- A scan takes one answer for the fast path and one for each column it drives. -/
theorem scanOnce_reads (s : State) : (scanOnce s).2.env.reads = s.env.reads.tail.drop
    (columnsSwept s.cfg (portByte 0x09 s) (columnBytes s.cfg.colLine (portRead 0x09 s))) := by
  by_cases h : portByte 0x09 s &&& inputMask s.cfg = inputMask s.cfg
  · rw [scanOnce_of_high h, columnsSwept_of_high h]
    rfl
  · rw [scanOnce_of_low h, columnsSwept_of_low h (length_columnBytes _ _),
      (sweptColumns_sweep _ _ _ _).reads]
    rfl

/-! ### Drawn bytes -/

/-- Where the coming answers are drawn, the columns return the bytes drawn (R54). -/
theorem columnBytes_of_drawn {ls : List Nat} {gs : List Byte} {rest : List ReadAnswer} {s : State}
    (hlen : gs.length = ls.length) (h : s.env.reads = gs.map .drawn ++ rest) :
    columnBytes ls s = gs := by
  induction ls generalizing gs s with
  | nil => exact (List.eq_nil_of_length_eq_zero hlen).symm
  | cons l ls ih =>
    obtain ⟨g, gs, rfl⟩ := List.exists_cons_of_length_eq_add_one hlen
    have hdriven : (driveColumn l s).env.reads = .drawn g :: (gs.map .drawn ++ rest) := h
    have hnext : (portRead 0x09 (driveColumn l s)).env.reads = gs.map .drawn ++ rest :=
      congrArg List.tail hdriven
    rw [columnBytes, portByte_eq, answer_of_drawn hdriven, ih (Nat.succ.inj hlen) hnext]

/-- The bytes that a scan sees are those drawn for it. -/
theorem scanBytes_of_drawn {s : State} {g0 : Byte} {gs : List Byte} {rest : List ReadAnswer}
    (hlen : gs.length = s.cfg.cols) (h : s.env.reads = (g0 :: gs).map .drawn ++ rest) :
    portByte 0x09 s = g0 ∧ columnBytes s.cfg.colLine (portRead 0x09 s) = gs :=
  ⟨answer_of_drawn h s.cfg 0x09, columnBytes_of_drawn hlen (congrArg List.tail h)⟩

/-! ### The bits that the result depends on (R130) -/

theorem lowRows_congr {g h : Byte} {ls : List Nat} (he : ∀ l ∈ ls, g.getLsbD l = h.getLsbD l)
    (c r : Nat) : lowRows g c ls r = lowRows h c ls r := by
  refine congrArg (List.map _) (List.filter_congr fun row hrow => ?_)
  rw [he row.1 (List.fst_mem_of_mem_zipIdx hrow)]

/-- Bytes that agree on the row lines show the same low positions. -/
theorem lowPairsFrom_congr {k : Keypad} {gs hs : List Byte}
    (he : List.Forall₂ (fun g h => ∀ l ∈ k.rowLine, g.getLsbD l = h.getLsbD l) gs hs) (c : Nat) :
    lowPairsFrom k c gs = lowPairsFrom k c hs := by
  induction he generalizing c with
  | nil => rfl
  | cons hg _ ih => rw [lowPairsFrom_cons, lowPairsFrom_cons, lowRows_congr hg, ih]

/-- R130: no bit but the row bits matters. -/
theorem scanResult_congr {k : Keypad} (hk : k.wf = true) {g0 h0 : Byte} {gs hs : List Byte}
    (h : ∀ l ∈ k.rowLine, g0.getLsbD l = h0.getLsbD l)
    (he : List.Forall₂ (fun g h => ∀ l ∈ k.rowLine, g.getLsbD l = h.getLsbD l) gs hs) :
    scanResult k g0 gs = scanResult k h0 hs := by
  have hfast : g0 &&& inputMask k = inputMask k ↔ h0 &&& inputMask k = inputMask k := by
    rw [and_inputMask_eq_iff hk, and_inputMask_eq_iff hk]
    exact forall₂_congr fun l hl => by rw [h l hl]
  by_cases hhigh : g0 &&& inputMask k = inputMask k
  · rw [scanResult, scanResult, if_pos hhigh, if_pos (hfast.1 hhigh)]
  · rw [scanResult_of_low hhigh, scanResult_of_low (mt hfast.2 hhigh), lowPairs_eq, lowPairs_eq,
      lowPairsFrom_congr he]

/-! ### The numbers of events (R129) -/

theorem countP_columnEvents {P : Event → Bool} {n : Nat}
    (h : ∀ l g, [Event.write 0x00 (columnDrive l), .settle, .read 0x09 g].countP P = n)
    {ls : List Nat} {gs : List Byte} (hlen : ls.length ≤ gs.length) :
    (columnEvents ls gs).countP P = ls.length * n := by
  induction ls generalizing gs with
  | nil => exact (Nat.zero_mul n).symm
  | cons l ls ih =>
    obtain ⟨g, gs, rfl⟩ := List.exists_cons_of_length_pos (Nat.zero_lt_of_lt hlen)
    rw [columnEvents_cons, List.countP_append, h, ih (Nat.le_of_succ_le_succ hlen),
      List.length_cons, Nat.succ_mul, Nat.add_comm]

/-- The events of a scan with a sweep: the fast-path read, `n` for each column, and the restore. -/
theorem countP_scanEvents {P : Event → Bool} {n : Nat}
    (h : ∀ l g, [Event.write 0x00 (columnDrive l), .settle, .read 0x09 g].countP P = n)
    {k : Keypad} {g0 : Byte} (hlow : g0 &&& inputMask k ≠ inputMask k) {gs : List Byte}
    (hlen : gs.length = k.cols) :
    (scanEvents k g0 gs).countP P = columnsSwept k g0 gs * n +
      [Event.read 0x09 g0, .write 0x00 (inputMask k)].countP P := by
  have hle := columnsSwept_le g0 hlen
  have htake : (k.colLine.take (columnsSwept k g0 gs)).length = columnsSwept k g0 gs :=
    List.length_take_of_le hle
  have hcount := countP_columnEvents h (ls := k.colLine.take (columnsSwept k g0 gs)) (gs := gs)
    (by rw [htake, hlen]; exact hle)
  rw [htake] at hcount
  rw [scanEvents, if_neg hlow, List.countP_append, List.countP_cons, hcount]
  simp only [List.countP_cons, List.countP_nil]
  omega

/-! ### The fast-path configuration after a scan (R45, R127) -/

/-- A performed write of `IODIR` is what the register then holds. -/
theorem memory_read_iodir_portWrite {s : State} {writes : List Bool}
    (h : s.env.writes = true :: writes) (v : Byte) :
    Memory.read (portWrite 0x00 v s).env.expander 0x00 = v := by
  rw [portWrite_env, afterWrite_of_performed h]
  exact (memory_read_storeIodir _ _ _).trans (if_pos rfl)

/-- A sweep whose writes are performed ends with the row lines as the only inputs (R127). -/
theorem memory_read_iodir_sweep {ls : List Nat} {rest : List Bool} (c : Nat) (f : Option Symbol)
    {s : State} (h : s.env.writes = List.replicate (ls.length + 1) true ++ rest) :
    Memory.read (sweep ls c f s).2.env.expander 0x00 = inputMask s.cfg := by
  induction ls generalizing c f s with
  | nil => exact memory_read_iodir_portWrite h _
  | cons l ls ih =>
    have hnext : (portRead 0x09 (driveColumn l s)).env.writes =
        List.replicate (ls.length + 1) true ++ rest := congrArg List.tail h
    cases hfound : testRows s.cfg (portByte 0x09 (driveColumn l s)) c s.cfg.rowLine 0 f with
    | none =>
      rw [sweep_of_conflict hfound]
      exact memory_read_iodir_portWrite hnext _
    | some f' =>
      rw [sweep_of_found hfound]
      exact ih (c + 1) f' hnext

/-- A read of `GPIO` leaves `IODIR` alone. -/
theorem memory_read_iodir_portRead (s : State) :
    Memory.read (portRead 0x09 s).env.expander 0x00 = Memory.read s.env.expander 0x00 := by
  rw [portRead_env]
  rcases afterRead_expander_cases s.env 0x09 with he | he <;> rw [he]
  rw [memory_read_clearPending, if_neg fun hx => absurd hx.2 (by decide)]

theorem memory_read_iodir_scanOnce {s : State} {rest : List Bool}
    (hf : Memory.read s.env.expander 0x00 = inputMask s.cfg)
    (hwrites : s.env.writes = List.replicate (s.cfg.cols + 1) true ++ rest) :
    Memory.read (scanOnce s).2.env.expander 0x00 = inputMask s.cfg := by
  by_cases h : portByte 0x09 s &&& inputMask s.cfg = inputMask s.cfg
  · rw [scanOnce_of_high h]
    exact (memory_read_iodir_portRead s).trans hf
  · rw [scanOnce_of_low h]
    exact memory_read_iodir_sweep 0 none hwrites

end Sys2Proof.Machine

/-! ### The statements -/

namespace Sys2Proof.Proofs

open Sys2Proof Sys2Proof.Machine

/-- Settles O28: the scan is R130's function of the bytes drawn, it takes one answer for each column
it drives, and the row bits alone say which positions read low. -/
theorem scanIsAFunctionOfTheBytes : Obligations.ScanIsAFunctionOfTheBytes := by
  refine ⟨fun s g0 gs rest hlen hreads => ?_, fun k g0 h0 gs hs hk hlen hfast hrows => ?_⟩
  · obtain ⟨hbyte, hbytes⟩ := scanBytes_of_drawn hlen hreads
    have hresult := scanOnce_result s
    have hleft := scanOnce_reads s
    rw [hbyte, hbytes] at hresult hleft
    refine ⟨hresult, hleft.trans ?_⟩
    have htail : s.env.reads.tail = gs.map .drawn ++ rest := congrArg List.tail hreads
    rw [htail, List.map_drop, List.drop_append_of_le_length]
    rw [List.length_map, hlen]
    exact columnsSwept_le g0 hlen
  · refine scanResult_congr hk hfast (List.forall₂_iff_get.2 ⟨hlen, fun c hg hh l hl => ?_⟩)
    have hrow := hrows c l hl
    rwa [List.getD_eq_getElem _ _ hg, List.getD_eq_getElem _ _ hh] at hrow

/-- Settles O29: the events are those of the columns driven, three for each of them. -/
theorem scanIssuesTheseEvents : Obligations.ScanIssuesTheseEvents := by
  intro s g0 gs rest hlen hreads
  obtain ⟨hbyte, hbytes⟩ := scanBytes_of_drawn hlen hreads
  have htrace := scanOnce_trace s
  rw [hbyte, hbytes] at htrace
  refine ⟨htrace, columnsSwept_le g0 hlen, fun hhigh => if_pos hhigh, fun hlow => ⟨?_, ?_⟩⟩
  · rw [countP_scanEvents (n := 2) (fun _ _ => rfl) hlow hlen, Nat.mul_comm]
    rfl
  · rw [countP_scanEvents (n := 1) (fun _ _ => rfl) hlow hlen, Nat.mul_one]
    rfl

/-- Settles O30: the frame of a scan, and the events by which it goes on. -/
theorem scanWritesNoBlockRegister : Obligations.ScanWritesNoBlockRegister := by
  intro s
  obtain ⟨events, htrace, -, hevents⟩ := follows_scanOnce s
  refine ⟨events, htrace ▸ scanOnce_frame s, fun e he => ?_⟩
  rcases hevents e he with hsettle | hread | hrestore | ⟨l, -, hdrive⟩
  · exact .inl hsettle
  · exact .inr (.inl hread)
  · exact .inr (.inr ⟨_, hrestore⟩)
  · exact .inr (.inr ⟨_, hdrive⟩)

/-- Settles O31: a scan leaves every register but `IODIR` prepared, and restores `IODIR` on each of
its ways out. -/
theorem scanRestoresTheFastPath : Obligations.ScanRestoresTheFastPath := by
  intro s rest hf hwrites
  have hscan : Follows (TickEvent s.cfg) s (scanOnce s).2 :=
    follows_mono (follows_scanOnce s) fun _ => .inl
  exact ⟨portPrepared_of_follows hf.toPortPrepared hscan,
    memory_read_iodir_scanOnce hf.iodir hwrites⟩

end Sys2Proof.Proofs
end

section
/-! PROOFS. The statements about the debounce state machine: the time gate, the transition table,
and what any number of ticks buffers (42_debounce_fsm.md). -/

namespace Sys2Proof.Machine

/-! ### The cells of the transition table (R147) -/

section
variable {s : State}

theorem transition_press_noKey (h : s.state = .awaitingPress) : transition .noKey s = s := by
  simp only [transition, h]

theorem transition_press_key (h : s.state = .awaitingPress) (x : Symbol) :
    transition (.key x) s = { s with cand := x, state := .awaitingDebounce } := by
  simp only [transition, h]

theorem transition_press_conflict (h : s.state = .awaitingPress) :
    transition .conflict s = { s with state := .awaitingRelease } := by
  simp only [transition, h]

theorem transition_debounce_noKey (h : s.state = .awaitingDebounce) :
    transition .noKey s = { s with state := .awaitingPress } := by
  simp only [transition, h]

theorem transition_debounce_same (h : s.state = .awaitingDebounce) :
    transition (.key s.cand) s = { push s.cand s with state := .awaitingRelease } := by
  simp only [transition, h, if_true]

theorem transition_debounce_other (h : s.state = .awaitingDebounce) {x : Symbol}
    (hx : x ≠ s.cand) : transition (.key x) s = { s with state := .awaitingRelease } := by
  simp only [transition, h, if_neg hx]

theorem transition_debounce_conflict (h : s.state = .awaitingDebounce) :
    transition .conflict s = { s with state := .awaitingRelease } := by
  simp only [transition, h]

theorem transition_release_noKey (h : s.state = .awaitingRelease) :
    transition .noKey s = { s with state := .awaitingPress } := by
  simp only [transition, h]

theorem transition_release_held (h : s.state = .awaitingRelease) {k : KeyResult}
    (hk : k ≠ .noKey) : transition k s = s := by
  cases k with
  | noKey => exact absurd rfl hk
  | key x => simp only [transition, h]
  | conflict => simp only [transition, h]

/-- From `AwaitingDebounce` only a scan without a key leads back to `AwaitingPress`. -/
theorem transition_debounce_state (h : s.state = .awaitingDebounce) (k : KeyResult) :
    (transition k s).state = if k = .noKey then .awaitingPress else .awaitingRelease := by
  cases k with
  | noKey => rw [transition_debounce_noKey h, if_pos rfl]
  | key x =>
    by_cases hx : x = s.cand
    · rw [hx, transition_debounce_same h, if_neg nofun]
    · rw [transition_debounce_other h hx, if_neg nofun]
  | conflict => rw [transition_debounce_conflict h, if_neg nofun]

/-- `AwaitingDebounce` is entered only by the scan of the symbol that is then the candidate. -/
theorem result_of_transition_debounce {k : KeyResult}
    (h : (transition k s).state = .awaitingDebounce) : k = .key (transition k s).cand := by
  cases hs : s.state with
  | awaitingPress =>
    cases k with
    | noKey => rw [transition_press_noKey hs, hs] at h; cases h
    | key x => rw [transition_press_key hs]
    | conflict => rw [transition_press_conflict hs] at h; cases h
  | awaitingDebounce =>
    rw [transition_debounce_state hs] at h
    split at h <;> cases h
  | awaitingRelease =>
    by_cases hk : k = .noKey
    · rw [hk, transition_release_noKey hs] at h; cases h
    · rw [transition_release_held hs hk, hs] at h; cases h

/-! ### A tick by its scan result (R141, R142) -/

theorem gate_of_result_none (h : tickResult s = none) :
    sub32 s.env.sample s.lastTick < s.cfg.debounceMs := by
  by_contra hopen
  rw [tickResult_of_open hopen] at h
  cases h

theorem gate_of_result_some {k : KeyResult} (h : tickResult s = some k) :
    ¬ sub32 s.env.sample s.lastTick < s.cfg.debounceMs := by
  intro hclosed
  rw [tickResult_of_closed hclosed] at h
  cases h

theorem tick_of_closed (h : sub32 s.env.sample s.lastTick < s.cfg.debounceMs) :
    tick s = readClock s :=
  (tick_cases s).elim And.right fun hopen => absurd h hopen.1

theorem tick_of_open (h : ¬ sub32 s.env.sample s.lastTick < s.cfg.debounceMs) :
    tick s = transition (tickScan s).1 (tickScan s).2 :=
  (tick_cases s).elim (fun hclosed => absurd hclosed.1 h) And.right

/-- An ineffective tick is a clock read. -/
theorem tick_of_result_none (h : tickResult s = none) : tick s = readClock s :=
  tick_of_closed (gate_of_result_none h)

/-- An effective tick applies the table's cell for its result. -/
theorem tick_of_result_some {k : KeyResult} (h : tickResult s = some k) :
    tick s = transition k (tickScan s).2 := by
  have hopen := gate_of_result_some h
  rw [tickResult_of_open hopen] at h
  rw [tick_of_open hopen, Option.some.inj h]

theorem exec_tick (arg : BitVec 32) (s : State) :
    exec (.tick arg) s = .next (respond .ok 0 (tick s)) := rfl

/-! ### What one tick buffers (R150) -/

/-- A tick leaves the unread entries alone, or it confirms the candidate and pushes it. -/
theorem unread_tick_cases (s : State) :
    unread (tick s) = unread s ∨
    (s.state = .awaitingDebounce ∧ tickResult s = some (.key s.cand) ∧
      unread (tick s) = unread (push s.cand s)) := by
  rcases tick_block_cases s with h | h | ⟨hs, hresult, h⟩
  · left; rw [h]; rfl
  · left; rw [h]; rfl
  · right; exact ⟨hs, hresult, by rw [h]; rfl⟩

/-- The tick that confirms a press pushes the candidate. -/
theorem unread_tick_of_confirmed (hs : s.state = .awaitingDebounce)
    (h : tickResult s = some (.key s.cand)) : unread (tick s) = unread (push s.cand s) := by
  have hcell := transition_debounce_same ((tickScan_state s).trans hs)
  rw [tickScan_cand] at hcell
  rw [tick_of_result_some h, hcell, tickScan_frame]
  rfl

theorem unread_tick_of_not_confirmed
    (h : ¬ (s.state = .awaitingDebounce ∧ tickResult s = some (.key s.cand))) :
    unread (tick s) = unread s :=
  (unread_tick_cases s).resolve_right fun ⟨hs, hresult, _⟩ => h ⟨hs, hresult⟩

/-- The first sample of a press is remembered and not buffered (R143). -/
theorem tick_first_sample {x : Symbol} (hs : s.state = .awaitingPress)
    (h : tickResult s = some (.key x)) :
    (tick s).state = .awaitingDebounce ∧ (tick s).cand = x ∧ unread (tick s) = unread s := by
  have hcell := transition_press_key ((tickScan_state s).trans hs) x
  refine ⟨?_, ?_, unread_tick_of_not_confirmed fun hc => ?_⟩
  · rw [tick_of_result_some h, hcell]
  · rw [tick_of_result_some h, hcell]
  · cases hs.symm.trans hc.1

/-- The second sample ends the press episode or, without a key, its first sample (R144, R145). -/
theorem tick_state_of_debounce {k : KeyResult} (hs : s.state = .awaitingDebounce)
    (h : tickResult s = some k) :
    (tick s).state = if k = .noKey then .awaitingPress else .awaitingRelease := by
  rw [tick_of_result_some h]
  exact transition_debounce_state ((tickScan_state s).trans hs) k

/-- Until a scan sees `NoKey`, a tick in `AwaitingRelease` changes no register but `lastTick`
(R146). -/
theorem tick_of_release_held (hs : s.state = .awaitingRelease)
    (h : tickResult s ≠ some .noKey) :
    tick s = { s with
      lastTick := (tick s).lastTick, env := (tick s).env, trace := (tick s).trace } := by
  cases hresult : tickResult s with
  | none => rw [tick_of_result_none hresult]; rfl
  | some k =>
    have hk : k ≠ .noKey := fun e => h (hresult.trans (congrArg some e))
    have htick : tick s = (tickScan s).2 := (tick_of_result_some hresult).trans
      (transition_release_held ((tickScan_state s).trans hs) hk)
    rw [htick, tickScan_lastTick]
    exact tickScan_frame s

/-- `push` by the number of unread entries: with `CAPACITY - 1` of them the oldest is dropped
(R164). -/
theorem unread_push_of_length (h : SoundRing s) (x : Symbol) :
    unread (push x s) =
      (if (unread s).length + 1 < s.cfg.capacity then unread s else (unread s).drop 1) ++ [x] := by
  have hcap := h.capacity
  have hlt : unreadCount s < s.cfg.capacity := Nat.mod_lt _ (by omega)
  have hfull := nextIndex_head_eq_tail_iff h
  rw [unread_push h, unread_length]
  by_cases hroom : unreadCount s + 1 < s.cfg.capacity
  · rw [if_pos hroom, if_neg fun e => by have := hfull.1 e; omega]
  · rw [if_neg hroom, if_pos (hfull.2 (by omega))]

theorem mem_unread_push {x y : Symbol} (h : SoundRing s) (hx : x ∈ unread (push y s)) :
    x ∈ unread s ∨ x = y := by
  rw [unread_push_of_length h, List.mem_append, List.mem_singleton] at hx
  refine hx.imp_left fun hold => ?_
  split at hold
  · exact hold
  · exact List.mem_of_mem_drop hold

/-! ### Many ticks -/

/-- Two results of two ticks: both ticks were effective. -/
theorem results_of_two_ticks {j k : KeyResult} (h : tickResults 2 s = [j, k]) :
    tickResult s = some j ∧ tickResult (tick s) = some k := by
  simp only [tickResults, List.append_nil] at h
  cases hfirst : tickResult s with
  | none =>
    rw [hfirst] at h
    cases hsecond : tickResult (tick s) <;> simp [hsecond] at h
  | some i =>
    rw [hfirst] at h
    obtain ⟨rfl, hrest⟩ := List.cons.inj h
    exact ⟨rfl, Option.toList_eq_singleton_iff.1 hrest⟩

/-- The effective scan whose result the block still remembers: in `AwaitingDebounce` the last one
saw the candidate (R143). -/
def rememberedScan (s : State) : List KeyResult :=
  if s.state = .awaitingDebounce then [.key s.cand] else []

/-- A remembered scan is the last one there was. -/
theorem rememberedScan_tick (s : State) :
    rememberedScan (tick s) <:+ rememberedScan s ++ (tickResult s).toList := by
  cases hresult : tickResult s with
  | none =>
    rw [tick_of_result_none hresult, Option.toList_none, List.append_nil]
    exact List.suffix_rfl
  | some k =>
    by_cases hs : (tick s).state = .awaitingDebounce
    · have hk : k = .key (tick s).cand := by
        rw [tick_of_result_some hresult] at hs ⊢
        exact result_of_transition_debounce hs
      rw [rememberedScan, if_pos hs, ← hk]
      exact List.suffix_append _ _
    · rw [rememberedScan, if_neg hs]
      exact List.nil_suffix

/-- A tick buffers only the symbol that its scan and the remembered one both saw. -/
theorem mem_unread_tick (h : SoundRing s) {x : Symbol} (hx : x ∈ unread (tick s)) :
    x ∈ unread s ∨ rememberedScan s ++ (tickResult s).toList = [.key x, .key x] := by
  rcases unread_tick_cases s with hsame | ⟨hs, hresult, hpush⟩
  · exact .inl (hsame ▸ hx)
  · refine (mem_unread_push h (hpush ▸ hx)).imp_right fun hcand => ?_
    rw [rememberedScan, if_pos hs, hresult, hcand]
    rfl

/-- The symbols that any number of ticks buffers were seen by two consecutive effective ones, the
remembered scan before them counted. -/
theorem mem_unread_ticks {n : Nat} (h : SoundRing s) {x : Symbol} (hx : x ∈ unread (ticks n s)) :
    x ∈ unread s ∨ [.key x, .key x] <:+: rememberedScan s ++ tickResults n s := by
  induction n generalizing s with
  | zero => exact .inl hx
  | succ n ih =>
    have hresults : rememberedScan s ++ tickResults (n + 1) s =
        rememberedScan s ++ (tickResult s).toList ++ tickResults n (tick s) :=
      (List.append_assoc _ _ _).symm
    rw [hresults]
    rcases ih (tick_keeps kept_soundRing h) hx with hfirst | hlater
    · refine (mem_unread_tick h hfirst).imp_right fun htwice => ?_
      rw [htwice]
      exact ⟨[], _, rfl⟩
    · have hlast : rememberedScan (tick s) ++ tickResults n (tick s) <:+
          rememberedScan s ++ (tickResult s).toList ++ tickResults n (tick s) :=
        List.suffix_append_self_iff.2 (rememberedScan_tick s)
      exact .inr (hlater.trans hlast.isInfix)

/-- Without a `NoKey` scan the block stays in `AwaitingRelease` and its buffer stands, however many
ticks there are. -/
theorem ticks_of_release_held {n : Nat} (hs : s.state = .awaitingRelease)
    (h : .noKey ∉ tickResults n s) :
    ticks n s = { s with
      lastTick := (ticks n s).lastTick, env := (ticks n s).env, trace := (ticks n s).trace } := by
  induction n generalizing s with
  | zero => rfl
  | succ n ih =>
    obtain ⟨hfirst, hlater⟩ := not_or.1 (mt List.mem_append.2 h)
    have htick := tick_of_release_held hs fun e => hfirst (Option.mem_toList.2 e)
    have hstate : (tick s).state = .awaitingRelease := (congrArg State.state htick).trans hs
    exact (ih hstate hlater).trans (congrArg (fun t : State => { t with
      lastTick := (ticks n (tick s)).lastTick
      env := (ticks n (tick s)).env
      trace := (ticks n (tick s)).trace }) htick)

end

end Sys2Proof.Machine

/-! ### The statements -/

namespace Sys2Proof.Proofs

open Sys2Proof Sys2Proof.Machine

/-- Settles O35: the tick is the transition applied to the state after the scan, which has the
scanner state and the candidate of the tick's start; then cell by cell. -/
theorem effectiveTickFollowsTheTable : Obligations.EffectiveTickFollowsTheTable := by
  intro s u k hopen hscan
  have hresult : tickScan s = (k, u) := hscan
  have htick : tick s = transition k u := by rw [tick_of_open hopen, hresult]
  have hu : (tickScan s).2 = u := congrArg Prod.snd hresult
  have hstate : u.state = s.state := hu ▸ tickScan_state s
  have hcand : u.cand = s.cand := hu ▸ tickScan_cand s
  rw [htick, ← hstate, ← hcand]
  refine ⟨hu ▸ tickScan_lastTick s, fun hs => ⟨?_, ?_, ?_⟩, fun hs => ⟨?_, ?_, ?_, ?_⟩,
    fun hs => ⟨?_, ?_⟩⟩
  · rintro rfl; exact transition_press_noKey hs
  · rintro x rfl; exact transition_press_key hs x
  · rintro rfl; exact transition_press_conflict hs
  · rintro rfl; exact transition_debounce_noKey hs
  · rintro rfl; exact transition_debounce_same hs
  · rintro x hx rfl; exact transition_debounce_other hs hx
  · rintro rfl; exact transition_debounce_conflict hs
  · rintro rfl; exact transition_release_noKey hs
  · exact fun hk => transition_release_held hs hk

/-- Settles O37: of the three things a tick can do to the block, only the confirmed press touches
the buffer. -/
theorem onlyAConfirmedPressIsBuffered : Obligations.OnlyAConfirmedPressIsBuffered := by
  intro s hchanged
  have same : ∀ t : State, t.buf = s.buf → t.head = s.head → t.tail = s.tail →
      ¬ (t.buf ≠ s.buf ∨ t.head ≠ s.head ∨ t.tail ≠ s.tail) := by
    rintro t hbuf hhead htail (h | h | h) <;> contradiction
  rcases tick_block_cases s with h | h | ⟨hs, hresult, h⟩
  · rw [h] at hchanged; exact absurd hchanged (same _ rfl rfl rfl)
  · rw [h] at hchanged; exact absurd hchanged (same _ rfl rfl rfl)
  · exact ⟨hs, hresult, (congrArg State.state h :)⟩

/-- Settles O39: the first sample becomes the candidate, and the second pushes it if it is
the same. -/
theorem twoEqualSamplesConfirmAPress : Obligations.TwoEqualSamplesConfirmAPress := by
  intro s x k hsound hs hresults
  obtain ⟨hfirst, hsecond⟩ := results_of_two_ticks hresults
  obtain ⟨hs', hcand, hunread⟩ := tick_first_sample hs hfirst
  refine ⟨?_, fun hk => ?_, tick_state_of_debounce hs' hsecond⟩
  · rintro rfl
    rw [← hcand] at hsecond
    have hring : SoundRing (tick s) := tick_keeps kept_soundRing (sound_ring hsound)
    have hpush := (unread_tick_of_confirmed hs' hsecond).trans (unread_push_of_length hring _)
    rwa [hunread, hcand, tick_cfg] at hpush
  · refine (unread_tick_of_not_confirmed fun ⟨_, hsame⟩ => hk ?_).trans hunread
    rw [hsecond, hcand] at hsame
    exact Option.some.inj hsame

/-- Settles O40: only `lastTick`, the environment and the history can have changed. -/
theorem noPressIsTakenBeforeARelease : Obligations.NoPressIsTakenBeforeARelease := by
  intro n s hs h
  rw [ticks_of_release_held hs h]
  exact ⟨hs, rfl, rfl, rfl⟩

/-- Settles O41: in `AwaitingPress` no scan is remembered, so both samples are among the ticks'. -/
theorem bufferedSymbolsWereSeenTwice : Obligations.BufferedSymbolsWereSeenTwice := by
  intro n s x hsound hs hempty hx
  have hnone : rememberedScan s = [] := if_neg (by rw [hs]; nofun)
  rcases mem_unread_ticks (sound_ring hsound) hx with hold | hseen
  · rw [hempty] at hold; cases hold
  · rwa [hnone] at hseen

/-- Settles O59: a tick has a scan result exactly if its gate is open. -/
theorem effectiveTicksAreSpaced : Obligations.EffectiveTicksAreSpaced := by
  refine fun s => ⟨tick_of_result_none, fun h => ?_⟩
  obtain ⟨k, hresult⟩ := Option.ne_none_iff_exists'.1 h
  have hlast : (tick s).lastTick = s.env.sample := by
    rw [tick_of_result_some hresult, transition_lastTick, tickScan_lastTick]
  rw [hlast]
  exact ⟨rfl, BitVec.not_lt.1 (gate_of_result_some hresult)⟩

/-- Settles O34: with the gate closed the tick is one clock read. -/
theorem ineffectiveTickOnlyReadsTheClock : Obligations.IneffectiveTickOnlyReadsTheClock :=
  fun _ h => tick_of_closed h

/-- Settles O36: the command is a tick and a response, on both sides of the gate. -/
theorem tickCommandAnswersOk : Obligations.TickCommandAnswersOk :=
  fun s arg => exec_tick arg s

end Sys2Proof.Proofs
end

section
/-! PROOFS. The statements about the key buffer: the count, `push`, the non-blocking commands and the
blocking read (43_key_buffer.md). -/

namespace Sys2Proof.Machine

/-! ### The number of unread entries (R161, R162) -/

section
variable {s : State}

theorem unreadCount_le (h : 0 < s.cfg.capacity) : unreadCount s ≤ s.cfg.capacity - 1 :=
  Nat.le_sub_one_of_lt (Nat.mod_lt _ h)

/-- With both indices below `CAPACITY`, the number whose remainder is the count lies strictly between
0 and `2 * CAPACITY`, so the remainder is 0 only at `CAPACITY` itself. -/
theorem unreadCount_eq_zero_iff (hh : s.head < s.cfg.capacity) (ht : s.tail < s.cfg.capacity) :
    unreadCount s = 0 ↔ s.head = s.tail := by
  rw [unreadCount, ← Nat.dvd_iff_mod_eq_zero]
  constructor
  · intro hdvd
    have hcapacity : s.cfg.capacity + s.head - s.tail = s.cfg.capacity :=
      Nat.eq_of_dvd_of_lt_two_mul (by omega) hdvd (by omega)
    omega
  · intro heq
    rw [heq, Nat.add_sub_cancel]

/-! ### The buffer after a tick, and the oldest entry -/

theorem soundRing_tick (h : SoundRing s) : SoundRing (tick s) := tick_keeps kept_soundRing h

theorem bufferEmpty_of_nil (h : SoundRing s) (hu : unread s = []) : bufferEmpty s = true :=
  (bufferEmpty_iff h).2 hu

/-- What the unread entries say of the buffer's first one. -/
theorem oldest_of_cons (h : SoundRing s) {x : Symbol} {rest : List Symbol}
    (hu : unread s = x :: rest) :
    bufferEmpty s = false ∧ oldest s = x ∧ unread (dropOldest s) = rest := by
  have hempty : ¬ unread s = [] := by rw [hu]; exact List.cons_ne_nil x rest
  have hne : s.head ≠ s.tail := mt (unread_eq_nil_iff h).2 hempty
  obtain ⟨hx, hrest⟩ := List.cons.inj ((unread_eq_cons h hne).symm.trans hu)
  exact ⟨Bool.eq_false_iff.2 (mt (bufferEmpty_iff h).1 hempty), hx, hrest⟩

end

/-! ### The commands by what is unread (R165 to R168, R174) -/

theorem exec_pop (arg : BitVec 32) (s : State) :
    exec (.pop arg) s = .next (popOrEmpty (tick s)) := rfl

theorem exec_peek (arg : BitVec 32) (s : State) :
    exec (.peek arg) s = .next (peekOrEmpty (tick s)) := rfl

theorem exec_count (arg : BitVec 32) (s : State) :
    exec (.count arg) s = .next (respond .ok (countData (unreadCount (tick s))) (tick s)) := rfl

theorem exec_flush (arg : BitVec 32) (s : State) :
    exec (.flush arg) s = .next (respond .ok 0 { tick s with tail := (tick s).head }) := rfl

theorem exec_popBlocking (m : Millis) (s : State) :
    exec (.popBlocking m) s = .next (waitIteration m (enterWait m s)) := rfl

section
variable {s : State} {x : Symbol} {rest : List Symbol}

/-- Remove the oldest entry `x` and answer with it: the one buffer action of `POP` and
`POPBLOCKING` (R165, R171). -/
def answerOldest (x : Symbol) (s : State) : State := respond .ok (symbolData x) (dropOldest s)

/-- The removal and the answer, field by field, for the capacity by any of its names. -/
theorem answerOldest_eq (x : Symbol) {c : Nat} (hc : s.cfg.capacity = c) :
    answerOldest x s = { s with
      tail := (s.tail + 1) % c, waiting := none
      trace := s.trace ++ [.response ⟨.ok, x.setWidth 32⟩] } :=
  hc ▸ rfl

theorem unread_answerOldest (h : SoundRing s) (hu : unread s = x :: rest) :
    unread (answerOldest x s) = rest :=
  (oldest_of_cons h hu).2.2

theorem popOrEmpty_of_nil (h : SoundRing s) (hu : unread s = []) :
    popOrEmpty s = respond .empty 0 s := by
  rw [popOrEmpty, if_pos (bufferEmpty_of_nil h hu)]

theorem popOrEmpty_of_cons (h : SoundRing s) (hu : unread s = x :: rest) :
    popOrEmpty s = answerOldest x s := by
  obtain ⟨hfull, hx, -⟩ := oldest_of_cons h hu
  rw [popOrEmpty, if_neg (Bool.eq_false_iff.1 hfull), hx, answerOldest]

theorem peekOrEmpty_of_nil (h : SoundRing s) (hu : unread s = []) :
    peekOrEmpty s = respond .empty 0 s := by
  rw [peekOrEmpty, if_pos (bufferEmpty_of_nil h hu)]

theorem peekOrEmpty_of_cons (h : SoundRing s) (hu : unread s = x :: rest) :
    peekOrEmpty s = respond .ok (symbolData x) s := by
  obtain ⟨hfull, hx, -⟩ := oldest_of_cons h hu
  rw [peekOrEmpty, if_neg (Bool.eq_false_iff.1 hfull), hx]

end

/-! ### One iteration of the blocking read by what its tick leaves unread (R171 to R173) -/

section
variable {s u : State} {m : Millis}

theorem timeoutTest_zero (s : State) : timeoutTest 0 s = s := if_pos rfl

theorem timeoutTest_of_elapsed (hm : m ≠ 0) (ht : m ≤ s.env.sample - s.waitStart) :
    timeoutTest m s = respond .timedOut 0 (readClock s) := by
  rw [timeoutTest, if_neg hm, clockNow_eq, sub32, if_pos ht]

theorem timeoutTest_of_early (hm : m ≠ 0) (ht : ¬ m ≤ s.env.sample - s.waitStart) :
    timeoutTest m s = readClock s := by
  rw [timeoutTest, if_neg hm, clockNow_eq, sub32, if_neg ht]

theorem waitIteration_of_empty (hu : u = tick (yieldNow s)) (he : bufferEmpty u = true) :
    waitIteration m s = timeoutTest m u := by
  subst hu
  exact if_pos he

theorem waitIteration_of_cons {x : Symbol} {rest : List Symbol} (hu : u = tick (yieldNow s))
    (h : SoundRing u) (hx : unread u = x :: rest) : waitIteration m s = answerOldest x u := by
  obtain ⟨hfull, hold, -⟩ := oldest_of_cons h hx
  subst hu
  rw [waitIteration, if_neg (Bool.eq_false_iff.1 hfull), hold, answerOldest]

/-- How an iteration ends whose tick leads to `u`: the four cases of R171 to R173, `w` being the clock
value kept at entry and `c` the capacity. -/
structure IterationEnds (m w : Millis) (c : Nat) (u t : State) : Prop where
  symbol : ∀ x rest, unread u = x :: rest → unread t = rest ∧
    t = { u with
          tail := (u.tail + 1) % c, waiting := none
          trace := u.trace ++ [.response ⟨.ok, x.setWidth 32⟩] }
  noTimeout : unread u = [] → m = 0 → t = u
  timedOut : unread u = [] → m ≠ 0 → m ≤ u.env.sample - w →
    t = { u with
          waiting := none, env := u.env.afterSample
          trace := u.trace ++ [.clock u.env.sample, .response ⟨.timedOut, 0⟩] }
  goesOn : unread u = [] → m ≠ 0 → ¬ m ≤ u.env.sample - w →
    t = { u with env := u.env.afterSample, trace := u.trace ++ [.clock u.env.sample] }

theorem iterationEnds_waitIteration (m : Millis) (h : SoundRing s) (hu : u = tick (yieldNow s)) :
    IterationEnds m s.waitStart s.cfg.capacity u (waitIteration m s) := by
  have hring : SoundRing u := hu ▸ soundRing_tick (kept_soundRing.yield _ h)
  have hstart : s.waitStart = u.waitStart := by rw [hu, tick_waitStart, yieldNow_waitStart]
  have hcfg : u.cfg.capacity = s.cfg.capacity := by rw [hu, tick_cfg, yieldNow_cfg]
  have test (he : unread u = []) : waitIteration m s = timeoutTest m u :=
    waitIteration_of_empty hu (bufferEmpty_of_nil hring he)
  rw [hstart]
  constructor
  case symbol =>
    intro x rest hx
    rw [waitIteration_of_cons hu hring hx]
    exact ⟨unread_answerOldest hring hx, answerOldest_eq x hcfg⟩
  case noTimeout =>
    rintro he rfl
    rw [test he, timeoutTest_zero]
  case timedOut =>
    intro he hm ht
    rw [test he, timeoutTest_of_elapsed hm ht, List.append_cons]
    rfl
  case goesOn =>
    intro he hm ht
    rw [test he, timeoutTest_of_early hm ht]
    rfl

end

/-! ### A blocking read during which every line stays high (R173, R175) -/

/-- The next `n` reads show every line high. -/
def HighAhead (n : Nat) (s : State) : Prop :=
  List.replicate n (.drawn 0xFF) <+: s.env.reads

section
variable {n : Nat} {s : State} {m : Millis}

theorem answer_of_highAhead (h : HighAhead (n + 1) s) (k : Keypad) (a : Byte) :
    s.env.answer k a = 0xFF := by
  obtain ⟨rest, hreads⟩ := h
  exact answer_of_drawn hreads.symm k a

theorem highAhead_of_same_reads {t : State} (h : HighAhead (n + 1) s)
    (hreads : t.env.reads = s.env.reads) : HighAhead n t := by
  have hfewer : List.replicate n (ReadAnswer.drawn 0xFF) <+: List.replicate (n + 1) (.drawn 0xFF) :=
    ⟨_, List.replicate_succ'.symm⟩
  rw [HighAhead, hreads]
  exact hfewer.trans h

theorem highAhead_portRead (a : Byte) (h : HighAhead (n + 1) s) : HighAhead n (portRead a s) := by
  obtain ⟨rest, hreads⟩ := h
  exact ⟨rest, congrArg List.tail hreads⟩

/-- A scan that reads every line high ends on the fast path (R121). -/
theorem scanOnce_of_highAhead (h : HighAhead (n + 1) s) :
    scanOnce s = (.noKey, portRead 0x09 s) := by
  refine scanOnce_of_high ?_
  rw [portByte_eq, answer_of_highAhead h]
  exact BitVec.allOnes_and

theorem tickScan_of_highAhead (h : HighAhead (n + 1) s) :
    tickScan s = (.noKey, portRead 0x09 { readClock s with lastTick := s.env.sample }) :=
  scanOnce_of_highAhead h

/-- A tick takes at most one of the answers that show every line high. -/
theorem highAhead_tick (h : HighAhead (n + 1) s) : HighAhead n (tick s) := by
  rcases tick_cases s with ⟨-, hclosed⟩ | ⟨-, hopen⟩
  · exact highAhead_of_same_reads h (by rw [hclosed]; rfl)
  · rw [HighAhead, hopen, transition_env, tickScan_of_highAhead h]
    exact highAhead_portRead 0x09 h

/-- A tick that sees no key leaves the buffer empty that it finds empty (R150). -/
theorem head_eq_tail_tick (h : HighAhead (n + 1) s) (he : s.head = s.tail) :
    (tick s).head = (tick s).tail := by
  rcases tick_block_cases s with hsame | hmoved | ⟨-, hresult, -⟩
  · rw [hsame]; exact he
  · rw [hmoved]; exact he
  · have hopen := gate_of_result_some hresult
    rw [tickResult_of_open hopen, tickScan_of_highAhead h] at hresult
    cases hresult

/-- A blocking read without a timeout, nothing to return, and every line high for `n` more reads. -/
structure WaitsUnpressed (n : Nat) (s : State) : Prop where
  waiting : s.waiting = some 0
  quiet : s.resetIn = none
  empty : s.head = s.tail
  high : HighAhead n s

theorem waiting_ne_none (h : s.waiting = some m) : s.waiting ≠ none :=
  Option.ne_none_iff_exists'.2 ⟨m, h⟩

/-- Such a read does not end in the next step (R173). -/
theorem step_of_waitsUnpressed (h : WaitsUnpressed (n + 1) s) :
    step s = .next (waitIteration 0 s) ∧ WaitsUnpressed n (waitIteration 0 s) := by
  have hyield : HighAhead (n + 1) (yieldNow s) := h.high
  have hempty : (tick (yieldNow s)).head = (tick (yieldNow s)).tail :=
    head_eq_tail_tick hyield h.empty
  refine ⟨by rw [step_of_quiet h.quiet, proceed_of_waiting h.waiting], ?_⟩
  rw [waitIteration_of_empty rfl (beq_iff_eq.2 hempty), timeoutTest_zero]
  exact ⟨(tick_waiting _).trans h.waiting, (tick_resetIn _).trans h.quiet, hempty,
    highAhead_tick hyield⟩

theorem run_succ_of_next {s t : State} (n : Nat) (h : step s = .next t) :
    Host.Core.run core (n + 1) s = Host.Core.run core n t := by
  have hcore : core.step s = .next t := h
  simp only [Host.Core.run, hcore]

theorem events_of_answersOnce_waiting {t : State} (h : AnswersOnce n s t) (hw : t.waiting ≠ none) :
    ∃ events, t.trace = s.trace ++ events ∧ events.countP Event.isResponse = 0 ∧
      events.countP Event.isYield = n := by
  obtain ⟨events, hresponse, hyield, ⟨-, htrace⟩ | ⟨hend, -⟩⟩ := h
  · exact ⟨events, htrace, hresponse, hyield⟩
  · exact absurd hend hw

/-- It is still in progress after `n` steps, with `n` yields and no answer (R175). -/
theorem run_of_waitsUnpressed (h : WaitsUnpressed n s) :
    ∃ t, Host.Core.run core n s = .next t ∧ t.waiting = some 0 ∧ AnswersOnce n s t := by
  induction n generalizing s with
  | zero => exact ⟨s, rfl, h.waiting, answersOnce_of_waiting (waiting_ne_none h.waiting)⟩
  | succ n ih =>
    obtain ⟨hstep, hnext⟩ := step_of_waitsUnpressed h
    obtain ⟨t, hrun, hw, hanswer⟩ := ih hnext
    have hfirst : AnswersOnce 1 s (waitIteration 0 s) :=
      answersOnce_waitIteration 0 (waiting_ne_none h.waiting)
    obtain ⟨xs, htrace, hresponse, hyield⟩ :=
      events_of_answersOnce_waiting hfirst (waiting_ne_none hnext.waiting)
    have hall := answersOnce_append hresponse htrace hanswer
    rw [hyield, Nat.add_comm] at hall
    exact ⟨t, (run_succ_of_next n hstep).trans hrun, hw, hall⟩

end

end Sys2Proof.Machine

/-! ### The statements -/

namespace Sys2Proof.Proofs

open Sys2Proof Sys2Proof.Machine

/-- Settles O49: the first iteration, begun in the state that the entry leaves. -/
theorem popBlockingRunsItsFirstIteration : Obligations.PopBlockingRunsItsFirstIteration := by
  intro s u m hs hu
  have hentered : u = tick (yieldNow (enterWait m s)) := by
    rw [hu, List.append_cons]
    rfl
  have hwaiting : u.waiting = some m := by rw [hentered, tick_waiting]; rfl
  have hends := iterationEnds_waitIteration m (enterWait_keeps kept_soundRing m (sound_ring hs))
    hentered
  rw [exec_popBlocking]
  exact ⟨fun x rest hx => ⟨_, rfl, hends.symbol x rest hx⟩,
    fun he hm => congrArg _ (hends.noTimeout he hm),
    fun he hm ht => congrArg _ (hends.timedOut he hm ht),
    fun he hm ht => ⟨congrArg _ (hends.goesOn he hm ht), hwaiting⟩⟩

/-- Settles O50: the step is one iteration, begun in the state as it stands. -/
theorem waitingStepRunsOneIteration : Obligations.WaitingStepRunsOneIteration := by
  intro s u m hs hw hr hu
  have hticked : u = tick (yieldNow s) := hu
  have hwaiting : u.waiting = some m := by rw [hticked, tick_waiting]; exact hw
  have hends := iterationEnds_waitIteration m (sound_ring hs) hticked
  rw [step_of_quiet hr, proceed_of_waiting hw]
  exact ⟨fun x rest hx => ⟨_, rfl, hends.symbol x rest hx⟩,
    fun he hm => ⟨congrArg _ (hends.noTimeout he hm), hm ▸ hwaiting⟩,
    fun he hm ht => congrArg _ (hends.timedOut he hm ht),
    fun he hm ht => ⟨congrArg _ (hends.goesOn he hm ht), hwaiting⟩⟩

/-- Settles O51, by induction on the number of steps. -/
theorem blockingReadMayWaitForEver : Obligations.BlockingReadMayWaitForEver := by
  intro n s rest hw hr he hreads
  obtain ⟨t, hrun, hwaiting, hanswer⟩ := run_of_waitsUnpressed ⟨hw, hr, he, rest, hreads.symm⟩
  obtain ⟨events, htrace, hresponse, hyield⟩ :=
    events_of_answersOnce_waiting hanswer (waiting_ne_none hwaiting)
  refine ⟨t, events, hrun, hwaiting, htrace, ?_, hyield⟩
  simpa [List.countP_eq_zero] using hresponse

/-- Settles O42: the range is the remainder's, and a remainder of 0 is an empty buffer. -/
theorem countIsTheNumberOfUnread : Obligations.CountIsTheNumberOfUnread := by
  intro s hh ht
  exact ⟨rfl, unreadCount_le (Nat.zero_lt_of_lt hh), beq_iff_eq,
    (unreadCount_eq_zero_iff hh ht).symm, unread_length s⟩

/-- Settles O43: `push` finds the buffer full exactly if `CAPACITY - 1` entries are unread. -/
theorem pushAppendsAndDropsTheOldest : Obligations.PushAppendsAndDropsTheOldest := by
  intro s x hs
  have hring := sound_ring hs
  simp only [← nextIndex_head_eq_tail_iff hring]
  exact ⟨unread_push hring x, rfl⟩

/-- Settles O44: the tick keeps the ring sound, so what is unread after it decides. -/
theorem popTakesTheOldest : Obligations.PopTakesTheOldest := by
  intro s arg hs
  have hring := soundRing_tick (sound_ring hs)
  rw [exec_pop]
  refine ⟨fun hu => ?_, fun x rest hu => ⟨_, rfl, ?_⟩⟩
  · rw [popOrEmpty_of_nil hring hu]
    rfl
  · rw [popOrEmpty_of_cons hring hu]
    exact ⟨unread_answerOldest hring hu, answerOldest_eq x (by rw [tick_cfg])⟩

/-- Settles O45, as `POP` but with nothing removed. -/
theorem peekShowsTheOldest : Obligations.PeekShowsTheOldest := by
  intro s arg hs
  have hring := soundRing_tick (sound_ring hs)
  rw [exec_peek]
  refine ⟨fun hu => ?_, fun x rest hu => ⟨_, rfl, ?_⟩⟩
  · rw [peekOrEmpty_of_nil hring hu]
    rfl
  · rw [peekOrEmpty_of_cons hring hu]
    exact ⟨hu, rfl⟩

/-- Settles O46: the data is `countData` of the count, which is the count where it fits 32 bits. -/
theorem countReportsTheUnread : Obligations.CountReportsTheUnread := by
  intro s arg hs
  have hring := soundRing_tick (sound_ring hs)
  have hrange := unreadCount_le (Nat.zero_lt_of_lt hring.head)
  rw [tick_cfg] at hrange
  rw [unread_length]
  exact ⟨hrange, _, exec_count arg s, countData_toNat⟩

/-- Settles O47: with `tail` at `head` nothing is unread. -/
theorem flushDiscardsEverything : Obligations.FlushDiscardsEverything := by
  intro s arg hs
  have hflushed : SoundRing { tick s with tail := (tick s).head } :=
    kept_soundRing.flush _ (soundRing_tick (sound_ring hs))
  exact ⟨_, exec_flush arg s,
    (unread_eq_nil_iff (kept_soundRing.respond .ok 0 _ hflushed)).2 rfl, rfl⟩

end Sys2Proof.Proofs
end

section
/-! PROOFS. The statements about `BEGIN`: what it writes of the block, and the configuration in
which it leaves the expander (44_initialisation.md). -/

namespace Sys2Proof.Machine

/-! ### A run of writes as events (R191) -/

/-- The events of a run of write transactions. -/
def writeEvents (ws : List (Byte × Byte)) : List Event := ws.map fun w => .write w.1 w.2

/-- A run of writes is its events and nothing else of the block. -/
theorem portWrites_eq (ws : List (Byte × Byte)) (s : State) : portWrites ws s =
    { s with env := s.env.replay (writeEvents ws), trace := s.trace ++ writeEvents ws } := by
  induction ws generalizing s with
  | nil => simp [portWrites, writeEvents]
  | cons w ws ih =>
    calc portWrites (w :: ws) s
        = portWrites ws (portWrite w.1 w.2 s) := rfl
      _ = { s with
            env := (s.env.afterWrite w.1 w.2).replay (writeEvents ws)
            trace := s.trace ++ [.write w.1 w.2] ++ writeEvents ws } := ih _
      _ = _ := by rw [List.append_assoc]; rfl

theorem exec_begin (arg : BitVec 32) (s : State) : exec (.begin arg) s =
    .next (respond .ok 0 (captureStart (portWrites (beginWrites s.cfg) s))) := rfl

/-! ### The clock after a run of writes (R192) -/

theorem sample_of_advances {e : Env} {d : Nat} {rest : List Nat} (h : e.advances = d :: rest) :
    e.sample = BitVec.ofNat 32 (e.time + d) := by
  simp only [Env.sample, Env.advance, h]

/-- Writes take no clock sample: true time and the coming advances stay. -/
theorem clock_replay_writeEvents (ws : List (Byte × Byte)) (e : Env) :
    (e.replay (writeEvents ws)).time = e.time ∧
      (e.replay (writeEvents ws)).advances = e.advances := by
  induction ws generalizing e with
  | nil => exact ⟨rfl, rfl⟩
  | cons w ws ih => exact ih (e.afterWrite w.1 w.2)

/-! ### The expander after a run of performed writes (R45) -/

/-- The expander's registers after a run of performed writes. -/
def storeAll (ws : List (Byte × Byte)) (regs : Memory) : Memory :=
  ws.foldl (fun m w => storeRegister w.1 w.2 m) regs

theorem expander_replay_of_performed {ws : List (Byte × Byte)} {rest : List Bool} {e : Env}
    (h : e.writes = List.replicate ws.length true ++ rest) :
    (e.replay (writeEvents ws)).expander = storeAll ws e.expander := by
  induction ws generalizing e with
  | nil => rfl
  | cons w ws ih =>
    have hrest : (e.afterWrite w.1 w.2).writes = List.replicate ws.length true ++ rest :=
      congrArg List.tail h
    calc (e.replay (writeEvents (w :: ws))).expander
        = ((e.afterWrite w.1 w.2).replay (writeEvents ws)).expander := rfl
      _ = storeAll ws (e.afterWrite w.1 w.2).expander := ih hrest
      _ = storeAll (w :: ws) e.expander := by rw [afterWrite_of_performed h]; rfl

/-- An address at which no write of the run is stored reads as before. -/
theorem memory_read_storeAll_other {ws : List (Byte × Byte)} {x : Nat}
    (hw : ∀ w ∈ ws, writableAddress w.1 = true) (hx : ∀ w ∈ ws, x ≠ storedAt w.1)
    (regs : Memory) : Memory.read (storeAll ws regs) x = Memory.read regs x := by
  induction ws generalizing regs with
  | nil => rfl
  | cons w ws ih =>
    obtain ⟨hwritable, hws⟩ := List.forall_mem_cons.1 hw
    obtain ⟨hother, hxs⟩ := List.forall_mem_cons.1 hx
    exact (ih hws hxs _).trans ((memory_read_storeRegister hwritable _ _ _).trans (if_neg hother))

/-- If no two writes of the run are stored at one address, each of them is what its register holds
afterwards, whatever the order and whatever was there before. -/
theorem memory_read_storeAll_of_mem {ws : List (Byte × Byte)}
    (hw : ∀ w ∈ ws, writableAddress w.1 = true)
    (hd : ws.Pairwise fun v w => storedAt v.1 ≠ storedAt w.1) {w : Byte × Byte} (hmem : w ∈ ws)
    (regs : Memory) : Memory.read (storeAll ws regs) (storedAt w.1) = storedValue w.1 w.2 := by
  induction ws generalizing regs with
  | nil => exact absurd hmem List.not_mem_nil
  | cons v ws ih =>
    obtain ⟨hwritable, hws⟩ := List.forall_mem_cons.1 hw
    obtain ⟨hfirst, hlater⟩ := List.pairwise_cons.1 hd
    rcases List.mem_cons.1 hmem with rfl | hin
    · refine (memory_read_storeAll_other hws hfirst _).trans ?_
      exact (memory_read_storeRegister hwritable _ _ _).trans (if_pos rfl)
    · exact ih hws hlater hin _

/-- The eight writes of `BEGIN` go to eight registers (R191). -/
theorem beginWrites_distinct (k : Keypad) :
    (beginWrites k).Pairwise fun v w => storedAt v.1 ≠ storedAt w.1 := by
  have haddresses : ([0x05, 0x01, 0x02, 0x03, 0x04, 0x06, 0x0A, 0x00] : List Byte).Pairwise
      fun a b => storedAt a ≠ storedAt b := by decide
  exact (List.pairwise_map (f := Prod.fst) (l := beginWrites k)).1 haddresses

/-- The eight writes configure all eight registers of the fast path; the 0x24 written to `IOCON` has
none of the bits that it does not keep (R40). -/
theorem fastPath_storeAll_beginWrites (k : Keypad) (regs : Memory) :
    FastPath k (storeAll (beginWrites k) regs) := by
  have hstored : ∀ w ∈ beginWrites k,
      Memory.read (storeAll (beginWrites k) regs) (storedAt w.1) = storedValue w.1 w.2 :=
    fun _ hmem => memory_read_storeAll_of_mem (fun _ hw => (beginWrites_addresses hw).1)
      (beginWrites_distinct k) hmem regs
  rw [beginWrites] at hstored ⊢
  simp only [List.forall_mem_cons] at hstored
  obtain ⟨iocon, ipol, gpinten, defval, intcon, gppu, olat, iodir, -⟩ := hstored
  exact ⟨⟨ipol, gpinten, defval, intcon, iocon, gppu, olat⟩, iodir⟩

end Sys2Proof.Machine

/-! ### The statements -/

namespace Sys2Proof.Proofs

open Sys2Proof Sys2Proof.Machine

/-- Settles O52: the writes are their events and no more, so the clock value kept is the first one
after them and every other register stays. -/
theorem beginInitialisesTheBlock : Obligations.BeginInitialisesTheBlock := by
  intro s arg
  refine ⟨_, (s.env.replay (writeEvents (beginWrites s.cfg))).sample, exec_begin arg s, ?_, ?_,
    fun d rest hadvances => ?_⟩
  · rw [portWrites_eq]
    rfl
  · simp [portWrites_eq, writeEvents, beginWrites]
  · obtain ⟨htime, hkept⟩ := clock_replay_writeEvents (beginWrites s.cfg) s.env
    rw [sample_of_advances (hkept.trans hadvances), htime]

/-- Settles O53: the expander holds what the eight performed writes store, and neither the clock
read nor the response reaches it. -/
theorem beginPreparesThePort : Obligations.BeginPreparesThePort := by
  intro s t arg rest hwrites h
  obtain rfl := Host.Outcome.next.inj ((exec_begin arg s).symm.trans h)
  rw [portWrites_eq]
  show FastPath s.cfg (s.env.replay (writeEvents (beginWrites s.cfg))).expander
  rw [expander_replay_of_performed hwrites]
  exact fastPath_storeAll_beginWrites s.cfg s.env.expander

end Sys2Proof.Proofs
end

section
/-! PROOFS. The statements that no command stops, that the host reaches the expander by commands
alone, that an idle block stands still, that a bit index out of range is ignored, and how often each
command reads the clock (60_exceptions.md). -/

namespace Sys2Proof.Machine

/-! ### Every command goes on (R200, R213) -/

/-- Only a register transaction can be refused, and no command word decodes to one. -/
theorem exec_command_goes_on (w : BitVec 35) (s : State) :
    ∃ t, exec (decode (.command w)) s = .next t := by
  cases hi : decode (.command w) with
  | readRegister a v => exact absurd hi (decode_command_ne_transaction w a v).1
  | writeRegister a v => exact absurd hi (decode_command_ne_transaction w a v).2
  | _ => exact ⟨_, rfl⟩

/-! ### A bit index out of range (R205) -/

theorem readBit_of_invalid {i : Nat} (h : 7 < i) (a : Byte) (s : State) :
    readBit a i s = .next (false, s) := if_pos h

theorem writeBit_of_invalid {i : Nat} (h : 7 < i) (a : Byte) (b : Bool) (s : State) :
    writeBit a i b s = .next s := if_pos h

/-! ### What the host can reach (R221) -/

/-- No instruction places a register transaction to be run alone. -/
theorem exec_portWord {i : Instr} {s t : State} (h : exec i s = .next t) :
    t.portWord = s.portWord :=
  (exec_keeps (kept_acceptsNothing s) ⟨rfl, rfl, follows_refl _ s⟩ h).portWord

/-- A reset leaves what is placed as the step it falls into leaves it. -/
theorem resetWithin_portWord (n : Nat) (s t : State) :
    (resetWithin n s t).portWord = t.portWord := by
  unfold resetWithin
  split <;> rfl

/-- Nothing is placed to be run alone in `t`, which goes on from `s` by the clock reads and the
transactions of the commands alone (R64). -/
def OnlyCommands (s t : State) : Prop :=
  t.portWord = none ∧ Follows (Event.allowed s.cfg) s t

theorem onlyCommands_command {w : BitVec 35} {rest : List (BitVec 35)} {s t : State}
    (hp : s.portWord = none) (h : exec (decode (.command w)) (takeCommand w rest s) = .next t) :
    OnlyCommands s t :=
  ⟨(exec_portWord h).trans hp,
    follows_trans (follows_takeCommand w rest s trivial)
      (follows_allowed_of_commandEffect (commandEffect_exec h))⟩

/-- With nothing placed, a step with the reset input quiet is a step of a command or of nothing. -/
theorem onlyCommands_proceed {s t : State} (hp : s.portWord = none) (h : proceed s = .next t) :
    OnlyCommands s t := by
  rcases proceed_cases h with
    ⟨m, -, rfl⟩ | ⟨-, -, -, rfl⟩ | ⟨w, -, hplaced, -⟩ | ⟨w, rest, -, -, -, hrun⟩
  · exact ⟨(acceptsNothing_waitIteration m s).portWord.trans hp,
      follows_mono (follows_waitIteration m s) fun _ => tickEvent_allowed⟩
  · exact ⟨hp, follows_refl _ _⟩
  · exact absurd (hp.symm.trans hplaced) nofun
  · exact onlyCommands_command hp hrun

/-- A reset at once does nothing to the port, and one within a step cuts the step's events short. -/
theorem onlyCommands_step {s t : State} (hp : s.portWord = none) (h : step s = .next t) :
    OnlyCommands s t := by
  rcases step_cases h with ⟨-, hquiet⟩ | ⟨-, rfl⟩ | ⟨n, u, -, hrun, rfl⟩
  · exact onlyCommands_proceed hp hquiet
  · exact ⟨hp, follows_congr (follows_refl _ s) rfl rfl rfl rfl⟩
  · obtain ⟨hport, hfollows⟩ := onlyCommands_proceed hp hrun
    exact ⟨(resetWithin_portWord _ s u).trans hport, follows_resetWithin _ hfollows⟩

/-! ### How often the clock is read (R216) -/

/-- An event that neither reads the clock nor says that a timeout has elapsed. -/
def Untimed (e : Event) : Prop := e.isClock = false ∧ e ≠ .response ⟨.timedOut, 0⟩

theorem scanEvent_untimed {k : Keypad} {e : Event} (h : ScanEvent k e) : Untimed e := by
  rcases h with rfl | ⟨v, rfl⟩ | rfl | ⟨l, -, rfl⟩ <;> exact ⟨rfl, nofun⟩

theorem untimed_respond {st : Status} (d : BitVec 32) (s : State)
    (h : st ≠ .timedOut := by decide) : Follows Untimed s (respond st d s) :=
  follows_respond st d s ⟨rfl, fun he => h (by injection he with hr; injection hr)⟩

theorem untimed_peekOrEmpty (s : State) : Follows Untimed s (peekOrEmpty s) := by
  unfold peekOrEmpty
  split <;> exact untimed_respond _ _

theorem untimed_popOrEmpty (s : State) : Follows Untimed s (popOrEmpty s) := by
  unfold popOrEmpty
  split
  · exact untimed_respond _ _
  · exact follows_trans (follows_dropOldest _ s) (untimed_respond _ _)

/-- `t` goes on from `s` with `n` clock reads, and no timeout is said to have elapsed. -/
def ClockReads (n : Nat) (s t : State) : Prop :=
  ∃ events, t.trace = s.trace ++ events ∧ events.countP Event.isClock = n ∧
    .response ⟨.timedOut, 0⟩ ∉ events

theorem clockReads_of_untimed {s t : State} (h : Follows Untimed s t) : ClockReads 0 s t := by
  obtain ⟨events, htrace, -, hevents⟩ := h
  exact ⟨events, htrace, List.countP_eq_zero.2 fun e he => by simp [(hevents e he).1],
    fun hmem => (hevents _ hmem).2 rfl⟩

theorem clockReads_trans {m n : Nat} {s u t : State} (h : ClockReads m s u)
    (k : ClockReads n u t) : ClockReads (m + n) s t := by
  obtain ⟨xs, hxs, hm, hx⟩ := h
  obtain ⟨ys, hys, hn, hy⟩ := k
  exact ⟨xs ++ ys, by rw [hys, hxs, List.append_assoc], by rw [List.countP_append, hm, hn],
    List.not_mem_append hx hy⟩

/-- One clock read and then events without one. -/
theorem clockReads_of_clock {s t : State} {c : Millis} {xs : List Event}
    (h : t.trace = s.trace ++ .clock c :: xs) (hxs : ∀ e ∈ xs, Untimed e) : ClockReads 1 s t := by
  have hcount : xs.countP Event.isClock = 0 :=
    List.countP_eq_zero.2 fun e he => by simp [(hxs e he).1]
  refine ⟨.clock c :: xs, h, by rw [List.countP_cons, hcount]; rfl, fun hmem => ?_⟩
  exact (hxs _ ((List.mem_cons.1 hmem).resolve_left nofun)).2 rfl

theorem clockReads_readClock (s : State) : ClockReads 1 s (readClock s) :=
  clockReads_of_clock (readClock_trace s) nofun

/-- A tick reads the clock once, effective or not (R148). -/
theorem clockReads_tick (s : State) : ClockReads 1 s (tick s) := by
  obtain ⟨xs, htrace, -, hscan⟩ := tick_trace s
  exact clockReads_of_clock htrace fun e he => scanEvent_untimed (hscan e he)

/-- `BEGIN` reads the clock once, after its writes (R192). -/
theorem clockReads_begin (s : State) :
    ClockReads 1 s (captureStart (portWrites (beginWrites s.cfg) s)) :=
  clockReads_trans (clockReads_of_untimed (follows_portWrites _ s fun _ _ => ⟨rfl, nofun⟩))
    (clockReads_readClock _)

theorem countP_of_clockReads {n : Nat} {s t : State} {events : List Event}
    (h : ClockReads n s t) (ht : t.trace = s.trace ++ events) :
    events.countP Event.isClock = n := by
  obtain ⟨xs, hxs, hcount, -⟩ := h
  rwa [List.append_cancel_left (ht.symm.trans hxs)]

/-- These events leave a blocking read of timeout `m` in `t` after its timeout test: there is a
timeout, and the read goes on or has answered that it elapsed (R172, R173). -/
def TestRan (m : Millis) (t : State) (events : List Event) : Prop :=
  m ≠ 0 ∧ (t.waiting ≠ none ∨ .response ⟨.timedOut, 0⟩ ∈ events)

/-- `t` goes on from `s` in a blocking read of timeout `m`, with `n` clock reads and one more exactly
when the timeout test runs. -/
def TestReads (n : Nat) (m : Millis) (s t : State) : Prop :=
  ∃ events, t.trace = s.trace ++ events ∧
    ((TestRan m t events ∧ events.countP Event.isClock = n + 1) ∨
      (¬ TestRan m t events ∧ events.countP Event.isClock = n))

/-- Clock reads before the part with the test are added. -/
theorem testReads_after {k n : Nat} {m : Millis} {s u t : State} (h : ClockReads k s u)
    (ht : TestReads n m u t) : TestReads (k + n) m s t := by
  obtain ⟨xs, hxs, hk, hx⟩ := h
  obtain ⟨ys, hys, htest⟩ := ht
  have hran : TestRan m t (xs ++ ys) ↔ TestRan m t ys := by
    rw [TestRan, TestRan, List.mem_append, or_iff_right hx]
  refine ⟨xs ++ ys, by rw [hys, hxs, List.append_assoc], ?_⟩
  rw [hran, List.countP_append, hk, Nat.add_assoc, Nat.add_left_cancel_iff, Nat.add_left_cancel_iff]
  exact htest

/-- A read that has ended without saying that its timeout elapsed has run no test. -/
theorem testReads_of_ended {n : Nat} {m : Millis} {s t : State} (h : ClockReads n s t)
    (hw : t.waiting = none) : TestReads n m s t := by
  obtain ⟨events, htrace, hcount, hend⟩ := h
  exact ⟨events, htrace, .inr ⟨fun hran => hran.2.elim (absurd hw) hend, hcount⟩⟩

/-- The timeout test reads the clock exactly when there is a timeout (R172, R173). -/
theorem testReads_timeoutTest {s : State} (m : Millis) (hw : s.waiting ≠ none) :
    TestReads 0 m s (timeoutTest m s) := by
  rcases timeoutTest_cases m s with ⟨hm, e⟩ | ⟨hm, -, e⟩ | ⟨hm, -, e⟩ <;> rw [e]
  · exact ⟨[], (List.append_nil _).symm, .inr ⟨fun hran => hran.1 hm, rfl⟩⟩
  · exact ⟨[.clock s.env.sample, .response ⟨.timedOut, 0⟩], by simp,
      .inl ⟨⟨hm, .inr (by simp)⟩, rfl⟩⟩
  · exact ⟨[.clock s.env.sample], rfl, .inl ⟨⟨hm, .inl hw⟩, rfl⟩⟩

/-- An iteration reads the clock in its tick, and then in its timeout test if that runs (R174). -/
theorem testReads_waitIteration {s : State} (m : Millis) (hw : s.waiting ≠ none) :
    TestReads 1 m s (waitIteration m s) := by
  have hyield : ClockReads 0 s (yieldNow s) :=
    clockReads_of_untimed (follows_yieldNow s ⟨rfl, nofun⟩)
  have htick : ClockReads 1 s (tick (yieldNow s)) := clockReads_trans hyield (clockReads_tick _)
  rcases waitIteration_cases m s with ⟨-, e⟩ | ⟨-, e⟩ <;> rw [e]
  · exact testReads_after htick (testReads_timeoutTest m (by rwa [tick_waiting]))
  · have hanswer := follows_trans (follows_dropOldest _ (tick (yieldNow s)))
      (untimed_respond (st := .ok) (symbolData (oldest (tick (yieldNow s)))) _)
    exact testReads_of_ended (clockReads_trans htick (clockReads_of_untimed hanswer)) rfl

theorem countP_of_testReads {n : Nat} {m : Millis} {s t : State} {events : List Event}
    (h : TestReads n m s t) (ht : t.trace = s.trace ++ events) :
    events.countP Event.isClock =
      if m ≠ 0 ∧ (t.waiting ≠ none ∨ .response ⟨.timedOut, 0⟩ ∈ events) then n + 1 else n := by
  obtain ⟨xs, hxs, hcases⟩ := h
  obtain rfl : events = xs := List.append_cancel_left (ht.symm.trans hxs)
  rcases hcases with ⟨hran, hcount⟩ | ⟨hnot, hcount⟩
  · exact hcount.trans (if_pos hran).symm
  · exact hcount.trans (if_neg hnot).symm

/-- The clock reads of each instruction (R216). -/
def InstrClockReads (s t : State) : Instr → Prop
  | .popBlocking m => TestReads 2 m s t
  | .reserved7 _ | .readRegister _ _ | .writeRegister _ _ => ClockReads 0 s t
  | _ => ClockReads 1 s t

theorem instrClockReads_exec {i : Instr} {s t : State} (h : exec i s = .next t) :
    InstrClockReads s t i := by
  have after_tick : ∀ {u : State}, Follows Untimed (tick s) u → ClockReads 1 s u :=
    fun hu => clockReads_trans (clockReads_tick s) (clockReads_of_untimed hu)
  cases i
  case readRegister a v =>
    obtain ⟨-, rfl⟩ := execReadRegister_next (v := v) h
    exact clockReads_of_untimed (follows_portRead a s fun _ => ⟨rfl, nofun⟩)
  case writeRegister a v =>
    obtain ⟨-, rfl⟩ := execWriteRegister_next h
    exact clockReads_of_untimed (follows_portWrite a v s ⟨rfl, nofun⟩)
  all_goals obtain rfl := Host.Outcome.next.inj h
  case begin =>
    exact clockReads_trans (clockReads_begin s) (clockReads_of_untimed (untimed_respond _ _))
  case tick => exact after_tick (untimed_respond _ _)
  case count => exact after_tick (untimed_respond _ _)
  case peek => exact after_tick (untimed_peekOrEmpty _)
  case pop => exact after_tick (untimed_popOrEmpty _)
  case flush =>
    exact after_tick (follows_congr (untimed_respond (st := .ok) 0 (tick s)) rfl rfl rfl rfl)
  case popBlocking m =>
    have henter : ClockReads 1 s (enterWait m s) := clockReads_readClock s
    exact testReads_after henter (testReads_waitIteration m nofun)
  case reserved7 => exact clockReads_of_untimed (untimed_respond _ _)

end Sys2Proof.Machine

/-! ### The statements -/

namespace Sys2Proof.Proofs

open Sys2Proof Sys2Proof.Machine

/-- Settles O57, by the clock reads of each instruction and of a later iteration. -/
theorem clockReadsOfEachCommand : Obligations.ClockReadsOfEachCommand := by
  refine ⟨fun s t i events h ht => ?_, fun s t m events hw hr h ht => ?_⟩
  · have hreads := instrClockReads_exec h
    cases i with
    | popBlocking m => exact countP_of_testReads hreads ht
    | _ => exact countP_of_clockReads hreads ht
  · rw [step_of_quiet hr, proceed_of_waiting hw] at h
    obtain rfl := Host.Outcome.next.inj h
    exact countP_of_testReads (testReads_waitIteration m (waiting_ne_none hw)) ht

/-- Settles O60: a step with nothing placed is a command's, an iteration's or a reset's. -/
theorem hostCannotReachTheExpander : Obligations.HostCannotReachTheExpander := by
  intro s t hp h
  exact onlyCommands_step hp h

/-- Settles O10: with the reset input quiet and nothing to run, nothing runs. -/
theorem idleBlockKeepsItsState : Obligations.IdleBlockKeepsItsState := by
  intro s hw hi hp hr
  rw [step_of_quiet hr, proceed_of_idle hw hp hi]

/-- Settles O12: the meaning of a command has no branch that stops. -/
theorem everyCommandWordCompletes : Obligations.EveryCommandWordCompletes :=
  exec_command_goes_on

/-- Settles O26: both operations test the index first, and a line of a well-formed configuration is
below 8. -/
theorem invalidBitIndexIsIgnored : Obligations.InvalidBitIndexIsIgnored := by
  refine ⟨fun s a i b hi => ⟨readBit_of_invalid hi a s, writeBit_of_invalid hi a b s⟩,
    fun k hk l hl => ?_⟩
  obtain ⟨-, -, hlines, -⟩ := (keypad_wf_iff k).1 hk
  exact Nat.not_lt_of_le (Nat.le_of_lt_succ (hlines l hl))

end Sys2Proof.Proofs
end

section
/-! PROOFS. The statements about a reset inside a step: the events it lets happen, and the column that
it leaves driven (70_reset_and_hazards.md). -/

namespace Sys2Proof.Machine

/-! ### What a reset inside a sweep leaves of the expander (R122, R232) -/

/-- A performed write of `IODIR` changes what `IODIR` reads as, and nothing else. -/
theorem memory_read_afterWrite_iodir {e : Env} {writes : List Bool} (h : e.writes = true :: writes)
    (v : Byte) (x : Nat) : Memory.read (e.afterWrite 0x00 v).expander x =
      if x = 0 then v else Memory.read e.expander x := by
  rw [afterWrite_of_performed h]
  exact memory_read_storeIodir v e.expander x

theorem expander_afterRead_of_drawn {e : Env} {b : Byte} {reads : List ReadAnswer}
    (h : e.reads = .drawn b :: reads) (a : Byte) : (e.afterRead a).expander = e.expander := by
  rw [afterRead_of_drawn h]

/-- Neither the settle wait nor a drawn byte changes what a column's write has left in the expander,
so it is the same wherever the column's three events are cut. -/
theorem expander_replay_take_column {e : Env} {g : Byte} {reads : List ReadAnswer}
    (h : e.reads = .drawn g :: reads) (l : Nat) {d : Nat} (hd : d ≤ 2) (later : List Event) :
    (e.replay ((.write 0x00 (columnDrive l) :: .settle :: .read 0x09 g :: later).take
      (d + 1))).expander = (e.afterWrite 0x00 (columnDrive l)).expander := by
  match d, hd with
  | 0, _ => rfl
  | 1, _ => rfl
  | 2, _ => exact expander_afterRead_of_drawn (e := e.afterWrite 0x00 (columnDrive l)) h 0x09

/-- Cut after `j` whole columns and the write of the next, on line `l`, a sweep leaves that line the
only output and the other registers alone. -/
theorem memory_read_replay_take_columnEvents {ls : List Nat} {gs : List Byte} {e : Env}
    {reads : List ReadAnswer} {writes : List Bool} {j d l : Nat} (hl : ls[j]? = some l)
    (hlen : ls.length ≤ gs.length) (hd : d ≤ 2) (hreads : e.reads = gs.map .drawn ++ reads)
    (hwrites : e.writes = List.replicate (j + 1) true ++ writes) (later : List Event) (x : Nat) :
    Memory.read (e.replay ((columnEvents ls gs ++ later).take (3 * j + d + 1))).expander x =
      if x = 0 then columnDrive l else Memory.read e.expander x := by
  induction j generalizing ls gs e with
  | zero =>
    obtain ⟨ls, rfl⟩ : ∃ ms, ls = l :: ms :=
      List.head?_eq_some_iff.1 (List.head?_eq_getElem?.trans hl)
    obtain ⟨g, gs, rfl⟩ := List.exists_cons_of_length_pos (Nat.zero_lt_of_lt hlen)
    rw [Nat.mul_zero, Nat.zero_add]
    exact (congrArg (Memory.read · x) (expander_replay_take_column hreads l hd _)).trans
      (memory_read_afterWrite_iodir hwrites _ x)
  | succ j ih =>
    obtain ⟨k, ls, rfl⟩ := List.exists_cons_of_ne_nil (l := ls) fun h => by simp [h] at hl
    obtain ⟨g, gs, rfl⟩ := List.exists_cons_of_length_pos (Nat.zero_lt_of_lt hlen)
    have hnext := ih (e := (e.afterWrite 0x00 (columnDrive k)).afterRead 0x09) hl
      (Nat.le_of_succ_le_succ hlen) (congrArg List.tail hreads) (congrArg List.tail hwrites)
    rw [expander_afterRead_of_drawn (e := e.afterWrite 0x00 (columnDrive k)) hreads,
      memory_read_afterWrite_iodir hwrites] at hnext
    rw [show 3 * (j + 1) + d + 1 = 3 * j + d + 1 + 3 by omega]
    refine hnext.trans ?_
    by_cases hx : x = 0
    · rw [if_pos hx, if_pos hx]
    · rw [if_neg hx, if_neg hx, if_neg hx]

/-! ### The events of a command that ticks (R148, R160) -/

theorem peekOrEmpty_trace (s : State) : ∃ r, (peekOrEmpty s).trace = s.trace ++ [.response r] := by
  unfold peekOrEmpty
  split <;> exact ⟨_, rfl⟩

theorem popOrEmpty_trace (s : State) : ∃ r, (popOrEmpty s).trace = s.trace ++ [.response r] := by
  unfold popOrEmpty
  split <;> exact ⟨_, rfl⟩

/-- A command of operation code 1 to 5 has the events of its tick and then its response. -/
theorem exec_commandOf_ticking {op : BitVec 3} (h1 : 1 ≤ op.toNat) (h5 : op.toNat ≤ 5)
    (arg : BitVec 32) (s : State) :
    ∃ t r, exec (commandOf op arg) s = .next t ∧ t.trace = (tick s).trace ++ [.response r] := by
  rcases opCode_cases op with rfl | rfl | rfl | rfl | rfl | rfl | rfl | rfl
  · exact absurd h1 (by decide)
  · exact ⟨_, _, rfl, rfl⟩
  · exact ⟨_, _, rfl, rfl⟩
  · obtain ⟨r, hr⟩ := peekOrEmpty_trace (tick s)
    exact ⟨_, r, exec_peek arg s, hr⟩
  · obtain ⟨r, hr⟩ := popOrEmpty_trace (tick s)
    exact ⟨_, r, exec_pop arg s, hr⟩
  · exact ⟨_, _, rfl, rfl⟩
  · exact absurd h5 (by decide)
  · exact absurd h5 (by decide)

/-- An effective tick reads the clock and scans; the bytes drawn say which events the scan has. -/
theorem tick_trace_of_drawn {s : State} {g0 : Byte} {gs : List Byte} {rest : List ReadAnswer}
    (hopen : ¬ sub32 s.env.sample s.lastTick < s.cfg.debounceMs) (hlen : gs.length = s.cfg.cols)
    (hreads : s.env.reads = (g0 :: gs).map .drawn ++ rest) :
    (tick s).trace = s.trace ++ .clock s.env.sample :: scanEvents s.cfg g0 gs := by
  have hscan := scanOnce_trace { readClock s with lastTick := s.env.sample }
  obtain ⟨hbyte, hbytes⟩ :=
    scanBytes_of_drawn (s := { readClock s with lastTick := s.env.sample }) hlen hreads
  rw [hbyte, hbytes] at hscan
  rw [tick_of_open hopen, transition_trace]
  exact hscan.trans (List.append_assoc _ _ _)

/-- The events of an effective tick's command before its response. -/
def tickingEvents (w : BitVec 35) (t : Millis) (k : Keypad) (g0 : Byte) (gs : List Byte) :
    List Event :=
  .accepted w :: .clock t :: scanEvents k g0 gs

/-- The step of an idle block that is offered a command of operation code 1 to 5 while the gate is
open. -/
theorem proceed_ticking {s : State} {op : BitVec 3} {arg : BitVec 32} {inbox : List (BitVec 35)}
    {g0 : Byte} {gs : List Byte} {rest : List ReadAnswer} (hw : s.waiting = none)
    (hp : s.portWord = none) (h1 : 1 ≤ op.toNat) (h5 : op.toNat ≤ 5)
    (hi : s.inbox = (op ++ arg) :: inbox)
    (hopen : ¬ sub32 s.env.sample s.lastTick < s.cfg.debounceMs) (hlen : gs.length = s.cfg.cols)
    (hreads : s.env.reads = (g0 :: gs).map .drawn ++ rest) :
    ∃ t r, proceed s = .next t ∧ t.trace = s.trace ++
      (tickingEvents (op ++ arg) s.env.sample s.cfg g0 gs ++ [.response r]) := by
  obtain ⟨t, r, hexec, htrace⟩ :=
    exec_commandOf_ticking h1 h5 arg (takeCommand (op ++ arg) inbox s)
  have htick := tick_trace_of_drawn (s := takeCommand (op ++ arg) inbox s) hopen hlen hreads
  rw [← decode_commandWord] at hexec
  refine ⟨t, r, (proceed_of_command hw hp hi).trans hexec, ?_⟩
  rw [htrace, htick, takeCommand_trace]
  simp [tickingEvents]

/-- The word's acceptance, the clock read and, where the fast path saw a row low, its read, three
events for each column and the restore (R129). -/
theorem length_tickingEvents {k : Keypad} {g0 : Byte} (hlow : g0 &&& inputMask k ≠ inputMask k)
    {gs : List Byte} (hlen : gs.length = k.cols) (w : BitVec 35) (t : Millis) :
    (tickingEvents w t k g0 gs).length = 3 * columnsSwept k g0 gs + 4 := by
  have hscan : (scanEvents k g0 gs).countP (fun _ => true) = columnsSwept k g0 gs * 3 + 2 :=
    countP_scanEvents (fun _ _ => rfl) hlow hlen
  rw [List.countP_true] at hscan
  rw [tickingEvents, List.length_cons, List.length_cons, hscan]
  omega

theorem response_not_mem_columnEvents (ls : List Nat) (gs : List Byte) (r : Response) :
    .response r ∉ columnEvents ls gs := by simp [columnEvents]

theorem response_not_mem_tickingEvents (w : BitVec 35) (t : Millis) (k : Keypad) (g0 : Byte)
    (gs : List Byte) (r : Response) : .response r ∉ tickingEvents w t k g0 gs := by
  unfold tickingEvents scanEvents
  split <;> simp [response_not_mem_columnEvents]

/-- The events before the response, cut in the middle of a sweep, leave the column's line the only
output and the other registers alone. -/
theorem memory_read_replay_take_tickingEvents {k : Keypad} {g0 : Byte} {gs : List Byte} {e : Env}
    {reads : List ReadAnswer} {writes : List Bool} {j d l : Nat}
    (hlow : g0 &&& inputMask k ≠ inputMask k) (hlen : gs.length = k.cols)
    (hj : j < columnsSwept k g0 gs) (hl : k.colLine[j]? = some l) (hd : d ≤ 2)
    (hreads : e.reads = (g0 :: gs).map .drawn ++ reads)
    (hwrites : e.writes = List.replicate (j + 1) true ++ writes) (w : BitVec 35) (t : Millis)
    (x : Nat) :
    Memory.read (e.replay ((tickingEvents w t k g0 gs).take (4 + 3 * j + d))).expander x =
      if x = 0 then columnDrive l else Memory.read e.expander x := by
  have hline : (k.colLine.take (columnsSwept k g0 gs))[j]? = some l :=
    (List.getElem?_take_of_lt hj).trans hl
  have hlines : (k.colLine.take (columnsSwept k g0 gs)).length ≤ gs.length :=
    (List.length_take_le' _ _).trans hlen.ge
  have hcolumns := memory_read_replay_take_columnEvents (e := e.afterSample.afterRead 0x09) hline
    hlines hd (congrArg List.tail hreads) hwrites [.write 0x00 (inputMask k)] x
  rw [expander_afterRead_of_drawn (e := e.afterSample) hreads] at hcolumns
  rw [tickingEvents, scanEvents, if_neg hlow, show 4 + 3 * j + d = 3 * j + d + 1 + 3 by omega]
  exact hcolumns

/-! ### A step with a reset inside or beyond it (R232) -/

theorem step_of_reset_after {s t : State} {n : Nat} (h : s.resetIn = some n) (hn : 0 < n)
    (hp : proceed s = .next t) : step s = .next (resetWithin n s t) := by
  obtain ⟨m, rfl⟩ := Nat.exists_eq_add_one_of_ne_zero hn.ne'
  exact step_of_later_reset h hp

end Sys2Proof.Machine

/-! ### The statements -/

namespace Sys2Proof.Proofs

open Sys2Proof Sys2Proof.Machine

/-- Settles O14: a reset within the step's events is `resetBlock` of the state those events leave, and
one beyond them only counts them off. -/
theorem resetAbandonsTheCommand : Obligations.ResetAbandonsTheCommand := by
  intro s t events n hr hn hp ht
  have hstep := step_of_reset_after hr hn hp
  rcases resetWithin_cases n ht with ⟨hwithin, he⟩ | ⟨hbeyond, he⟩ <;> rw [he] at hstep
  · exact ⟨fun _ => ⟨_, hstep, rfl, rfl, rfl, rfl, rfl, rfl, rfl, rfl, rfl, rfl⟩,
      fun h => absurd hwithin (Nat.not_le_of_lt h)⟩
  · exact ⟨fun h => absurd hbeyond (Nat.not_lt_of_le h), fun _ => hstep⟩

/-- Settles O15: the reset lies before the response, and the events before it end with the write of
the `j`-th column, but for a settle wait and a drawn byte. -/
theorem resetMidSweepLeavesTheColumnDriven : Obligations.ResetMidSweepLeavesTheColumnDriven := by
  intro s op arg inbox j d l g0 gs reads writes hw hp h1 h5 hi hr hd hopen hlen hreads hwrites hj hl
  have hlow : g0 &&& inputMask s.cfg ≠ inputMask s.cfg := fun hhigh => by
    rw [columnsSwept_of_high hhigh] at hj
    exact Nat.not_lt_zero j hj
  obtain ⟨t, r, hrun, htrace⟩ := proceed_ticking hw hp h1 h5 hi hopen hlen hreads
  have hwithin : 4 + 3 * j + d ≤
      (tickingEvents (op ++ arg) s.env.sample s.cfg g0 gs).length := by
    rw [length_tickingEvents hlow hlen]
    omega
  obtain ⟨hreset, -⟩ := resetAbandonsTheCommand s t _ _ hr (by omega) hrun htrace
  obtain ⟨u, hstep, hutrace, huenv, -, -, hstate, -, -, -, hwaiting, hresetIn⟩ :=
    hreset (hwithin.trans (List.sublist_append_left _ _).length_le)
  rw [List.take_append_of_le_length hwithin] at hutrace huenv
  have hregs := memory_read_replay_take_tickingEvents hlow hlen hj hl hd hreads hwrites
    (op ++ arg) s.env.sample
  refine ⟨u, hstep, hstate, hwaiting, hresetIn, fun q hq => ?_, ?_, fun x hx => ?_⟩
  · rw [hutrace] at hq
    exact (List.mem_append.1 hq).resolve_right fun hcut =>
      response_not_mem_tickingEvents _ _ _ _ _ q (List.mem_of_mem_take hcut)
  · rw [huenv]
    exact (hregs 0x00).trans (if_pos rfl)
  · rw [huenv]
    exact (hregs x).trans (if_neg hx)

end Sys2Proof.Proofs
end
